-- ==== Sys2Proof/Word.lean ====
section
/-! DEFINITION. The word types of the block (00_scope.md R9, 30_encoding.md R90): a 64-bit command word, a
32-bit register value, a byte of the serial link, a 5-bit voice number. -/

namespace Sys2Proof

/-- A command word `cmd` (R90). -/
abbrev CmdWord := BitVec 64

/-- A 32-bit register value, bitset or `data` operand (R23, R90). -/
abbrev Word := BitVec 32

/-- A byte of the serial link a host may move a command word over (20_memory.md R75). -/
abbrev Byte := BitVec 8

/-- A voice index 0 to `NUM_VOICES`-1, as `BIND` and the events of `OUT` carry it (R41, R60). -/
abbrev Voice := BitVec 5

end Sys2Proof
end

