-- ==== Sys2Proof/Syntax.lean ====
section
/-! DEFINITION. The commands of the block as syntax: one constructor of `Instr` for each row of
spec/opcode_table.json (30_encoding.md R92), holding the operands of the row's format (R91) as the bits the command
word carries. A field that the format does not use is no operand (R96). -/

namespace Sys2Proof

/-- The nine slide kinds of 10_state.md R37, in the order of their numbers 0 to 8 (30_encoding.md R99). -/
inductive SlideKind where
  | tempo | reverbDepth | volume | pan | pitchBend | vibratoDepth | tremoloDepth | panLfoDepth | overlayBalance
deriving DecidableEq, Repr

/-- The kind of a track's secondary voice, `BIND[14]`: 0 is overlay, 1 is alternate (10_state.md R41). -/
inductive SecondaryKind where
  | overlay | alternate
deriving DecidableEq, Repr

/-- The 60 commands of the opcode map (30_encoding.md R92). -/
inductive Instr where
  /-- NOP, format Z, op 0x00 (R260). -/
  | nop
  /-- BLOCK, format Z, op 0x01 (R121). -/
  | block
  /-- TICK, format Z, op 0x02 (R122). -/
  | tick
  /-- SET_DELTA, format TI, op 0x03 (R123). -/
  | setDelta (track : BitVec 8) (count : BitVec 16)
  /-- TRACK_START, format T, op 0x04 (R124). -/
  | trackStart (track : BitVec 8)
  /-- TRACK_FINISH, format T, op 0x05 (R126). -/
  | trackFinish (track : BitVec 8)
  /-- TIME_SET, format D, op 0x06 (R128). -/
  | timeSet (value : BitVec 32)
  /-- REVERB_TYPE_SET, format D, op 0x07 (R129). -/
  | reverbTypeSet (value : BitVec 32)
  /-- DEVICE_FAULT, format T, op 0x08 (R127). -/
  | deviceFault (track : BitVec 8)
  /-- REG_READ, format R, op 0x0C (R261). -/
  | regRead (index : BitVec 8) (register : BitVec 16)
  /-- STATUS_CLEAR, format D, op 0x0D (R262). -/
  | statusClear (mask : BitVec 32)
  /-- SONG_INIT, format Z, op 0x0E (R263). -/
  | songInit
  /-- SLIDE_VALUE.TEMPO, format SV, op 0x10 (R156). -/
  | slideValueTempo (value : BitVec 32)
  /-- SLIDE_VALUE.REVERB_DEPTH, format SV, op 0x11 (R157). -/
  | slideValueReverbDepth (value : BitVec 32)
  /-- SLIDE_VALUE.VOLUME, format SV, op 0x12 (R158). -/
  | slideValueVolume (track : BitVec 8) (value : BitVec 32)
  /-- SLIDE_VALUE.PAN, format SV, op 0x13 (R159). -/
  | slideValuePan (track : BitVec 8) (value : BitVec 32)
  /-- SLIDE_VALUE.PITCH_BEND, format SV, op 0x14 (R160). -/
  | slideValuePitchBend (track : BitVec 8) (value : BitVec 32)
  /-- SLIDE_VALUE.VIBRATO_DEPTH, format SV, op 0x15 (R161). -/
  | slideValueVibratoDepth (track : BitVec 8) (value : BitVec 32)
  /-- SLIDE_VALUE.TREMOLO_DEPTH, format SV, op 0x16 (R162). -/
  | slideValueTremoloDepth (track : BitVec 8) (value : BitVec 32)
  /-- SLIDE_VALUE.PAN_LFO_DEPTH, format SV, op 0x17 (R163). -/
  | slideValuePanLfoDepth (track : BitVec 8) (value : BitVec 32)
  /-- SLIDE_VALUE.OVERLAY_BALANCE, format SV, op 0x18 (R164). -/
  | slideValueOverlayBalance (track : BitVec 8) (value : BitVec 32)
  /-- SLIDE_START.TEMPO, format SS, op 0x20 (R165). -/
  | slideStartTempo (length : BitVec 16) (slope : BitVec 32)
  /-- SLIDE_START.REVERB_DEPTH, format SS, op 0x21 (R166). -/
  | slideStartReverbDepth (length : BitVec 16) (slope : BitVec 32)
  /-- SLIDE_START.VOLUME, format SS, op 0x22 (R167). -/
  | slideStartVolume (track : BitVec 8) (length : BitVec 16) (slope : BitVec 32)
  /-- SLIDE_START.PAN, format SS, op 0x23 (R168). -/
  | slideStartPan (track : BitVec 8) (length : BitVec 16) (slope : BitVec 32)
  /-- SLIDE_START.PITCH_BEND, format SS, op 0x24 (R169). -/
  | slideStartPitchBend (track : BitVec 8) (length : BitVec 16) (slope : BitVec 32)
  /-- SLIDE_START.VIBRATO_DEPTH, format SS, op 0x25 (R170). -/
  | slideStartVibratoDepth (track : BitVec 8) (length : BitVec 16) (slope : BitVec 32)
  /-- SLIDE_START.TREMOLO_DEPTH, format SS, op 0x26 (R171). -/
  | slideStartTremoloDepth (track : BitVec 8) (length : BitVec 16) (slope : BitVec 32)
  /-- SLIDE_START.PAN_LFO_DEPTH, format SS, op 0x27 (R172). -/
  | slideStartPanLfoDepth (track : BitVec 8) (length : BitVec 16) (slope : BitVec 32)
  /-- SLIDE_START.OVERLAY_BALANCE, format SS, op 0x28 (R173). -/
  | slideStartOverlayBalance (track : BitVec 8) (length : BitVec 16) (slope : BitVec 32)
  /-- KEY_ON, format V, op 0x30 (R191). -/
  | keyOn (voice : BitVec 8)
  /-- KEY_OFF, format V, op 0x31 (R192). -/
  | keyOff (voice : BitVec 8)
  /-- RESOLVE, format Z, op 0x32 (R193). -/
  | resolve
  /-- SAVE_ACTIVE, format Z, op 0x33 (R195). -/
  | saveActive
  /-- NOISE_ON, format V, op 0x34 (R196). -/
  | noiseOn (voice : BitVec 8)
  /-- NOISE_OFF, format V, op 0x35 (R197). -/
  | noiseOff (voice : BitVec 8)
  /-- REVERB_ON, format V, op 0x36 (R198). -/
  | reverbOn (voice : BitVec 8)
  /-- REVERB_OFF, format V, op 0x37 (R199). -/
  | reverbOff (voice : BitVec 8)
  /-- PLFO_ON, format V, op 0x38 (R200). -/
  | plfoOn (voice : BitVec 8)
  /-- PLFO_OFF, format V, op 0x39 (R201). -/
  | plfoOff (voice : BitVec 8)
  /-- VOICES_QUERY, format Q, op 0x3A (R202). -/
  | voicesQuery (selector : BitVec 8) (mask : BitVec 32)
  /-- VOICE_BIND, format TI, op 0x3B (R203). -/
  | voiceBind (track : BitVec 8) (voice : BitVec 16)
  /-- VOICE_UNBIND, format T, op 0x3C (R204). -/
  | voiceUnbind (track : BitVec 8)
  /-- OVERLAY_ON, format TI, op 0x3D (R205). -/
  | overlayOn (track : BitVec 8) (voice : BitVec 16)
  /-- ALTERNATE_ON, format TI, op 0x3E (R206). -/
  | alternateOn (track : BitVec 8) (voice : BitVec 16)
  /-- SECONDARY_OFF, format T, op 0x3F (R207). -/
  | secondaryOff (track : BitVec 8)
  /-- INSTR_WRITE, format E, op 0x40 (R230). -/
  | instrWrite (entry : BitVec 8) (field : BitVec 16) (value : BitVec 32)
  /-- LOAD_INSTR, format TI, op 0x41 (R231). -/
  | loadInstr (track : BitVec 8) (instrument : BitVec 16)
  /-- SET_ATTACK_RATE, format TI, op 0x42 (R232). -/
  | setAttackRate (track : BitVec 8) (rate : BitVec 16)
  /-- SET_DECAY_RATE, format TI, op 0x43 (R233). -/
  | setDecayRate (track : BitVec 8) (rate : BitVec 16)
  /-- SET_SUSTAIN_RATE, format TI, op 0x44 (R234). -/
  | setSustainRate (track : BitVec 8) (rate : BitVec 16)
  /-- SET_RELEASE_RATE, format TI, op 0x45 (R235). -/
  | setReleaseRate (track : BitVec 8) (rate : BitVec 16)
  /-- SET_SUSTAIN_LEVEL, format TI, op 0x46 (R236). -/
  | setSustainLevel (track : BitVec 8) (level : BitVec 16)
  /-- SET_ATTACK_MODE, format TI, op 0x47 (R237). -/
  | setAttackMode (track : BitVec 8) (mode : BitVec 16)
  /-- SET_DECAY_MODE, format TI, op 0x48 (R238). -/
  | setDecayMode (track : BitVec 8) (mode : BitVec 16)
  /-- SET_RELEASE_MODE, format TI, op 0x49 (R239). -/
  | setReleaseMode (track : BitVec 8) (mode : BitVec 16)
  /-- SET_PITCH, format TI, op 0x4A (R240). -/
  | setPitch (track : BitVec 8) (pitch : BitVec 16)
  /-- SET_VOLUME, format TD, op 0x4B (R241). -/
  | setVolume (track : BitVec 8) (pair : BitVec 32)
  /-- SET_ADDR, format TD, op 0x4C (R242). -/
  | setAddr (track : BitVec 8) (handle : BitVec 32)
  /-- SET_LOOP_ADDR, format TD, op 0x4D (R243). -/
  | setLoopAddr (track : BitVec 8) (handle : BitVec 32)
deriving DecidableEq, Repr

end Sys2Proof
end

