-- ==== Sys2Proof/Config.lean ====
section
/-! DEFINITION. The implementation parameters of 00_scope.md R7, each an argument of the model. Those that are numbers are
the fields of `Params`, which the state carries and no command writes, so that every meaning reads them and a statement
about every state holds for every value of them (assumption log 2; the OPEN ones log 3). OVERLAY_VOLUME and PORT_BASE,
OPEN with no default, are constants with no body (log 4, 5), as VOICE_ARBITRATION is in Machine/Players.lean (log 6).
NUM_PLAYERS is an argument of `Machine.Players`. -/

namespace Sys2Proof.Config

/-- The most tracks an instance has: `NUM_TRACKS` <= 64 (R7). -/
abbrev maxTracks : Nat := 64

/-- `NUM_PLAYERS`, the instances of the block in the reference system: R7's value, an argument of `Machine.Players`. -/
abbrev numPlayers : Nat := 2

/-- How many bitsets `VOICES_QUERY` selects from (30_encoding.md R98, R99). -/
abbrev numSelectors : Nat := 8

/-- The spec revision that `ID[31:24]` carries (10_state.md R25). -/
abbrev specRevision : Nat := 1

/-- The range of one slide kind, `SLIDE_LO[k]` to `SLIDE_HI[k]` (R7, 42_slide.md R150). -/
structure SlideRange where
  lo : Int
  hi : Int
deriving DecidableEq, Repr

/-- The parameters of R7 that are numbers. A width is at most the room that the register map and the command word give
the register it is the width of, a count at most what the index fields can name (log 2). -/
structure Params where
  /-- `FRAC_BITS`: one tick is 2^`FRAC_BITS` time-counter units. -/
  fracBits        : Fin 33
  /-- `NUM_VOICES`: a voice number has 5 bits (10_state.md R41). -/
  numVoices       : Fin 33
  /-- `BITSET_WIDTH`. -/
  bitsetWidth     : Fin 33
  /-- `NUM_INSTR`: an entry number has 8 bits (20_memory.md R73). -/
  numInstr        : Fin 257
  /-- `NUM_TRACKS`. -/
  numTracks       : Fin (maxTracks + 1)
  /-- `TC_WIDTH`. -/
  tcWidth         : Fin 33
  /-- `TP_WIDTH`. -/
  tpWidth         : Fin 33
  /-- `DELTA_WIDTH`: the operand has 16 bits (41_timing.md R123). -/
  deltaWidth      : Fin 17
  /-- `SLIDE_VALUE_WIDTH`. -/
  slideValueWidth : Fin 33
  /-- `SLIDE_SLOPE_WIDTH`. -/
  slideSlopeWidth : Fin 33
  /-- `SLIDE_LEN_WIDTH`: the operand has 16 bits (42_slide.md R155). -/
  slideLenWidth   : Fin 17
  /-- `AR_W`: `ADSR_RATES` has 8 bits for each rate (10_state.md R49). -/
  arW             : Fin 9
  /-- `DR_W`. -/
  drW             : Fin 9
  /-- `SR_W`. -/
  srW             : Fin 9
  /-- `RR_W`. -/
  rrW             : Fin 9
  /-- `SL_W`: the operand has 16 bits (44_adsr.md R236). -/
  slW             : Fin 17
  /-- `MODE_W`: `ADSR_MODES` has 2 bits for each mode (10_state.md R48). -/
  modeW           : Fin 3
  /-- `PITCH_W`: the operand has 16 bits (44_adsr.md R240). -/
  pitchW          : Fin 17
  /-- `VOL_W`: `VOLUME_LR` has 16 bits for each channel (10_state.md R47). -/
  volW            : Fin 17
  /-- `ADDR_W`. -/
  addrW           : Fin 33
  /-- `INSTR_ID_W`: the operand has 16 bits (44_adsr.md R231). -/
  instrIdW        : Fin 17
  /-- `SLIDE_LO[k]` and `SLIDE_HI[k]` by kind number, OPEN (D11). -/
  slideRanges     : Vector SlideRange 9
  /-- `SL_SHIFT`, OPEN (D24). -/
  slShift         : Nat
deriving DecidableEq, Repr

/-- The default range of the tempo: 0 to 2^32-1 (R7). -/
def tempoRange : SlideRange := ⟨0, 4294967295⟩

/-- The default range of every other kind: -2^31 to 2^31-1 (R7). -/
def signedRange : SlideRange := ⟨-2147483648, 2147483647⟩

/-- The values R7 gives the parameters. -/
def defaultParams : Params where
  fracBits        := 16
  numVoices       := 32
  bitsetWidth     := 32
  numInstr        := 256
  numTracks       := 56
  tcWidth         := 32
  tpWidth         := 32
  deltaWidth      := 16
  slideValueWidth := 32
  slideSlopeWidth := 32
  slideLenWidth   := 16
  arW             := 7
  drW             := 4
  srW             := 7
  rrW             := 5
  slW             := 4
  modeW           := 2
  pitchW          := 16
  volW            := 16
  addrW           := 32
  instrIdW        := 16
  slideRanges     := ⟨#[tempoRange, signedRange, signedRange, signedRange, signedRange, signedRange, signedRange,
    signedRange, signedRange], rfl⟩
  slShift         := 0

/-- `OVERLAY_VOLUME` (R7, 43_voice.md R194): a total function of the secondary's kind, the track's left and right
volume and its overlay balance to the secondary voice's left and right volume. OPEN with no default (D21): a FREE
VALUE, nothing in Lean evaluates it (assumption log 4). -/
opaque overlayVolume (kind : SecondaryKind) (left right : BitVec 16) (balance : Word) : BitVec 16 × BitVec 16

/-- `PORT_BASE` (R7, 20_memory.md R79): where the ports sit in a host's address space. OPEN; no rule reads it, and
no definition of the model does (assumption log 5). -/
opaque portBase : Nat

end Sys2Proof.Config
end

