-- ==== Sys2Proof/Decode.lean ====
section
/-! DEFINITION. The decoder and the encoder (30_encoding.md R90 to R98). A command is one 64-bit word; its op byte alone
selects the command (R92), every other bit is an operand or ignored (R96). A reserved op byte is rejected by name:
`Decoded.reservedOpcode` (the machine then raises ILLEGAL_OP, R94). The byte order of a serial link is R75's. -/

namespace Sys2Proof

/-! The four fields of a command word (R90). -/

/-- `cmd.op`, bits 63:56. -/
def opField (w : CmdWord) : BitVec 8 := w.extractLsb' 56 8

/-- `cmd.idx`, bits 55:48. -/
def idxField (w : CmdWord) : BitVec 8 := w.extractLsb' 48 8

/-- `cmd.imm`, bits 47:32. -/
def immField (w : CmdWord) : BitVec 16 := w.extractLsb' 32 16

/-- `cmd.data`, bits 31:0. -/
def dataField (w : CmdWord) : Word := w.extractLsb' 0 32

/-- What a command word decodes to: a command, or a reserved op byte, rejected by name (R94). -/
inductive Decoded where
  | command (i : Instr)
  | reservedOpcode (op : BitVec 8)
deriving DecidableEq, Repr

/-- The command that op byte `op` selects, with its operands taken from the fields of its format (R91, R92). -/
def decodeFields (op idx : BitVec 8) (imm : BitVec 16) (data : Word) : Decoded :=
  match op.toNat with
  | 0x00 => .command .nop
  | 0x01 => .command .block
  | 0x02 => .command .tick
  | 0x03 => .command (.setDelta idx imm)
  | 0x04 => .command (.trackStart idx)
  | 0x05 => .command (.trackFinish idx)
  | 0x06 => .command (.timeSet data)
  | 0x07 => .command (.reverbTypeSet data)
  | 0x08 => .command (.deviceFault idx)
  | 0x0C => .command (.regRead idx imm)
  | 0x0D => .command (.statusClear data)
  | 0x0E => .command .songInit
  | 0x10 => .command (.slideValueTempo data)
  | 0x11 => .command (.slideValueReverbDepth data)
  | 0x12 => .command (.slideValueVolume idx data)
  | 0x13 => .command (.slideValuePan idx data)
  | 0x14 => .command (.slideValuePitchBend idx data)
  | 0x15 => .command (.slideValueVibratoDepth idx data)
  | 0x16 => .command (.slideValueTremoloDepth idx data)
  | 0x17 => .command (.slideValuePanLfoDepth idx data)
  | 0x18 => .command (.slideValueOverlayBalance idx data)
  | 0x20 => .command (.slideStartTempo imm data)
  | 0x21 => .command (.slideStartReverbDepth imm data)
  | 0x22 => .command (.slideStartVolume idx imm data)
  | 0x23 => .command (.slideStartPan idx imm data)
  | 0x24 => .command (.slideStartPitchBend idx imm data)
  | 0x25 => .command (.slideStartVibratoDepth idx imm data)
  | 0x26 => .command (.slideStartTremoloDepth idx imm data)
  | 0x27 => .command (.slideStartPanLfoDepth idx imm data)
  | 0x28 => .command (.slideStartOverlayBalance idx imm data)
  | 0x30 => .command (.keyOn idx)
  | 0x31 => .command (.keyOff idx)
  | 0x32 => .command .resolve
  | 0x33 => .command .saveActive
  | 0x34 => .command (.noiseOn idx)
  | 0x35 => .command (.noiseOff idx)
  | 0x36 => .command (.reverbOn idx)
  | 0x37 => .command (.reverbOff idx)
  | 0x38 => .command (.plfoOn idx)
  | 0x39 => .command (.plfoOff idx)
  | 0x3A => .command (.voicesQuery idx data)
  | 0x3B => .command (.voiceBind idx imm)
  | 0x3C => .command (.voiceUnbind idx)
  | 0x3D => .command (.overlayOn idx imm)
  | 0x3E => .command (.alternateOn idx imm)
  | 0x3F => .command (.secondaryOff idx)
  | 0x40 => .command (.instrWrite idx imm data)
  | 0x41 => .command (.loadInstr idx imm)
  | 0x42 => .command (.setAttackRate idx imm)
  | 0x43 => .command (.setDecayRate idx imm)
  | 0x44 => .command (.setSustainRate idx imm)
  | 0x45 => .command (.setReleaseRate idx imm)
  | 0x46 => .command (.setSustainLevel idx imm)
  | 0x47 => .command (.setAttackMode idx imm)
  | 0x48 => .command (.setDecayMode idx imm)
  | 0x49 => .command (.setReleaseMode idx imm)
  | 0x4A => .command (.setPitch idx imm)
  | 0x4B => .command (.setVolume idx data)
  | 0x4C => .command (.setAddr idx data)
  | 0x4D => .command (.setLoopAddr idx data)
  | _ => .reservedOpcode op

/-- Decodes a command word. Total: every word is a command or names its reserved op byte (R90, R94). -/
def decode (w : CmdWord) : Decoded := decodeFields (opField w) (idxField w) (immField w) (dataField w)

/-- The op byte of a command (R92). -/
def opcodeOf : Instr → BitVec 8
  | .nop => 0x00
  | .block => 0x01
  | .tick => 0x02
  | .setDelta _ _ => 0x03
  | .trackStart _ => 0x04
  | .trackFinish _ => 0x05
  | .timeSet _ => 0x06
  | .reverbTypeSet _ => 0x07
  | .deviceFault _ => 0x08
  | .regRead _ _ => 0x0C
  | .statusClear _ => 0x0D
  | .songInit => 0x0E
  | .slideValueTempo _ => 0x10
  | .slideValueReverbDepth _ => 0x11
  | .slideValueVolume _ _ => 0x12
  | .slideValuePan _ _ => 0x13
  | .slideValuePitchBend _ _ => 0x14
  | .slideValueVibratoDepth _ _ => 0x15
  | .slideValueTremoloDepth _ _ => 0x16
  | .slideValuePanLfoDepth _ _ => 0x17
  | .slideValueOverlayBalance _ _ => 0x18
  | .slideStartTempo _ _ => 0x20
  | .slideStartReverbDepth _ _ => 0x21
  | .slideStartVolume _ _ _ => 0x22
  | .slideStartPan _ _ _ => 0x23
  | .slideStartPitchBend _ _ _ => 0x24
  | .slideStartVibratoDepth _ _ _ => 0x25
  | .slideStartTremoloDepth _ _ _ => 0x26
  | .slideStartPanLfoDepth _ _ _ => 0x27
  | .slideStartOverlayBalance _ _ _ => 0x28
  | .keyOn _ => 0x30
  | .keyOff _ => 0x31
  | .resolve => 0x32
  | .saveActive => 0x33
  | .noiseOn _ => 0x34
  | .noiseOff _ => 0x35
  | .reverbOn _ => 0x36
  | .reverbOff _ => 0x37
  | .plfoOn _ => 0x38
  | .plfoOff _ => 0x39
  | .voicesQuery _ _ => 0x3A
  | .voiceBind _ _ => 0x3B
  | .voiceUnbind _ => 0x3C
  | .overlayOn _ _ => 0x3D
  | .alternateOn _ _ => 0x3E
  | .secondaryOff _ => 0x3F
  | .instrWrite _ _ _ => 0x40
  | .loadInstr _ _ => 0x41
  | .setAttackRate _ _ => 0x42
  | .setDecayRate _ _ => 0x43
  | .setSustainRate _ _ => 0x44
  | .setReleaseRate _ _ => 0x45
  | .setSustainLevel _ _ => 0x46
  | .setAttackMode _ _ => 0x47
  | .setDecayMode _ _ => 0x48
  | .setReleaseMode _ _ => 0x49
  | .setPitch _ _ => 0x4A
  | .setVolume _ _ => 0x4B
  | .setAddr _ _ => 0x4C
  | .setLoopAddr _ _ => 0x4D

/-- The `idx` field an encoder writes: the format's index operand, 0 where the format has none (R91, R96). -/
def idxOf : Instr → BitVec 8
  | .setDelta v _ => v
  | .trackStart v => v
  | .trackFinish v => v
  | .deviceFault v => v
  | .regRead v _ => v
  | .slideValueVolume v _ => v
  | .slideValuePan v _ => v
  | .slideValuePitchBend v _ => v
  | .slideValueVibratoDepth v _ => v
  | .slideValueTremoloDepth v _ => v
  | .slideValuePanLfoDepth v _ => v
  | .slideValueOverlayBalance v _ => v
  | .slideStartVolume v _ _ => v
  | .slideStartPan v _ _ => v
  | .slideStartPitchBend v _ _ => v
  | .slideStartVibratoDepth v _ _ => v
  | .slideStartTremoloDepth v _ _ => v
  | .slideStartPanLfoDepth v _ _ => v
  | .slideStartOverlayBalance v _ _ => v
  | .keyOn v => v
  | .keyOff v => v
  | .noiseOn v => v
  | .noiseOff v => v
  | .reverbOn v => v
  | .reverbOff v => v
  | .plfoOn v => v
  | .plfoOff v => v
  | .voicesQuery v _ => v
  | .voiceBind v _ => v
  | .voiceUnbind v => v
  | .overlayOn v _ => v
  | .alternateOn v _ => v
  | .secondaryOff v => v
  | .instrWrite v _ _ => v
  | .loadInstr v _ => v
  | .setAttackRate v _ => v
  | .setDecayRate v _ => v
  | .setSustainRate v _ => v
  | .setReleaseRate v _ => v
  | .setSustainLevel v _ => v
  | .setAttackMode v _ => v
  | .setDecayMode v _ => v
  | .setReleaseMode v _ => v
  | .setPitch v _ => v
  | .setVolume v _ => v
  | .setAddr v _ => v
  | .setLoopAddr v _ => v
  | .nop => 0
  | .block => 0
  | .tick => 0
  | .timeSet _ => 0
  | .reverbTypeSet _ => 0
  | .statusClear _ => 0
  | .songInit => 0
  | .slideValueTempo _ => 0
  | .slideValueReverbDepth _ => 0
  | .slideStartTempo _ _ => 0
  | .slideStartReverbDepth _ _ => 0
  | .resolve => 0
  | .saveActive => 0

/-- The `imm` field an encoder writes: the format's short operand, 0 where the format has none (R91, R96). -/
def immOf : Instr → BitVec 16
  | .setDelta _ v => v
  | .regRead _ v => v
  | .slideStartTempo v _ => v
  | .slideStartReverbDepth v _ => v
  | .slideStartVolume _ v _ => v
  | .slideStartPan _ v _ => v
  | .slideStartPitchBend _ v _ => v
  | .slideStartVibratoDepth _ v _ => v
  | .slideStartTremoloDepth _ v _ => v
  | .slideStartPanLfoDepth _ v _ => v
  | .slideStartOverlayBalance _ v _ => v
  | .voiceBind _ v => v
  | .overlayOn _ v => v
  | .alternateOn _ v => v
  | .instrWrite _ v _ => v
  | .loadInstr _ v => v
  | .setAttackRate _ v => v
  | .setDecayRate _ v => v
  | .setSustainRate _ v => v
  | .setReleaseRate _ v => v
  | .setSustainLevel _ v => v
  | .setAttackMode _ v => v
  | .setDecayMode _ v => v
  | .setReleaseMode _ v => v
  | .setPitch _ v => v
  | .nop => 0
  | .block => 0
  | .tick => 0
  | .trackStart _ => 0
  | .trackFinish _ => 0
  | .timeSet _ => 0
  | .reverbTypeSet _ => 0
  | .deviceFault _ => 0
  | .statusClear _ => 0
  | .songInit => 0
  | .slideValueTempo _ => 0
  | .slideValueReverbDepth _ => 0
  | .slideValueVolume _ _ => 0
  | .slideValuePan _ _ => 0
  | .slideValuePitchBend _ _ => 0
  | .slideValueVibratoDepth _ _ => 0
  | .slideValueTremoloDepth _ _ => 0
  | .slideValuePanLfoDepth _ _ => 0
  | .slideValueOverlayBalance _ _ => 0
  | .keyOn _ => 0
  | .keyOff _ => 0
  | .resolve => 0
  | .saveActive => 0
  | .noiseOn _ => 0
  | .noiseOff _ => 0
  | .reverbOn _ => 0
  | .reverbOff _ => 0
  | .plfoOn _ => 0
  | .plfoOff _ => 0
  | .voicesQuery _ _ => 0
  | .voiceUnbind _ => 0
  | .secondaryOff _ => 0
  | .setVolume _ _ => 0
  | .setAddr _ _ => 0
  | .setLoopAddr _ _ => 0

/-- The `data` field an encoder writes: the format's long operand, 0 where the format has none (R91, R96). -/
def dataOf : Instr → Word
  | .timeSet v => v
  | .reverbTypeSet v => v
  | .statusClear v => v
  | .slideValueTempo v => v
  | .slideValueReverbDepth v => v
  | .slideValueVolume _ v => v
  | .slideValuePan _ v => v
  | .slideValuePitchBend _ v => v
  | .slideValueVibratoDepth _ v => v
  | .slideValueTremoloDepth _ v => v
  | .slideValuePanLfoDepth _ v => v
  | .slideValueOverlayBalance _ v => v
  | .slideStartTempo _ v => v
  | .slideStartReverbDepth _ v => v
  | .slideStartVolume _ _ v => v
  | .slideStartPan _ _ v => v
  | .slideStartPitchBend _ _ v => v
  | .slideStartVibratoDepth _ _ v => v
  | .slideStartTremoloDepth _ _ v => v
  | .slideStartPanLfoDepth _ _ v => v
  | .slideStartOverlayBalance _ _ v => v
  | .voicesQuery _ v => v
  | .instrWrite _ _ v => v
  | .setVolume _ v => v
  | .setAddr _ v => v
  | .setLoopAddr _ v => v
  | .nop => 0
  | .block => 0
  | .tick => 0
  | .setDelta _ _ => 0
  | .trackStart _ => 0
  | .trackFinish _ => 0
  | .deviceFault _ => 0
  | .regRead _ _ => 0
  | .songInit => 0
  | .keyOn _ => 0
  | .keyOff _ => 0
  | .resolve => 0
  | .saveActive => 0
  | .noiseOn _ => 0
  | .noiseOff _ => 0
  | .reverbOn _ => 0
  | .reverbOff _ => 0
  | .plfoOn _ => 0
  | .plfoOff _ => 0
  | .voiceBind _ _ => 0
  | .voiceUnbind _ => 0
  | .overlayOn _ _ => 0
  | .alternateOn _ _ => 0
  | .secondaryOff _ => 0
  | .loadInstr _ _ => 0
  | .setAttackRate _ _ => 0
  | .setDecayRate _ _ => 0
  | .setSustainRate _ _ => 0
  | .setReleaseRate _ _ => 0
  | .setSustainLevel _ _ => 0
  | .setAttackMode _ _ => 0
  | .setDecayMode _ _ => 0
  | .setReleaseMode _ _ => 0
  | .setPitch _ _ => 0

/-- The word with the four fields given: `op<<56 | idx<<48 | imm<<32 | data` (R90). -/
def packWord (op idx : BitVec 8) (imm : BitVec 16) (data : Word) : CmdWord := op ++ (idx ++ (imm ++ data))

/-- The command word of an instruction, its unused fields zero (R90, R92, R96). -/
def encode (i : Instr) : CmdWord := packWord (opcodeOf i) (idxOf i) (immOf i) (dataOf i)

/-! The serial link (20_memory.md R75, R76): a word moves least significant byte first, and is taken only when all of its
8 bytes have arrived. -/

/-- Byte `n` of a command word, byte 0 being `cmd[7:0]` (R75). -/
def wordByte (w : CmdWord) (n : Nat) : Byte := w.extractLsb' (8 * n) 8

/-- The 8 bytes of a command word in the order the link moves them (R75). -/
def wordBytes (w : CmdWord) : List Byte := (List.range 8).map (wordByte w)

/-- The 4 bytes of a 32-bit `RESULT` in the order the link moves them (R75). -/
def resultBytes (r : Word) : List Byte := (List.range 4).map fun n => r.extractLsb' (8 * n) 8

/-- The first command word of a byte stream and the bytes after it, `none` for a part-word (R75, R76). -/
def takeWord : List Byte → Option (CmdWord × List Byte)
  | b0 :: b1 :: b2 :: b3 :: b4 :: b5 :: b6 :: b7 :: rest =>
    some (b7 ++ (b6 ++ (b5 ++ (b4 ++ (b3 ++ (b2 ++ (b1 ++ b0)))))), rest)
  | _ => none

/-- Why a byte stream does not begin with a command. -/
inductive DecodeRefusal where
  /-- Fewer than 8 bytes have arrived: a part-word is not a command (R76). -/
  | partWord
  /-- The op byte is reserved (R94, R95). -/
  | reservedOpcode (op : BitVec 8)
deriving DecidableEq, Repr

/-- The command at the head of a byte stream and the bytes after it. Total on any bytes (R75, R76, R94). -/
def decodeBytes (bs : List Byte) : Except DecodeRefusal (Instr × List Byte) :=
  match takeWord bs with
  | none => .error .partWord
  | some (w, rest) =>
    match decode w with
    | .command i => .ok (i, rest)
    | .reservedOpcode op => .error (.reservedOpcode op)

/-- The command word whose low `nbits` bits are those of `w` and whose other bits are 0, bit 0 the least significant. -/
def tableWord (nbits w : Nat) : CmdWord := BitVec.ofNat 64 (w % 2 ^ nbits)

/-- The instruction the decoder reads from the bytes of `tableWord nbits w`, laid out as the link moves them. -/
def decodeTableWord (nbits w : Nat) : Option Instr :=
  match decodeBytes (wordBytes (tableWord nbits w)) with
  | .ok (i, _) => some i
  | .error _ => none

end Sys2Proof
end

