-- ==== Sys2Proof/Machine/State.lean ====
section
/-! DEFINITION. The state of one instance of the block: every piece of state of 10_state.md R23 to R64, the output event
stream `OUT` (R60), the Instrument Table (20_memory.md R70), and what the host has put on the command port, the reset
input and the serial link (00_scope.md R3, 20_memory.md R75). Plain data throughout. The values after reset are R62's.
The event kinds and diagnostics that a device or a host sees are defined here too. -/

namespace Sys2Proof.Machine

/-- A fault would stop the machine. This block has none: every error is a diagnostic and the next command executes
normally (60_exceptions.md R280, R285), so the type has no value and nothing raises it (safe: there is no stop). -/
inductive Fault where
deriving DecidableEq, Repr

/-- Why the model gives no step. No command of this block is refused: the one constructor is the host's fixed name for an
instruction whose meaning is not written yet, and no arm of `exec` answers it (safe: a stop proves nothing about it). -/
inductive Refusal where
  /-- An arm of `exec` that has no meaning yet; raised by no arm of this model (safe). -/
  | notModelled (mnemonic : String)
deriving DecidableEq, Repr

/-- The ten diagnostics, in the order of their codes, which are the `ERROR` bit numbers (R27, 60_exceptions.md R281). -/
inductive Diag where
  | illegalOp | indexRange | instrInvalid | bindConflict | noTick | badReg
  | deviceFault | keyoffNotKeyed | keyonKeyed | ticksSat
deriving DecidableEq, Repr

/-- The ADSR fields of `SetAdsr`, in its order: three modes of `MODE_W` bits, the rates of `AR_W`, `DR_W`, `SR_W` and
`RR_W` bits, the level of `SL_W` bits (R60; 2, 2, 2, 7, 4, 7, 5 and 4 by R7). The types are the room that the packed
registers give a field (R48, R49); the commands write a field's low bits only. -/
structure Adsr where
  attackMode   : BitVec 2
  decayMode    : BitVec 2
  releaseMode  : BitVec 2
  attackRate   : BitVec 8
  decayRate    : BitVec 8
  sustainRate  : BitVec 8
  releaseRate  : BitVec 8
  sustainLevel : BitVec 16
deriving DecidableEq, Repr

/-- The event kinds of `OUT` (R60). -/
inductive Event where
  | setAddr (v : Voice) (a : Word)
  | setLoopAddr (v : Voice) (a : Word)
  | setAdsr (v : Voice) (adsr : Adsr)
  | setPitch (v : Voice) (p : BitVec 16)
  | setVolume (v : Voice) (l r : BitVec 16)
  | keyOff (v : Voice)
  | keyOn (v : Voice)
  | noiseWord (w : Word)
  | reverbWord (w : Word)
  | pitchLfoWord (w : Word)
  | diag (code : Diag) (op : BitVec 8)
deriving DecidableEq, Repr

/-- A slide unit: `value`, `slope`, `remaining` (R37). -/
structure Slide where
  value     : Word
  slope     : Word
  remaining : BitVec 16
deriving DecidableEq, Repr

/-- A track's secondary voice: `SECONDARY_VOICE` and `SECONDARY_KIND` (R41). -/
structure Secondary where
  voice : Voice
  kind  : SecondaryKind
deriving DecidableEq, Repr

/-- The state of one track: `TRACK_CTRL` (`active` is `T_ACTIVE`), `DELTA`, `BIND`, `UPDATE`, `INSTR_ID`, the voice
shadow and the seven slide units of kinds 2 to 8 (R37 to R50). `primary` and `secondary` are the bound voices: `none`
is `PRIMARY_BOUND` = 0 or `SECONDARY_BOUND` = 0, where the voice and kind fields read 0 (R41). -/
structure Track where
  active         : Bool
  wake           : Bool
  delta          : BitVec 16
  primary        : Option Voice
  secondary      : Option Secondary
  update         : BitVec 5
  instrId        : BitVec 16
  addr           : Word
  loopAddr       : Word
  pitch          : BitVec 16
  volumeLr       : Word
  adsr           : Adsr
  volume         : Slide
  pan            : Slide
  pitchBend      : Slide
  vibratoDepth   : Slide
  tremoloDepth   : Slide
  panLfoDepth    : Slide
  overlayBalance : Slide
deriving DecidableEq, Repr

/-- A track index (20_memory.md R73). The instance has the tracks below `NUM_TRACKS`; the places from there to 63 hold no
track: no command reads or writes them and no register shows them (log 2). -/
abbrev TrackIx := Fin Config.maxTracks

/-- The Instrument Table, the block's only memory: pairs of a cell address and its value, a cell being one field of one
entry (20_memory.md R70, R71). The canonical form is `Memory.wf`; a cell that is not listed reads 0, the value every
field has after reset (R62). The unit is a field because nothing of the block is byte-addressed (R75; log 7). -/
abbrev Memory := List (Nat × Word)

/-- One thing the host does at the block's inputs: a command word at the command port (R90), a byte of a word moved over
a byte-wide link (20_memory.md R75), or reset asserted between two commands (70_reset_and_hazards.md R300). -/
inductive PortInput where
  | command (w : CmdWord)
  | byte (b : Byte)
  | reset
deriving DecidableEq, Repr

/-- The whole state of one instance of the block.
`params` holds the numeric parameters of 00_scope.md R7; no step changes it (log 2, 3). A register's type is the room its
parameter width has (log 2). `input` is what the host has
put on the ports and the block has not taken yet, oldest first; `link` holds the bytes of a part-word (log 8). -/
structure State where
  params            : Config.Params
  timeCounter       : Word
  ticksPending      : Word
  reverbType        : Word
  error             : BitVec 10
  result            : Word
  activeVoices      : Word
  keyOnVoices       : Word
  keyedVoices       : Word
  keyOffVoices      : Word
  savedActiveVoices : Word
  noiseVoices       : Word
  reverbVoices      : Word
  pitchLfoVoices    : Word
  featureDirty      : BitVec 3
  tempo             : Slide
  reverbDepth       : Slide
  tracks            : Vector Track Config.maxTracks
  instrTable        : Memory
  out               : List Event
  link              : List Byte
  input             : List PortInput
deriving DecidableEq, Repr

/-- A slide unit after reset: (0, 0, 0) (R62). -/
def Slide.reset : Slide := ⟨0, 0, 0⟩

/-- The ADSR fields after reset (R62). -/
def Adsr.reset : Adsr := ⟨0, 0, 0, 0, 0, 0, 0, 0⟩

/-- A track after reset: idle, unbound, every field 0 (R62). -/
def Track.reset : Track where
  active         := false
  wake           := false
  delta          := 0
  primary        := none
  secondary      := none
  update         := 0
  instrId        := 0
  addr           := 0
  loopAddr       := 0
  pitch          := 0
  volumeLr       := 0
  adsr           := .reset
  volume         := .reset
  pan            := .reset
  pitchBend      := .reset
  vibratoDepth   := .reset
  tremoloDepth   := .reset
  panLfoDepth    := .reset
  overlayBalance := .reset

/-- The machine right after reset (R62, 70_reset_and_hazards.md R300): everything 0, `FEATURE_DIRTY` = 0b111, the
Instrument Table with every field 0 (no entry valid), `OUT` empty, nothing on the ports. -/
def State.reset : State where
  params            := Config.defaultParams
  timeCounter       := 0
  ticksPending      := 0
  reverbType        := 0
  error             := 0
  result            := 0
  activeVoices      := 0
  keyOnVoices       := 0
  keyedVoices       := 0
  keyOffVoices      := 0
  savedActiveVoices := 0
  noiseVoices       := 0
  reverbVoices      := 0
  pitchLfoVoices    := 0
  featureDirty      := 0b111
  tempo             := .reset
  reverbDepth       := .reset
  tracks            := Vector.replicate Config.maxTracks .reset
  instrTable        := []
  out               := []
  link              := []
  input             := []

end Sys2Proof.Machine
end

