-- ==== Sys2Proof/Machine/Flags.lean ====
section
/-! DEFINITION. Every flag the block computes: the sticky `ERROR` bits (10_state.md R27), the derived `STATUS` (R26), the
two status outputs (60_exceptions.md R286), and the `UPDATE` and `FEATURE_DIRTY` masks (R35, R43). The block has no
condition codes (R63). -/

namespace Sys2Proof.Machine

/-- The code of a diagnostic, its `ERROR` bit number (R27, R281). -/
def diagCode : Diag → Nat
  | .illegalOp => 0
  | .indexRange => 1
  | .instrInvalid => 2
  | .bindConflict => 3
  | .noTick => 4
  | .badReg => 5
  | .deviceFault => 6
  | .keyoffNotKeyed => 7
  | .keyonKeyed => 8
  | .ticksSat => 9

/-- The `ERROR` bit of a diagnostic (R27). -/
def diagBit (d : Diag) : BitVec 10 := BitVec.twoPow 10 (diagCode d)

/-- `ERROR` after `STATUS_CLEAR` with mask `mask`: `ERROR & ~mask[9:0]` (45_system.md R262). -/
def clearError (error : BitVec 10) (mask : Word) : BitVec 10 := error &&& ~~~(mask.extractLsb' 0 10)

/-- The tracks the instance has, 0 to `NUM_TRACKS`-1, ascending (00_scope.md R7, 20_memory.md R73). -/
def liveTracks (s : State) : List Track := s.tracks.toList.take s.params.numTracks

/-- A track has a bound voice, primary or secondary (R26, R43). -/
def trackBound (tr : Track) : Bool := tr.primary.isSome || tr.secondary.isSome

/-- `STATUS[0]` WAKE_ANY: some track is active and awake (R26). -/
def wakeAny (s : State) : Bool := (liveTracks s).any fun tr => tr.active && tr.wake

/-- `STATUS[1]` TICKS_ANY (R26). -/
def ticksAny (s : State) : Bool := s.ticksPending != 0

/-- `STATUS[2]` ERR_ANY (R26). -/
def errAny (s : State) : Bool := s.error != 0

/-- `STATUS[3]` FEATURE_DIRTY_ANY (R26). -/
def featureDirtyAny (s : State) : Bool := s.featureDirty != 0

/-- `STATUS[4]` KEY_PENDING_ANY (R26). -/
def keyPendingAny (s : State) : Bool := (s.keyOnVoices ||| s.keyOffVoices) != 0

/-- `STATUS[5]` UPDATE_PENDING_ANY: some track has a dirty group and a bound voice (R26). -/
def updatePendingAny (s : State) : Bool := (liveTracks s).any fun tr => tr.update != 0 && trackBound tr

/-- `STATUS`, derived from the state it summarises; no command writes it (R26). -/
def status (s : State) : BitVec 6 :=
  BitVec.ofBool (updatePendingAny s) ++ (BitVec.ofBool (keyPendingAny s) ++ (BitVec.ofBool (featureDirtyAny s) ++
    (BitVec.ofBool (errAny s) ++ (BitVec.ofBool (ticksAny s) ++ BitVec.ofBool (wakeAny s)))))

/-- The level output `WAKE_OUT` = `STATUS[0]` (R286). -/
def wakeOut (s : State) : Bool := wakeAny s

/-- The level output `ERR_OUT` = `STATUS[2]` (R286). -/
def errOut (s : State) : Bool := errAny s

/-! The `UPDATE` bits of the five register groups (R43) and the `FEATURE_DIRTY` bits (R35). -/

/-- `UPDATE[0]`, the waveform address. -/
def updAddr : BitVec 5 := 0b00001

/-- `UPDATE[1]`, the loop address. -/
def updLoop : BitVec 5 := 0b00010

/-- `UPDATE[2]`, all ADSR fields. -/
def updAdsr : BitVec 5 := 0b00100

/-- `UPDATE[3]`, the pitch. -/
def updPitch : BitVec 5 := 0b01000

/-- `UPDATE[4]`, the volume. -/
def updVolume : BitVec 5 := 0b10000

/-- All five groups, what a bind marks (R43, R203, R205). -/
def updAll : BitVec 5 := 0b11111

/-- ADDR, LOOP, ADSR and PITCH, what `LOAD_INSTR` marks (44_adsr.md R231). -/
def updInstr : BitVec 5 := 0b01111

/-- `FEATURE_DIRTY[0]`, noise. -/
def dirtyNoise : BitVec 3 := 0b001

/-- `FEATURE_DIRTY[1]`, reverb. -/
def dirtyReverb : BitVec 3 := 0b010

/-- `FEATURE_DIRTY[2]`, pitch-LFO. -/
def dirtyPitchLfo : BitVec 3 := 0b100

end Sys2Proof.Machine
end

