-- ==== Sys2Proof/Machine/Operands.lean ====
section
/-! DEFINITION. Every operand form of 30_encoding.md R98, with the bounds of 60_exceptions.md R281: `none` is an index out
of range. `cmd.imm` is always zero-extended; no operand is scaled but the sustain level. What a register of a parameter's
width keeps of a value written to it (00_scope.md R9: each write states its width). -/

namespace Sys2Proof.Machine

/-- The low `w` bits of `x`: what a register of `w` bits keeps of it (00_scope.md R9). -/
def narrow {n : Nat} (w : Nat) (x : BitVec n) : BitVec n := (x.setWidth w).setWidth n

/-- A track operand in `idx`: below `NUM_TRACKS` (R98). -/
def trackOperand (p : Config.Params) (idx : BitVec 8) : Option TrackIx :=
  if h : idx.toNat < p.numTracks then some ⟨idx.toNat, Nat.lt_of_lt_of_le h (Nat.lt_succ_iff.mp p.numTracks.isLt)⟩
  else none

/-- A voice operand in `idx`: below `NUM_VOICES` (R98). -/
def voiceOperand (p : Config.Params) (idx : BitVec 8) : Option Voice :=
  if idx.toNat < p.numVoices then some (idx.setWidth 5) else none

/-- A voice operand in `imm`: below `NUM_VOICES` (R98). -/
def immVoiceOperand (p : Config.Params) (imm : BitVec 16) : Option Voice :=
  if imm.toNat < p.numVoices then some (imm.setWidth 5) else none

/-- An entry operand in `idx`: below `NUM_INSTR` (R98). -/
def entryOperand (p : Config.Params) (idx : BitVec 8) : Option Nat :=
  if idx.toNat < p.numInstr then some idx.toNat else none

/-- An instrument id in `imm`: an entry of the table only below `NUM_INSTR` (44_adsr.md R231). -/
def instrOperand (p : Config.Params) (imm : BitVec 16) : Option Nat :=
  if imm.toNat < p.numInstr then some imm.toNat else none

/-- The bitset a selector names, the register at 0x010 + sel; `none` from 8 on (R98, R99). -/
def selectBitset (s : State) (sel : BitVec 8) : Option Word :=
  match sel.toNat with
  | 0 => some s.activeVoices
  | 1 => some s.keyOnVoices
  | 2 => some s.keyedVoices
  | 3 => some s.keyOffVoices
  | 4 => some s.savedActiveVoices
  | 5 => some s.noiseVoices
  | 6 => some s.reverbVoices
  | 7 => some s.pitchLfoVoices
  | _ => none

/-- `data` of a slide kind as a number: unsigned for kind 0, two's complement for the others (R98). -/
def slideData (k : SlideKind) (data : Word) : Int :=
  match k with
  | .tempo => data.toNat
  | .reverbDepth | .volume | .pan | .pitchBend | .vibratoDepth | .tremoloDepth | .panLfoDepth | .overlayBalance =>
    data.toInt

/-- `num_k(v)`: the `SLIDE_VALUE_WIDTH` bits of a unit's `value` as a number, unsigned for kind 0 (42_slide.md R150). -/
def slideNum (p : Config.Params) (k : SlideKind) (v : Word) : Int :=
  match k with
  | .tempo => v.toNat
  | .reverbDepth | .volume | .pan | .pitchBend | .vibratoDepth | .tremoloDepth | .panLfoDepth | .overlayBalance =>
    (v.setWidth p.slideValueWidth).toInt

/-- `sint(slope)` over the `SLIDE_SLOPE_WIDTH` bits of the register (10_state.md R37, 42_slide.md R150). -/
def slopeNum (p : Config.Params) (slope : Word) : Int := (slope.setWidth p.slideSlopeWidth).toInt

/-- The `value` register's pattern of a number: its low `SLIDE_VALUE_WIDTH` bits, `bits32` at R7's width (42_slide.md
R150). -/
def slideBits (p : Config.Params) (x : Int) : Word := narrow p.slideValueWidth (BitVec.ofInt 32 x)

/-- The sustain level operand scaled into its field: `(imm >> SL_SHIFT) mod 2^SL_W` (44_adsr.md R236). -/
def sustainOperand (p : Config.Params) (imm : BitVec 16) : BitVec 16 :=
  narrow p.slW (BitVec.ofNat 16 (imm.toNat >>> p.slShift))

/-- `VOL_L`, bits 15:0 of a volume pair (10_state.md R47). -/
def volL (pair : Word) : BitVec 16 := pair.extractLsb' 0 16

/-- `VOL_R`, bits 31:16 of a volume pair (10_state.md R47). -/
def volR (pair : Word) : BitVec 16 := pair.extractLsb' 16 16

/-- A volume pair as `VOLUME_LR` keeps it: `VOL_W` bits of each channel (10_state.md R47). -/
def narrowPair (p : Config.Params) (pair : Word) : Word := narrow p.volW (volR pair) ++ narrow p.volW (volL pair)

end Sys2Proof.Machine
end

