-- ==== Sys2Proof/Machine/RegisterMap.lean ====
section
/-! DEFINITION. The register number space of 10_state.md R23: which register a 16-bit number names, and what the index
operand of `REG_READ` selects for it (R24). The values the registers read as stand in Machine/Registers.lean. -/

namespace Sys2Proof.Machine

/-- The registers of R23. `slideValue k`, `slideSlope k` and `slideRemaining k` are the three registers of slide kind `k`
(R38); `instrField f` is the register 0x300+f (R51). -/
inductive Reg where
  | id | status | error | timeCounter | ticksPending | reverbType
  | activeVoices | keyOnVoices | keyedVoices | keyOffVoices | savedActiveVoices
  | noiseVoices | reverbVoices | pitchLfoVoices | featureDirty
  | trackActiveLo | trackActiveHi | wakeLo | wakeHi
  | slideValue (k : SlideKind) | slideSlope (k : SlideKind) | slideRemaining (k : SlideKind)
  | trackCtrl | delta | bind | update | instrId | addr | loopAddr | pitch | volumeLr
  | adsrModes | adsrRates | sustainLevel
  | instrField (f : Nat)
deriving DecidableEq, Repr

/-- What the index operand of `REG_READ` selects for a register (R23, R24). -/
inductive RegIndex where
  | none | track | entry
deriving DecidableEq, Repr

/-- The number of a slide kind (10_state.md R37, 30_encoding.md R99). -/
def slideNumber : SlideKind → Nat
  | .tempo => 0
  | .reverbDepth => 1
  | .volume => 2
  | .pan => 3
  | .pitchBend => 4
  | .vibratoDepth => 5
  | .tremoloDepth => 6
  | .panLfoDepth => 7
  | .overlayBalance => 8

/-- The slide kind of a number; 9 to 15 are reserved (30_encoding.md R95). -/
def slideOfNumber : Nat → Option SlideKind
  | 0 => some .tempo
  | 1 => some .reverbDepth
  | 2 => some .volume
  | 3 => some .pan
  | 4 => some .pitchBend
  | 5 => some .vibratoDepth
  | 6 => some .tremoloDepth
  | 7 => some .panLfoDepth
  | 8 => some .overlayBalance
  | _ => none

/-- The registers 0x100+0x10*k+j of the slide units, by `k` and `j` (R23, R38). -/
def slideReg (k j : Nat) : Option Reg :=
  match slideOfNumber k, j with
  | some kind, 0 => some (.slideValue kind)
  | some kind, 1 => some (.slideSlope kind)
  | some kind, 2 => some (.slideRemaining kind)
  | _, _ => none

/-- The registers below 0x100 and from 0x200 to 0x20B (R23). -/
def plainReg : Nat → Option Reg
  | 0x000 => some .id
  | 0x001 => some .status
  | 0x002 => some .error
  | 0x003 => some .timeCounter
  | 0x004 => some .ticksPending
  | 0x005 => some .reverbType
  | 0x010 => some .activeVoices
  | 0x011 => some .keyOnVoices
  | 0x012 => some .keyedVoices
  | 0x013 => some .keyOffVoices
  | 0x014 => some .savedActiveVoices
  | 0x015 => some .noiseVoices
  | 0x016 => some .reverbVoices
  | 0x017 => some .pitchLfoVoices
  | 0x018 => some .featureDirty
  | 0x020 => some .trackActiveLo
  | 0x021 => some .trackActiveHi
  | 0x022 => some .wakeLo
  | 0x023 => some .wakeHi
  | 0x200 => some .trackCtrl
  | 0x201 => some .delta
  | 0x202 => some .bind
  | 0x203 => some .update
  | 0x204 => some .instrId
  | 0x205 => some .addr
  | 0x206 => some .loopAddr
  | 0x207 => some .pitch
  | 0x208 => some .volumeLr
  | 0x209 => some .adsrModes
  | 0x20A => some .adsrRates
  | 0x20B => some .sustainLevel
  | _ => none

/-- The register a number names, `none` where the number is unmapped (R23, R53). -/
def regOfNumber (n : Nat) : Option Reg :=
  if 0x100 ≤ n ∧ n < 0x200 then slideReg ((n - 0x100) / 0x10) ((n - 0x100) % 0x10)
  else if 0x300 ≤ n ∧ n ≤ 0x30B then some (.instrField (n - 0x300))
  else plainReg n

/-- Kinds 0 and 1 are the player's, the others have one unit per track (R37). -/
def slideIsPerTrack : SlideKind → Bool
  | .tempo | .reverbDepth => false
  | .volume | .pan | .pitchBend | .vibratoDepth | .tremoloDepth | .panLfoDepth | .overlayBalance => true

/-- The index column of R23. -/
def regIndex : Reg → RegIndex
  | .slideValue k | .slideSlope k | .slideRemaining k => if slideIsPerTrack k then .track else .none
  | .trackCtrl | .delta | .bind | .update | .instrId | .addr | .loopAddr | .pitch | .volumeLr
  | .adsrModes | .adsrRates | .sustainLevel => .track
  | .instrField _ => .entry
  | .id | .status | .error | .timeCounter | .ticksPending | .reverbType
  | .activeVoices | .keyOnVoices | .keyedVoices | .keyOffVoices | .savedActiveVoices
  | .noiseVoices | .reverbVoices | .pitchLfoVoices | .featureDirty
  | .trackActiveLo | .trackActiveHi | .wakeLo | .wakeHi => .none

end Sys2Proof.Machine
end

