-- ==== Sys2Proof/Machine/Ops.lean ====
section
/-! DEFINITION. The shared operations over the state: taking a diagnostic (the block's only exception mechanism, with no
control transfer and no return, 60_exceptions.md R280, R285), the Instrument Table (20_memory.md R71), the tracks, the
voice bitsets and the slide primitive (42_slide.md R150 to R155). -/

namespace Sys2Proof.Machine

/-- The outcome of one command or one step. -/
abbrev StepResult := Host.Outcome State Fault Refusal

/-! Diagnostics (00_scope.md R11, 60_exceptions.md R280). -/

/-- Appends events to `OUT`, which refuses none (10_state.md R60, R61). -/
def emit (es : List Event) (s : State) : State := { s with out := s.out ++ es }

/-- `note Diag.d` by a command with op byte `op`: its `ERROR` bit is set, `Diag(d, op)` is emitted, and the command goes
on from the state this answers (R11). -/
def note (d : Diag) (op : BitVec 8) (s : State) : State := emit [.diag d op] { s with error := s.error ||| diagBit d }

/-- `raise Diag.d`: the same record, and the command ends with no other change (R11). -/
def raise (d : Diag) (op : BitVec 8) (s : State) : StepResult := .next (note d op s)

/-! The Instrument Table (20_memory.md R70, R71): its cell address is the 8-bit entry number followed by the 4-bit field
number (R73). -/

/-- The width of field `f` of an entry, by R7's values 32, 32, 16, 2, 2, 2, 7, 4, 7, 5, 4 and 1; 0 for the numbers above
11, which name no field (R71; 00_scope.md R7). -/
def fieldWidth (p : Config.Params) : Nat → Nat
  | 0 => p.addrW
  | 1 => p.addrW
  | 2 => p.pitchW
  | 3 => p.modeW
  | 4 => p.modeW
  | 5 => p.modeW
  | 6 => p.arW
  | 7 => p.drW
  | 8 => p.srW
  | 9 => p.rrW
  | 10 => p.slW
  | 11 => 1
  | _ => 0

/-- The cell address of field `f` of entry `e` (R73). -/
def cellAddr (e f : Nat) : Nat := 16 * e + f

/-- What a cell that is not listed reads as: 0, every field's value after reset (10_state.md R62). -/
def unlisted : Word := 0

/-- The value of the cell at address `a`. -/
def memLookup (m : Memory) (a : Nat) : Word :=
  match m with
  | [] => unlisted
  | (b, v) :: rest => if b = a then v else memLookup rest a

/-- The memory with the cell at address `a` holding `v`, in canonical form: rising addresses, no cell listed at the value
an unlisted one reads as. -/
def memStore (m : Memory) (a : Nat) (v : Word) : Memory :=
  match m with
  | [] => if v = unlisted then [] else [(a, v)]
  | (b, w) :: rest =>
    if a < b then (if v = unlisted then (b, w) :: rest else (a, v) :: (b, w) :: rest)
    else if a = b then (if v = unlisted then rest else (a, v) :: rest)
    else (b, w) :: memStore rest a v

/-- `MemRead(e, f)`: the stored field, zero-extended to 32 bits (00_scope.md R11, 20_memory.md R71). -/
def memRead (m : Memory) (e f : Nat) : Word := memLookup m (cellAddr e f)

/-- `MemWrite(e, f, v)`: stores `v mod 2^width(f)` (00_scope.md R11, 20_memory.md R71). -/
def memWrite (p : Config.Params) (m : Memory) (e f : Nat) (v : Word) : Memory :=
  memStore m (cellAddr e f) (narrow (fieldWidth p f) v)

/-- One listed cell is a field of an entry of the table, holds a value of the field's width, and not the value an
unlisted cell reads as. -/
def cellOk (p : Config.Params) (c : Nat × Word) : Bool :=
  decide (c.1 < cellAddr p.numInstr 0) && decide (c.2.toNat < 2 ^ fieldWidth p (c.1 % 16)) && decide (c.2 ≠ unlisted)

/-- The canonical form of the Instrument Table: addresses strictly rising, every listed cell `cellOk`. -/
def Memory.wf (p : Config.Params) (m : Memory) : Bool :=
  match m with
  | [] => true
  | [c] => cellOk p c
  | c :: d :: rest => cellOk p c && decide (c.1 < d.1) && Memory.wf p (d :: rest)

/-! Tracks. -/

/-- Applies `f` to the tracks below `n`, in ascending order (no track's new value depends on another's). -/
def mapTracks (n : Nat) (f : Track → Track) (ts : Vector Track Config.maxTracks) : Vector Track Config.maxTracks :=
  ⟨((ts.toList.take n).map f ++ ts.toList.drop n).toArray, by simp; omega⟩

/-- Applies `f` to track `t` and to no other. -/
def modifyTrack (t : TrackIx) (f : Track → Track) (s : State) : State :=
  { s with tracks := s.tracks.set t (f s.tracks[t]) }

/-- A command on the track that `idx` names: raises INDEX_RANGE where it names none (60_exceptions.md R281). -/
def withTrack (op idx : BitVec 8) (s : State) (act : TrackIx → StepResult) : StepResult :=
  match trackOperand s.params idx with
  | none => raise .indexRange op s
  | some t => act t

/-- A command that changes only the track that `idx` names. -/
def onTrack (op idx : BitVec 8) (f : Track → Track) (s : State) : StepResult :=
  withTrack op idx s fun t => .next (modifyTrack t f s)

/-! Voice bitsets (10_state.md R31, R34). -/

/-- `B[v]` (00_scope.md R9). -/
def hasVoice (b : Word) (v : Voice) : Bool := b.getLsbD v.toNat

/-- The bit of voice `v` in a bitset of `BITSET_WIDTH` = `w` bits: none where the bitset has no such bit (R7). -/
def voiceBit (w : Nat) (v : Voice) : Word := if v.toNat < w then BitVec.twoPow 32 v.toNat else 0

/-- `B[v] <- 1`, in a bitset of `w` bits. -/
def setVoice (w : Nat) (b : Word) (v : Voice) : Word := b ||| voiceBit w v

/-- `B[v] <- 0`. -/
def clearVoice (b : Word) (v : Voice) : Word := b &&& ~~~(BitVec.twoPow 32 v.toNat)

/-- The voices of a bitset from 0 to `NUM_VOICES`-1, `n` being `NUM_VOICES`, ascending. -/
def voicesOf (n : Nat) (b : Word) : List Voice := ((List.range n).map (BitVec.ofNat 5)).filter (hasVoice b)

/-- A command on the voice that `idx` names: raises INDEX_RANGE where it names none (60_exceptions.md R281). -/
def withVoice (op idx : BitVec 8) (s : State) (act : Voice → StepResult) : StepResult :=
  match voiceOperand s.params idx with
  | none => raise .indexRange op s
  | some v => act v

/-- `release(v)` (43_voice.md R190): a keyed voice becomes key-off-pending; for any other voice a pending key-on is
cancelled and the voice is idle. -/
def release (v : Voice) (s : State) : State :=
  if hasVoice s.keyedVoices v then
    { s with keyOffVoices := setVoice s.params.bitsetWidth s.keyOffVoices v, keyOnVoices := clearVoice s.keyOnVoices v }
  else
    { s with keyOnVoices := clearVoice s.keyOnVoices v, activeVoices := clearVoice s.activeVoices v }

/-! The slide primitive (42_slide.md). -/

/-- `SLIDE_LO[k]` and `SLIDE_HI[k]` (00_scope.md R7). -/
def slideRange (p : Config.Params) (k : SlideKind) : Config.SlideRange :=
  match k with
  | .tempo => p.slideRanges[0]
  | .reverbDepth => p.slideRanges[1]
  | .volume => p.slideRanges[2]
  | .pan => p.slideRanges[3]
  | .pitchBend => p.slideRanges[4]
  | .vibratoDepth => p.slideRanges[5]
  | .tremoloDepth => p.slideRanges[6]
  | .panLfoDepth => p.slideRanges[7]
  | .overlayBalance => p.slideRanges[8]

/-- `clamp(x, lo, hi)` (00_scope.md R9). -/
def clampTo (r : Config.SlideRange) (x : Int) : Int := if x < r.lo then r.lo else if r.hi < x then r.hi else x

/-- `slide_step(k, s)` (R150). -/
def slideStep (p : Config.Params) (k : SlideKind) (u : Slide) : Slide :=
  if u.remaining = 0 then u
  else { u with
    value := slideBits p (clampTo (slideRange p k) (slideNum p k u.value + slopeNum p u.slope))
    remaining := u.remaining - 1 }

/-- What SLIDE_VALUE.k does to its unit (R154): the value clamped into the kind's range, the slide stopped. -/
def slideSetValue (p : Config.Params) (k : SlideKind) (data : Word) (u : Slide) : Slide :=
  { u with value := slideBits p (clampTo (slideRange p k) (slideData k data)), remaining := 0 }

/-- What SLIDE_START.k does to its unit (R155): slope and length set, the value kept. -/
def slideSetSlope (p : Config.Params) (length : BitVec 16) (slope : Word) (u : Slide) : Slide :=
  { u with slope := narrow p.slideSlopeWidth slope, remaining := narrow p.slideLenWidth length }

/-- `S[k]` for the player's kinds, `S[k][t]` for the others (00_scope.md R10). -/
def slideUnit (k : SlideKind) (t : TrackIx) (s : State) : Slide :=
  match k with
  | .tempo => s.tempo
  | .reverbDepth => s.reverbDepth
  | .volume => s.tracks[t].volume
  | .pan => s.tracks[t].pan
  | .pitchBend => s.tracks[t].pitchBend
  | .vibratoDepth => s.tracks[t].vibratoDepth
  | .tremoloDepth => s.tracks[t].tremoloDepth
  | .panLfoDepth => s.tracks[t].panLfoDepth
  | .overlayBalance => s.tracks[t].overlayBalance

/-- Applies `f` to the slide unit `S[k]` or `S[k][t]` and to nothing else (R174). -/
def modifySlide (k : SlideKind) (t : TrackIx) (f : Slide → Slide) (s : State) : State :=
  match k with
  | .tempo => { s with tempo := f s.tempo }
  | .reverbDepth => { s with reverbDepth := f s.reverbDepth }
  | .volume => modifyTrack t (fun tr => { tr with volume := f tr.volume }) s
  | .pan => modifyTrack t (fun tr => { tr with pan := f tr.pan }) s
  | .pitchBend => modifyTrack t (fun tr => { tr with pitchBend := f tr.pitchBend }) s
  | .vibratoDepth => modifyTrack t (fun tr => { tr with vibratoDepth := f tr.vibratoDepth }) s
  | .tremoloDepth => modifyTrack t (fun tr => { tr with tremoloDepth := f tr.tremoloDepth }) s
  | .panLfoDepth => modifyTrack t (fun tr => { tr with panLfoDepth := f tr.panLfoDepth }) s
  | .overlayBalance => modifyTrack t (fun tr => { tr with overlayBalance := f tr.overlayBalance }) s

/-- One step of the seven slides of a track, kinds 2 to 8 (41_timing.md R122). -/
def stepTrackSlides (p : Config.Params) (tr : Track) : Track :=
  { tr with
    volume := slideStep p .volume tr.volume
    pan := slideStep p .pan tr.pan
    pitchBend := slideStep p .pitchBend tr.pitchBend
    vibratoDepth := slideStep p .vibratoDepth tr.vibratoDepth
    tremoloDepth := slideStep p .tremoloDepth tr.tremoloDepth
    panLfoDepth := slideStep p .panLfoDepth tr.panLfoDepth
    overlayBalance := slideStep p .overlayBalance tr.overlayBalance }

/-- `remaining <- 0`: the slide stops, its value and slope kept (41_timing.md R125). -/
def slideStop (u : Slide) : Slide := { u with remaining := 0 }

end Sys2Proof.Machine
end

