-- ==== Sys2Proof/Machine/Shadow.lean ====
section
/-! DEFINITION. The Instrument Table, ADSR and voice-shadow commands (44_adsr.md): INSTR_WRITE, LOAD_INSTR, the eight
ADSR operand commands and the four shadow writes. The block generates no envelope (R245). -/

namespace Sys2Proof.Machine

/-- INSTR_WRITE (R230): the field number is checked before the entry (60_exceptions.md R283). -/
def execInstrWrite (entry : BitVec 8) (field : BitVec 16) (value : Word) (s : State) : StepResult :=
  if 11 < field.toNat then raise .badReg (opcodeOf (.instrWrite entry field value)) s
  else
    match entryOperand s.params entry with
    | none => raise .indexRange (opcodeOf (.instrWrite entry field value)) s
    | some e => .next { s with instrTable := memWrite s.params s.instrTable e field.toNat value }

/-- `IT[e].VALID` (20_memory.md R71, R72). -/
def entryValid (m : Memory) (e : Nat) : Bool := decide (memRead m e 11 ≠ 0)

/-- The ADSR fields of entry `e` (20_memory.md R71). -/
def entryAdsr (m : Memory) (e : Nat) : Adsr where
  attackMode   := (memRead m e 3).setWidth 2
  decayMode    := (memRead m e 4).setWidth 2
  releaseMode  := (memRead m e 5).setWidth 2
  attackRate   := (memRead m e 6).setWidth 8
  decayRate    := (memRead m e 7).setWidth 8
  sustainRate  := (memRead m e 8).setWidth 8
  releaseRate  := (memRead m e 9).setWidth 8
  sustainLevel := (memRead m e 10).setWidth 16

/-- A track's shadow loaded from entry `e`: the eleven data fields, the id, and the four groups marked; the volume is
not touched (R231). -/
def loadEntry (p : Config.Params) (m : Memory) (e : Nat) (id : BitVec 16) (tr : Track) : Track :=
  { tr with
    addr := memRead m e 0
    loopAddr := memRead m e 1
    pitch := (memRead m e 2).setWidth 16
    adsr := entryAdsr m e
    instrId := narrow p.instrIdW id
    update := tr.update ||| updInstr }

/-- LOAD_INSTR (R231). -/
def execLoadInstr (track : BitVec 8) (instrument : BitVec 16) (s : State) : StepResult :=
  withTrack (opcodeOf (.loadInstr track instrument)) track s fun t =>
    match instrOperand s.params instrument with
    | none => raise .instrInvalid (opcodeOf (.loadInstr track instrument)) s
    | some e =>
      if entryValid s.instrTable e then .next (modifyTrack t (loadEntry s.params s.instrTable e instrument) s)
      else raise .instrInvalid (opcodeOf (.loadInstr track instrument)) s

/-- The shape of the eight ADSR operand commands: one ADSR field of the track written, the ADSR group marked. -/
def onAdsr (op idx : BitVec 8) (f : Adsr → Adsr) (s : State) : StepResult :=
  onTrack op idx (fun tr => { tr with adsr := f tr.adsr, update := tr.update ||| updAdsr }) s

/-- SET_ATTACK_RATE (R232). -/
def execSetAttackRate (track : BitVec 8) (rate : BitVec 16) (s : State) : StepResult :=
  onAdsr (opcodeOf (.setAttackRate track rate)) track
    (fun a => { a with attackRate := narrow s.params.arW (rate.setWidth 8) }) s

/-- SET_DECAY_RATE (R233). -/
def execSetDecayRate (track : BitVec 8) (rate : BitVec 16) (s : State) : StepResult :=
  onAdsr (opcodeOf (.setDecayRate track rate)) track
    (fun a => { a with decayRate := narrow s.params.drW (rate.setWidth 8) }) s

/-- SET_SUSTAIN_RATE (R234). -/
def execSetSustainRate (track : BitVec 8) (rate : BitVec 16) (s : State) : StepResult :=
  onAdsr (opcodeOf (.setSustainRate track rate)) track
    (fun a => { a with sustainRate := narrow s.params.srW (rate.setWidth 8) }) s

/-- SET_RELEASE_RATE (R235). -/
def execSetReleaseRate (track : BitVec 8) (rate : BitVec 16) (s : State) : StepResult :=
  onAdsr (opcodeOf (.setReleaseRate track rate)) track
    (fun a => { a with releaseRate := narrow s.params.rrW (rate.setWidth 8) }) s

/-- SET_SUSTAIN_LEVEL (R236). -/
def execSetSustainLevel (track : BitVec 8) (level : BitVec 16) (s : State) : StepResult :=
  onAdsr (opcodeOf (.setSustainLevel track level)) track
    (fun a => { a with sustainLevel := sustainOperand s.params level }) s

/-- SET_ATTACK_MODE (R237). -/
def execSetAttackMode (track : BitVec 8) (mode : BitVec 16) (s : State) : StepResult :=
  onAdsr (opcodeOf (.setAttackMode track mode)) track
    (fun a => { a with attackMode := narrow s.params.modeW (mode.setWidth 2) }) s

/-- SET_DECAY_MODE (R238). -/
def execSetDecayMode (track : BitVec 8) (mode : BitVec 16) (s : State) : StepResult :=
  onAdsr (opcodeOf (.setDecayMode track mode)) track
    (fun a => { a with decayMode := narrow s.params.modeW (mode.setWidth 2) }) s

/-- SET_RELEASE_MODE (R239). -/
def execSetReleaseMode (track : BitVec 8) (mode : BitVec 16) (s : State) : StepResult :=
  onAdsr (opcodeOf (.setReleaseMode track mode)) track
    (fun a => { a with releaseMode := narrow s.params.modeW (mode.setWidth 2) }) s

/-- SET_PITCH (R240). -/
def execSetPitch (track : BitVec 8) (pitch : BitVec 16) (s : State) : StepResult :=
  onTrack (opcodeOf (.setPitch track pitch)) track
    (fun tr => { tr with pitch := narrow s.params.pitchW pitch, update := tr.update ||| updPitch }) s

/-- SET_VOLUME (R241). -/
def execSetVolume (track : BitVec 8) (pair : Word) (s : State) : StepResult :=
  onTrack (opcodeOf (.setVolume track pair)) track
    (fun tr => { tr with volumeLr := narrowPair s.params pair, update := tr.update ||| updVolume }) s

/-- SET_ADDR (R242). -/
def execSetAddr (track : BitVec 8) (handle : Word) (s : State) : StepResult :=
  onTrack (opcodeOf (.setAddr track handle)) track
    (fun tr => { tr with addr := narrow s.params.addrW handle, update := tr.update ||| updAddr }) s

/-- SET_LOOP_ADDR (R243). -/
def execSetLoopAddr (track : BitVec 8) (handle : Word) (s : State) : StepResult :=
  onTrack (opcodeOf (.setLoopAddr track handle)) track
    (fun tr => { tr with loopAddr := narrow s.params.addrW handle, update := tr.update ||| updLoop }) s

end Sys2Proof.Machine
end

