-- ==== Sys2Proof/Machine/Slides.lean ====
section
/-! DEFINITION. The slide commands (42_slide.md): SLIDE_VALUE.k and SLIDE_START.k for the nine kinds, each one line over
the generic semantics of R154 or R155. -/

namespace Sys2Proof.Machine

/-- A slide command on `S[k]` for a player's kind, where `idx` is ignored, and on `S[k][t]` for a per-track kind, where
an `idx` out of range raises INDEX_RANGE (R154, R155, 30_encoding.md R96). -/
def onSlide (k : SlideKind) (op idx : BitVec 8) (f : Slide → Slide) (s : State) : StepResult :=
  if slideIsPerTrack k then withTrack op idx s fun t => .next (modifySlide k t f s)
  else .next (modifySlide k 0 f s)

/-- SLIDE_VALUE.k (R154). -/
def slideValueCmd (k : SlideKind) (op idx : BitVec 8) (value : Word) (s : State) : StepResult :=
  onSlide k op idx (slideSetValue s.params k value) s

/-- SLIDE_START.k (R155). -/
def slideStartCmd (k : SlideKind) (op idx : BitVec 8) (length : BitVec 16) (slope : Word) (s : State) : StepResult :=
  onSlide k op idx (slideSetSlope s.params length slope) s

/-- SLIDE_VALUE.TEMPO (R156). -/
def execSlideValueTempo (value : Word) (s : State) : StepResult :=
  slideValueCmd .tempo (opcodeOf (.slideValueTempo value)) 0 value s

/-- SLIDE_VALUE.REVERB_DEPTH (R157). -/
def execSlideValueReverbDepth (value : Word) (s : State) : StepResult :=
  slideValueCmd .reverbDepth (opcodeOf (.slideValueReverbDepth value)) 0 value s

/-- SLIDE_VALUE.VOLUME (R158). -/
def execSlideValueVolume (track : BitVec 8) (value : Word) (s : State) : StepResult :=
  slideValueCmd .volume (opcodeOf (.slideValueVolume track value)) track value s

/-- SLIDE_VALUE.PAN (R159). -/
def execSlideValuePan (track : BitVec 8) (value : Word) (s : State) : StepResult :=
  slideValueCmd .pan (opcodeOf (.slideValuePan track value)) track value s

/-- SLIDE_VALUE.PITCH_BEND (R160). -/
def execSlideValuePitchBend (track : BitVec 8) (value : Word) (s : State) : StepResult :=
  slideValueCmd .pitchBend (opcodeOf (.slideValuePitchBend track value)) track value s

/-- SLIDE_VALUE.VIBRATO_DEPTH (R161). -/
def execSlideValueVibratoDepth (track : BitVec 8) (value : Word) (s : State) : StepResult :=
  slideValueCmd .vibratoDepth (opcodeOf (.slideValueVibratoDepth track value)) track value s

/-- SLIDE_VALUE.TREMOLO_DEPTH (R162). -/
def execSlideValueTremoloDepth (track : BitVec 8) (value : Word) (s : State) : StepResult :=
  slideValueCmd .tremoloDepth (opcodeOf (.slideValueTremoloDepth track value)) track value s

/-- SLIDE_VALUE.PAN_LFO_DEPTH (R163). -/
def execSlideValuePanLfoDepth (track : BitVec 8) (value : Word) (s : State) : StepResult :=
  slideValueCmd .panLfoDepth (opcodeOf (.slideValuePanLfoDepth track value)) track value s

/-- SLIDE_VALUE.OVERLAY_BALANCE (R164). -/
def execSlideValueOverlayBalance (track : BitVec 8) (value : Word) (s : State) : StepResult :=
  slideValueCmd .overlayBalance (opcodeOf (.slideValueOverlayBalance track value)) track value s

/-- SLIDE_START.TEMPO (R165). -/
def execSlideStartTempo (length : BitVec 16) (slope : Word) (s : State) : StepResult :=
  slideStartCmd .tempo (opcodeOf (.slideStartTempo length slope)) 0 length slope s

/-- SLIDE_START.REVERB_DEPTH (R166). -/
def execSlideStartReverbDepth (length : BitVec 16) (slope : Word) (s : State) : StepResult :=
  slideStartCmd .reverbDepth (opcodeOf (.slideStartReverbDepth length slope)) 0 length slope s

/-- SLIDE_START.VOLUME (R167). -/
def execSlideStartVolume (track : BitVec 8) (length : BitVec 16) (slope : Word) (s : State) : StepResult :=
  slideStartCmd .volume (opcodeOf (.slideStartVolume track length slope)) track length slope s

/-- SLIDE_START.PAN (R168). -/
def execSlideStartPan (track : BitVec 8) (length : BitVec 16) (slope : Word) (s : State) : StepResult :=
  slideStartCmd .pan (opcodeOf (.slideStartPan track length slope)) track length slope s

/-- SLIDE_START.PITCH_BEND (R169). -/
def execSlideStartPitchBend (track : BitVec 8) (length : BitVec 16) (slope : Word) (s : State) : StepResult :=
  slideStartCmd .pitchBend (opcodeOf (.slideStartPitchBend track length slope)) track length slope s

/-- SLIDE_START.VIBRATO_DEPTH (R170). -/
def execSlideStartVibratoDepth (track : BitVec 8) (length : BitVec 16) (slope : Word) (s : State) : StepResult :=
  slideStartCmd .vibratoDepth (opcodeOf (.slideStartVibratoDepth track length slope)) track length slope s

/-- SLIDE_START.TREMOLO_DEPTH (R171). -/
def execSlideStartTremoloDepth (track : BitVec 8) (length : BitVec 16) (slope : Word) (s : State) : StepResult :=
  slideStartCmd .tremoloDepth (opcodeOf (.slideStartTremoloDepth track length slope)) track length slope s

/-- SLIDE_START.PAN_LFO_DEPTH (R172). -/
def execSlideStartPanLfoDepth (track : BitVec 8) (length : BitVec 16) (slope : Word) (s : State) : StepResult :=
  slideStartCmd .panLfoDepth (opcodeOf (.slideStartPanLfoDepth track length slope)) track length slope s

/-- SLIDE_START.OVERLAY_BALANCE (R173). -/
def execSlideStartOverlayBalance (track : BitVec 8) (length : BitVec 16) (slope : Word) (s : State) : StepResult :=
  slideStartCmd .overlayBalance (opcodeOf (.slideStartOverlayBalance track length slope)) track length slope s

end Sys2Proof.Machine
end

