-- ==== Sys2Proof/Machine/Registers.lean ====
section
/-! DEFINITION. The value each register of 10_state.md R23 reads as: a 32-bit word whose bits above the register's width
read 0. Packed registers place their fields as R25, R39, R41, R47 to R49 say. -/

namespace Sys2Proof.Machine

/-- `ID`: revision, `FRAC_BITS`, `NUM_TRACKS`, `NUM_VOICES` (R25). -/
def idWord (p : Config.Params) : Word :=
  BitVec.ofNat 8 Config.specRevision ++ (BitVec.ofNat 8 p.fracBits ++
    (BitVec.ofNat 8 p.numTracks ++ BitVec.ofNat 8 p.numVoices))

/-- The word whose bit `i` is item `i` of the list, 0 past its end (R36). -/
def packBits : List Bool → Word
  | [] => 0
  | b :: bs => (packBits bs <<< 1) ||| (BitVec.ofBool b).setWidth 32

/-- `TRACK_ACTIVE_LO` and `WAKE_LO` are this view of tracks 0 to 31 (R36). -/
def trackBitsLo (f : Track → Bool) (s : State) : Word := packBits (((liveTracks s).take 32).map f)

/-- `TRACK_ACTIVE_HI` and `WAKE_HI` are this view of the tracks from 32 on (R36). -/
def trackBitsHi (f : Track → Bool) (s : State) : Word := packBits (((liveTracks s).drop 32).map f)

/-- `TRACK_CTRL`: `T_ACTIVE` in bit 0, `WAKE` in bit 1 (R39). -/
def trackCtrlWord (tr : Track) : Word := (BitVec.ofBool tr.wake ++ BitVec.ofBool tr.active).setWidth 32

/-- `BIND[7:0]`: the primary voice in bits 4:0 and its bound bit in bit 7; 0 when unbound (R41). -/
def primaryByte : Option Voice → BitVec 8
  | none => 0
  | some v => 0b100#3 ++ v

/-- `SECONDARY_KIND` as `BIND[14]` carries it: 0 overlay, 1 alternate (R41). -/
def kindBit : SecondaryKind → BitVec 1
  | .overlay => 0
  | .alternate => 1

/-- `BIND[15:8]`: bound, kind, a 0 bit, the secondary voice; 0 when unbound (R41). -/
def secondaryByte : Option Secondary → BitVec 8
  | none => 0
  | some b => 1#1 ++ (kindBit b.kind ++ (0#1 ++ b.voice))

/-- `BIND` (R41). -/
def bindWord (tr : Track) : Word := (secondaryByte tr.secondary ++ primaryByte tr.primary).setWidth 32

/-- `ADSR_MODES`: attack in 1:0, decay in 3:2, release in 5:4 (R48). -/
def adsrModesWord (a : Adsr) : Word := (a.releaseMode ++ (a.decayMode ++ a.attackMode)).setWidth 32

/-- `ADSR_RATES`: the rates start at bits 0, 8, 16 and 24; with R7's widths attack is in 6:0, decay in 11:8, sustain in
22:16 and release in 28:24 (R49). -/
def adsrRatesWord (a : Adsr) : Word := a.releaseRate ++ (a.sustainRate ++ (a.decayRate ++ a.attackRate))

/-- The value of register `r` at track `t` or entry `e`, whichever `regIndex r` says it is indexed by, zero-extended to
32 bits (R22, R23). -/
def readReg (r : Reg) (t : TrackIx) (e : Nat) (s : State) : Word :=
  match r with
  | .id => idWord s.params
  | .status => (status s).setWidth 32
  | .error => s.error.setWidth 32
  | .timeCounter => s.timeCounter
  | .ticksPending => s.ticksPending
  | .reverbType => s.reverbType
  | .activeVoices => s.activeVoices
  | .keyOnVoices => s.keyOnVoices
  | .keyedVoices => s.keyedVoices
  | .keyOffVoices => s.keyOffVoices
  | .savedActiveVoices => s.savedActiveVoices
  | .noiseVoices => s.noiseVoices
  | .reverbVoices => s.reverbVoices
  | .pitchLfoVoices => s.pitchLfoVoices
  | .featureDirty => s.featureDirty.setWidth 32
  | .trackActiveLo => trackBitsLo Track.active s
  | .trackActiveHi => trackBitsHi Track.active s
  | .wakeLo => trackBitsLo Track.wake s
  | .wakeHi => trackBitsHi Track.wake s
  | .slideValue k => (slideUnit k t s).value
  | .slideSlope k => (slideUnit k t s).slope
  | .slideRemaining k => (slideUnit k t s).remaining.setWidth 32
  | .trackCtrl => trackCtrlWord s.tracks[t]
  | .delta => s.tracks[t].delta.setWidth 32
  | .bind => bindWord s.tracks[t]
  | .update => s.tracks[t].update.setWidth 32
  | .instrId => s.tracks[t].instrId.setWidth 32
  | .addr => s.tracks[t].addr
  | .loopAddr => s.tracks[t].loopAddr
  | .pitch => s.tracks[t].pitch.setWidth 32
  | .volumeLr => s.tracks[t].volumeLr
  | .adsrModes => adsrModesWord s.tracks[t].adsr
  | .adsrRates => adsrRatesWord s.tracks[t].adsr
  | .sustainLevel => s.tracks[t].adsr.sustainLevel.setWidth 32
  | .instrField f => memRead s.instrTable e f

end Sys2Proof.Machine
end

