-- ==== Sys2Proof/Machine/SystemCommands.lean ====
section
/-! DEFINITION. The system commands (45_system.md): NOP, REG_READ, STATUS_CLEAR, SONG_INIT. -/

namespace Sys2Proof.Machine

/-- NOP (R260). -/
def execNop (s : State) : StepResult := .next s

/-- `RESULT <- v` (10_state.md R52). -/
def latch (v : Word) (s : State) : State := { s with result := v }

/-- REG_READ (R261): the register number is checked before the index (60_exceptions.md R283); on a raise `RESULT` is 0. -/
def execRegRead (index : BitVec 8) (register : BitVec 16) (s : State) : StepResult :=
  match regOfNumber register.toNat with
  | none => raise .badReg (opcodeOf (.regRead index register)) (latch 0 s)
  | some r =>
    match regIndex r with
    | .none => .next (latch (readReg r 0 0 s) s)
    | .track => withTrack (opcodeOf (.regRead index register)) index (latch 0 s) fun t => .next (latch (readReg r t 0 s) s)
    | .entry =>
      match entryOperand s.params index with
      | none => raise .indexRange (opcodeOf (.regRead index register)) (latch 0 s)
      | some e => .next (latch (readReg r 0 e s) s)

/-- STATUS_CLEAR (R262). -/
def execStatusClear (mask : Word) (s : State) : StepResult := .next { s with error := clearError s.error mask }

/-- Every state element at its value after SONG_INIT (10_state.md R62): the reset values, but for `ERROR`, `RESULT`, the
Instrument Table and `OUT`, which are kept, as are the parameters and what stands on the ports. -/
def reinitialise (s : State) : State :=
  { State.reset with
    params := s.params
    error := s.error
    result := s.result
    instrTable := s.instrTable
    out := s.out
    link := s.link
    input := s.input }

/-- SONG_INIT (R263): a KeyOff for every keyed voice, ascending, then the re-initialisation. -/
def execSongInit (s : State) : StepResult :=
  .next (reinitialise (emit ((voicesOf s.params.numVoices s.keyedVoices).map Event.keyOff) s))

end Sys2Proof.Machine
end

