-- ==== Sys2Proof/Machine/Timing.lean ====
section
/-! DEFINITION. The tick/timing engine commands (41_timing.md): BLOCK, TICK, SET_DELTA, TRACK_START, TRACK_FINISH,
DEVICE_FAULT, TIME_SET, REVERB_TYPE_SET. -/

namespace Sys2Proof.Machine

/-- `crossings(tc, tempo)` with `FRAC_BITS` = `f`: the multiples of 2^`f` the sum passes (R120). -/
def crossings (f tc tempo : Nat) : Nat := (tc % 2 ^ f + tempo) >>> f

/-- Adds `n` ticks to `TICKS_PENDING`, saturating at 2^`TP_WIDTH`-1, R7's 2^32-1, with a TICKS_SAT note (R121). -/
def addTicks (op : BitVec 8) (n : Nat) (s : State) : State :=
  if 2 ^ s.params.tpWidth.val - 1 < s.ticksPending.toNat + n then
    note .ticksSat op { s with ticksPending := BitVec.ofNat 32 (2 ^ s.params.tpWidth.val - 1) }
  else { s with ticksPending := BitVec.ofNat 32 (s.ticksPending.toNat + n) }

/-- The time counter after a BLOCK: the tempo added modulo 2^`TC_WIDTH` (R121, 10_state.md R28). -/
def advanceTime (s : State) : State :=
  { s with timeCounter := narrow s.params.tcWidth (s.timeCounter + s.tempo.value) }

/-- The step of the tempo slide (R121, 42_slide.md R151). -/
def stepTempo (s : State) : State := { s with tempo := slideStep s.params .tempo s.tempo }

/-- BLOCK (R121): the counter advances, the crossed ticks become pending, then the tempo slide steps. -/
def execBlock (s : State) : StepResult :=
  .next (stepTempo (addTicks (opcodeOf .block)
    (crossings s.params.fracBits s.timeCounter.toNat s.tempo.value.toNat) (advanceTime s)))

/-- The delta-time counter of an active track over one tick: a non-zero count goes down by one, and on reaching zero
the track wakes (R122). -/
def countDown (tr : Track) : Track :=
  if tr.delta = 0 then tr
  else { tr with delta := tr.delta - 1, wake := tr.wake || decide (tr.delta - 1 = 0) }

/-- One tick of one track: its counter and its slides if it is active, nothing if it is not (R122). -/
def tickTrack (p : Config.Params) (tr : Track) : Track :=
  if tr.active then stepTrackSlides p (countDown tr) else tr

/-- TICK (R122). -/
def execTick (s : State) : StepResult :=
  if s.ticksPending = 0 then raise .noTick (opcodeOf .tick) s
  else .next { s with
    ticksPending := s.ticksPending - 1
    tracks := mapTracks s.params.numTracks (tickTrack s.params) s.tracks
    reverbDepth := slideStep s.params .reverbDepth s.reverbDepth }

/-- SET_DELTA (R123). -/
def execSetDelta (track : BitVec 8) (count : BitVec 16) (s : State) : StepResult :=
  onTrack (opcodeOf (.setDelta track count)) track
    (fun tr => { tr with delta := narrow s.params.deltaWidth count, wake := decide (count = 0) }) s

/-- TRACK_START (R124). -/
def execTrackStart (track : BitVec 8) (s : State) : StepResult :=
  onTrack (opcodeOf (.trackStart track)) track (fun tr => { tr with active := true, delta := 0, wake := true }) s

/-- What `finish(t)` leaves of the track itself: unbound, idle, its slides stopped, no group dirty; the shadow and the
slides' values and slopes are kept (R125). -/
def finishedTrack (tr : Track) : Track :=
  { tr with
    primary := none
    secondary := none
    active := false
    wake := false
    delta := 0
    volume := slideStop tr.volume
    pan := slideStop tr.pan
    pitchBend := slideStop tr.pitchBend
    vibratoDepth := slideStop tr.vibratoDepth
    tremoloDepth := slideStop tr.tremoloDepth
    panLfoDepth := slideStop tr.panLfoDepth
    overlayBalance := slideStop tr.overlayBalance
    update := 0 }

/-- Releases a voice where there is one (R125). -/
def releaseBound (v : Option Voice) (s : State) : State :=
  match v with
  | none => s
  | some v => release v s

/-- `finish(t)` (R125): the primary is released, then the secondary, and the track returns to idle. -/
def finish (t : TrackIx) (s : State) : State :=
  modifyTrack t finishedTrack
    (releaseBound (s.tracks[t].secondary.map Secondary.voice) (releaseBound s.tracks[t].primary s))

/-- TRACK_FINISH (R126). -/
def execTrackFinish (track : BitVec 8) (s : State) : StepResult :=
  withTrack (opcodeOf (.trackFinish track)) track s fun t => .next (finish t s)

/-- DEVICE_FAULT (R127): the note, then `finish`. -/
def execDeviceFault (track : BitVec 8) (s : State) : StepResult :=
  withTrack (opcodeOf (.deviceFault track)) track s fun t =>
    .next (finish t (note .deviceFault (opcodeOf (.deviceFault track)) s))

/-- TIME_SET (R128). -/
def execTimeSet (value : Word) (s : State) : StepResult :=
  .next { s with timeCounter := narrow s.params.tcWidth value }

/-- REVERB_TYPE_SET (R129). -/
def execReverbTypeSet (value : Word) (s : State) : StepResult := .next { s with reverbType := value }

end Sys2Proof.Machine
end

