-- ==== Sys2Proof/Machine/Voices.lean ====
section
/-! DEFINITION. The voice register emulator commands (43_voice.md): key requests, RESOLVE, SAVE_ACTIVE, the six feature
commands, VOICES_QUERY and the binding commands. -/

namespace Sys2Proof.Machine

/-- A key-on request: `ACTIVE` and `KEY_ON` set, `KEY_OFF` cleared (R191). -/
def requestKeyOn (v : Voice) (s : State) : State :=
  { s with
    activeVoices := setVoice s.params.bitsetWidth s.activeVoices v
    keyOnVoices := setVoice s.params.bitsetWidth s.keyOnVoices v
    keyOffVoices := clearVoice s.keyOffVoices v }

/-- KEY_ON (R191). -/
def execKeyOn (voice : BitVec 8) (s : State) : StepResult :=
  withVoice (opcodeOf (.keyOn voice)) voice s fun v =>
    if hasVoice s.keyedVoices v && !hasVoice s.keyOffVoices v then
      .next (requestKeyOn v (note .keyonKeyed (opcodeOf (.keyOn voice)) s))
    else .next (requestKeyOn v s)

/-- KEY_OFF (R192). -/
def execKeyOff (voice : BitVec 8) (s : State) : StepResult :=
  withVoice (opcodeOf (.keyOff voice)) voice s fun v =>
    if !hasVoice s.keyedVoices v && !hasVoice s.keyOnVoices v then
      .next (release v (note .keyoffNotKeyed (opcodeOf (.keyOff voice)) s))
    else .next (release v s)

/-- `groups(t, v, u, role)` with `u = T[t].UPDATE`: the events of the dirty groups, address, loop address, ADSR, pitch,
volume; `vol` is the volume pair of the role (R194). -/
def groupEvents (tr : Track) (v : Voice) (vol : BitVec 16 × BitVec 16) : List Event :=
  (if tr.update.getLsbD 0 then [.setAddr v tr.addr] else []) ++
  (if tr.update.getLsbD 1 then [.setLoopAddr v tr.loopAddr] else []) ++
  (if tr.update.getLsbD 2 then [.setAdsr v tr.adsr] else []) ++
  (if tr.update.getLsbD 3 then [.setPitch v tr.pitch] else []) ++
  (if tr.update.getLsbD 4 then [.setVolume v vol.1 vol.2] else [])

/-- The primary's volume pair is the shadow's (R194). -/
def primaryVolume (tr : Track) : BitVec 16 × BitVec 16 := (volL tr.volumeLr, volR tr.volumeLr)

/-- The secondary's volume pair is `OVERLAY_VOLUME` of its kind, the shadow's pair and `S[8][t].value`, each channel of
`VOL_W` bits (R194). -/
def secondaryVolume (p : Config.Params) (tr : Track) (kind : SecondaryKind) : BitVec 16 × BitVec 16 :=
  let vol := Config.overlayVolume kind (volL tr.volumeLr) (volR tr.volumeLr) tr.overlayBalance.value
  (narrow p.volW vol.1, narrow p.volW vol.2)

/-- The events of `emit_track(t)`: the primary's groups, then the secondary's (R194). -/
def trackEvents (p : Config.Params) (tr : Track) : List Event :=
  (match tr.primary with
    | none => []
    | some v => groupEvents tr v (primaryVolume tr)) ++
  (match tr.secondary with
    | none => []
    | some b => groupEvents tr b.voice (secondaryVolume p tr b.kind))

/-- A track after `emit_track(t)`: the flags of a track with a bound voice are cleared, those of an unbound one kept
(R194). -/
def emittedTrack (tr : Track) : Track := if trackBound tr then { tr with update := 0 } else tr

/-- Step 1 of RESOLVE: register emission, tracks ascending (R193). -/
def resolveTracks (s : State) : State :=
  emit ((liveTracks s).flatMap (trackEvents s.params))
    { s with tracks := mapTracks s.params.numTracks emittedTrack s.tracks }

/-- The dirty feature words (R193). -/
def featureEvents (s : State) : List Event :=
  (if s.featureDirty.getLsbD 0 then [.noiseWord s.noiseVoices] else []) ++
  (if s.featureDirty.getLsbD 1 then [.reverbWord s.reverbVoices] else []) ++
  (if s.featureDirty.getLsbD 2 then [.pitchLfoWord s.pitchLfoVoices] else [])

/-- Step 2 of RESOLVE: the shared feature-enable words (R193). -/
def resolveFeatures (s : State) : State := emit (featureEvents s) { s with featureDirty := 0 }

/-- Step 3 of RESOLVE: key-offs, then key-ons, voices ascending, and the commit of the key bitsets (R193). -/
def resolveKeys (s : State) : State :=
  emit ((voicesOf s.params.numVoices s.keyOffVoices).map Event.keyOff ++
      (voicesOf s.params.numVoices s.keyOnVoices).map Event.keyOn)
    { s with
      keyedVoices := (s.keyedVoices &&& ~~~s.keyOffVoices) ||| s.keyOnVoices
      activeVoices := s.activeVoices &&& ~~~s.keyOffVoices
      keyOnVoices := 0
      keyOffVoices := 0 }

/-- RESOLVE (R193). -/
def execResolve (s : State) : StepResult := .next (resolveKeys (resolveFeatures (resolveTracks s)))

/-- SAVE_ACTIVE (R195). -/
def execSaveActive (s : State) : StepResult := .next { s with savedActiveVoices := s.activeVoices }

/-- NOISE_ON (R196). -/
def execNoiseOn (voice : BitVec 8) (s : State) : StepResult :=
  withVoice (opcodeOf (.noiseOn voice)) voice s fun v =>
    .next { s with
      noiseVoices := setVoice s.params.bitsetWidth s.noiseVoices v
      featureDirty := s.featureDirty ||| dirtyNoise }

/-- NOISE_OFF (R197). -/
def execNoiseOff (voice : BitVec 8) (s : State) : StepResult :=
  withVoice (opcodeOf (.noiseOff voice)) voice s fun v =>
    .next { s with noiseVoices := clearVoice s.noiseVoices v, featureDirty := s.featureDirty ||| dirtyNoise }

/-- REVERB_ON (R198). -/
def execReverbOn (voice : BitVec 8) (s : State) : StepResult :=
  withVoice (opcodeOf (.reverbOn voice)) voice s fun v =>
    .next { s with
      reverbVoices := setVoice s.params.bitsetWidth s.reverbVoices v
      featureDirty := s.featureDirty ||| dirtyReverb }

/-- REVERB_OFF (R199). -/
def execReverbOff (voice : BitVec 8) (s : State) : StepResult :=
  withVoice (opcodeOf (.reverbOff voice)) voice s fun v =>
    .next { s with reverbVoices := clearVoice s.reverbVoices v, featureDirty := s.featureDirty ||| dirtyReverb }

/-- PLFO_ON (R200). -/
def execPlfoOn (voice : BitVec 8) (s : State) : StepResult :=
  withVoice (opcodeOf (.plfoOn voice)) voice s fun v =>
    .next { s with
      pitchLfoVoices := setVoice s.params.bitsetWidth s.pitchLfoVoices v
      featureDirty := s.featureDirty ||| dirtyPitchLfo }

/-- PLFO_OFF (R201). -/
def execPlfoOff (voice : BitVec 8) (s : State) : StepResult :=
  withVoice (opcodeOf (.plfoOff voice)) voice s fun v =>
    .next { s with pitchLfoVoices := clearVoice s.pitchLfoVoices v, featureDirty := s.featureDirty ||| dirtyPitchLfo }

/-- VOICES_QUERY (R202): on a selector out of range `RESULT` is 0 and INDEX_RANGE is raised. -/
def execVoicesQuery (selector : BitVec 8) (mask : Word) (s : State) : StepResult :=
  match selectBitset s selector with
  | none => raise .indexRange (opcodeOf (.voicesQuery selector mask)) { s with result := 0 }
  | some b => .next { s with result := b &&& mask }

/-- Another track than `t` holds `v` as its primary voice (R203). -/
def heldByOther (t : TrackIx) (v : Voice) (s : State) : Bool :=
  (liveTracks s).zipIdx.any fun e => decide (e.2 ≠ t.val) && decide (e.1.primary = some v)

/-- A command on the track `idx` and the voice `imm` name, checked as one condition (60_exceptions.md R283). -/
def withTrackVoice (op idx : BitVec 8) (imm : BitVec 16) (s : State) (act : TrackIx → Voice → StepResult) : StepResult :=
  match trackOperand s.params idx, immVoiceOperand s.params imm with
  | some t, some v => act t v
  | _, _ => raise .indexRange op s

/-- VOICE_BIND (R203). -/
def execVoiceBind (track : BitVec 8) (voice : BitVec 16) (s : State) : StepResult :=
  withTrackVoice (opcodeOf (.voiceBind track voice)) track voice s fun t v =>
    if heldByOther t v s then raise .bindConflict (opcodeOf (.voiceBind track voice)) s
    else .next (modifyTrack t (fun tr => { tr with primary := some v, update := updAll }) s)

/-- VOICE_UNBIND (R204). -/
def execVoiceUnbind (track : BitVec 8) (s : State) : StepResult :=
  onTrack (opcodeOf (.voiceUnbind track)) track (fun tr => { tr with primary := none }) s

/-- A secondary bind: voice, kind, bound, every group dirty (R205). -/
def bindSecondary (v : Voice) (kind : SecondaryKind) (tr : Track) : Track :=
  { tr with secondary := some ⟨v, kind⟩, update := updAll }

/-- OVERLAY_ON (R205). -/
def execOverlayOn (track : BitVec 8) (voice : BitVec 16) (s : State) : StepResult :=
  withTrackVoice (opcodeOf (.overlayOn track voice)) track voice s fun t v =>
    .next (modifyTrack t (bindSecondary v .overlay) s)

/-- ALTERNATE_ON (R206). -/
def execAlternateOn (track : BitVec 8) (voice : BitVec 16) (s : State) : StepResult :=
  withTrackVoice (opcodeOf (.alternateOn track voice)) track voice s fun t v =>
    .next (modifyTrack t (bindSecondary v .alternate) s)

/-- SECONDARY_OFF (R207). -/
def execSecondaryOff (track : BitVec 8) (s : State) : StepResult :=
  onTrack (opcodeOf (.secondaryOff track)) track (fun tr => { tr with secondary := none }) s

end Sys2Proof.Machine
end

