-- ==== Sys2Proof/Machine/Dispatch.lean ====
section
/-! DEFINITION. What each command does: one arm per constructor of `Instr`, each one call of the command's meaning. -/

namespace Sys2Proof.Machine

def exec (i : Instr) (s : State) : Host.Outcome State Fault Refusal :=
  match i with
  | .nop => Sys2Proof.Machine.execNop s
  | .block => Sys2Proof.Machine.execBlock s
  | .tick => Sys2Proof.Machine.execTick s
  | .setDelta track count => Sys2Proof.Machine.execSetDelta track count s
  | .trackStart track => Sys2Proof.Machine.execTrackStart track s
  | .trackFinish track => Sys2Proof.Machine.execTrackFinish track s
  | .timeSet value => Sys2Proof.Machine.execTimeSet value s
  | .reverbTypeSet value => Sys2Proof.Machine.execReverbTypeSet value s
  | .deviceFault track => Sys2Proof.Machine.execDeviceFault track s
  | .regRead index register => Sys2Proof.Machine.execRegRead index register s
  | .statusClear mask => Sys2Proof.Machine.execStatusClear mask s
  | .songInit => Sys2Proof.Machine.execSongInit s
  | .slideValueTempo value => Sys2Proof.Machine.execSlideValueTempo value s
  | .slideValueReverbDepth value => Sys2Proof.Machine.execSlideValueReverbDepth value s
  | .slideValueVolume track value => Sys2Proof.Machine.execSlideValueVolume track value s
  | .slideValuePan track value => Sys2Proof.Machine.execSlideValuePan track value s
  | .slideValuePitchBend track value => Sys2Proof.Machine.execSlideValuePitchBend track value s
  | .slideValueVibratoDepth track value => Sys2Proof.Machine.execSlideValueVibratoDepth track value s
  | .slideValueTremoloDepth track value => Sys2Proof.Machine.execSlideValueTremoloDepth track value s
  | .slideValuePanLfoDepth track value => Sys2Proof.Machine.execSlideValuePanLfoDepth track value s
  | .slideValueOverlayBalance track value => Sys2Proof.Machine.execSlideValueOverlayBalance track value s
  | .slideStartTempo length slope => Sys2Proof.Machine.execSlideStartTempo length slope s
  | .slideStartReverbDepth length slope => Sys2Proof.Machine.execSlideStartReverbDepth length slope s
  | .slideStartVolume track length slope => Sys2Proof.Machine.execSlideStartVolume track length slope s
  | .slideStartPan track length slope => Sys2Proof.Machine.execSlideStartPan track length slope s
  | .slideStartPitchBend track length slope => Sys2Proof.Machine.execSlideStartPitchBend track length slope s
  | .slideStartVibratoDepth track length slope => Sys2Proof.Machine.execSlideStartVibratoDepth track length slope s
  | .slideStartTremoloDepth track length slope => Sys2Proof.Machine.execSlideStartTremoloDepth track length slope s
  | .slideStartPanLfoDepth track length slope => Sys2Proof.Machine.execSlideStartPanLfoDepth track length slope s
  | .slideStartOverlayBalance track length slope => Sys2Proof.Machine.execSlideStartOverlayBalance track length slope s
  | .keyOn voice => Sys2Proof.Machine.execKeyOn voice s
  | .keyOff voice => Sys2Proof.Machine.execKeyOff voice s
  | .resolve => Sys2Proof.Machine.execResolve s
  | .saveActive => Sys2Proof.Machine.execSaveActive s
  | .noiseOn voice => Sys2Proof.Machine.execNoiseOn voice s
  | .noiseOff voice => Sys2Proof.Machine.execNoiseOff voice s
  | .reverbOn voice => Sys2Proof.Machine.execReverbOn voice s
  | .reverbOff voice => Sys2Proof.Machine.execReverbOff voice s
  | .plfoOn voice => Sys2Proof.Machine.execPlfoOn voice s
  | .plfoOff voice => Sys2Proof.Machine.execPlfoOff voice s
  | .voicesQuery selector mask => Sys2Proof.Machine.execVoicesQuery selector mask s
  | .voiceBind track voice => Sys2Proof.Machine.execVoiceBind track voice s
  | .voiceUnbind track => Sys2Proof.Machine.execVoiceUnbind track s
  | .overlayOn track voice => Sys2Proof.Machine.execOverlayOn track voice s
  | .alternateOn track voice => Sys2Proof.Machine.execAlternateOn track voice s
  | .secondaryOff track => Sys2Proof.Machine.execSecondaryOff track s
  | .instrWrite entry field value => Sys2Proof.Machine.execInstrWrite entry field value s
  | .loadInstr track instrument => Sys2Proof.Machine.execLoadInstr track instrument s
  | .setAttackRate track rate => Sys2Proof.Machine.execSetAttackRate track rate s
  | .setDecayRate track rate => Sys2Proof.Machine.execSetDecayRate track rate s
  | .setSustainRate track rate => Sys2Proof.Machine.execSetSustainRate track rate s
  | .setReleaseRate track rate => Sys2Proof.Machine.execSetReleaseRate track rate s
  | .setSustainLevel track level => Sys2Proof.Machine.execSetSustainLevel track level s
  | .setAttackMode track mode => Sys2Proof.Machine.execSetAttackMode track mode s
  | .setDecayMode track mode => Sys2Proof.Machine.execSetDecayMode track mode s
  | .setReleaseMode track mode => Sys2Proof.Machine.execSetReleaseMode track mode s
  | .setPitch track pitch => Sys2Proof.Machine.execSetPitch track pitch s
  | .setVolume track pair => Sys2Proof.Machine.execSetVolume track pair s
  | .setAddr track handle => Sys2Proof.Machine.execSetAddr track handle s
  | .setLoopAddr track handle => Sys2Proof.Machine.execSetLoopAddr track handle s

end Sys2Proof.Machine
end

