-- ==== Sys2Proof/Machine/Port.lean ====
section
/-! DEFINITION. The block's inputs: a command word at the command port (00_scope.md R3), a byte of the serial link
(20_memory.md R75, R76) and the reset input (70_reset_and_hazards.md R300), each taken whole, between commands (R12). -/

namespace Sys2Proof.Machine

/-- Executes one command word: its command, or a raise of ILLEGAL_OP for a reserved op byte, which changes no other
state (30_encoding.md R94). -/
def execWord (w : CmdWord) (s : State) : StepResult :=
  match decode w with
  | .command i => exec i s
  | .reservedOpcode op => raise .illegalOp op s

/-- Takes one byte of the serial link: the word it completes is executed; until then nothing but the part-word changes
(R75, R76). -/
def receiveByte (b : Byte) (s : State) : StepResult :=
  match takeWord (s.link ++ [b]) with
  | none => .next { s with link := s.link ++ [b] }
  | some (w, rest) => execWord w { s with link := rest }

/-- The reset input: every piece of state at its reset value (R300), the part-word of the link with it (log 8). The
parameters are the implementation's and stay; what the host has still to send stays its own. -/
def resetInput (s : State) : State := { State.reset with params := s.params, input := s.input }

/-- Takes one input. -/
def takeInput (p : PortInput) (s : State) : StepResult :=
  match p with
  | .command w => execWord w s
  | .byte b => receiveByte b s
  | .reset => .next (resetInput s)

/-- One step: the oldest input is taken; with none, the block holds all its state (60_exceptions.md R293). -/
def stepInput (s : State) : StepResult :=
  match s.input with
  | [] => .next s
  | p :: rest => takeInput p { s with input := rest }

/-- `s` with `ws` on the command port behind what stands there: the host issues commands in order (00_scope.md R15). -/
def issue (ws : List CmdWord) (s : State) : State := { s with input := s.input ++ ws.map PortInput.command }

/-- The 32-bit result port moved as bytes, least significant first (20_memory.md R75). -/
def resultPortBytes (s : State) : List Byte := resultBytes s.result

end Sys2Proof.Machine
end

