-- ==== Sys2Proof/Machine/Step.lean ====
section
/-! DEFINITION. The step of the block and the placing of an instruction where the next step takes it. The block has no
program counter and fetches nothing (10_state.md R21): commands stand on the command port. -/

namespace Sys2Proof.Machine

/-- One step of the block. -/
def step (s : State) : Host.Outcome State Fault Refusal := stepInput s

/-- `s` with the command word `tableWord nbits w` next on the command port: the host presents it first. -/
def State.withFetchWord (s : State) (nbits w : Nat) : State :=
  { s with input := .command (tableWord nbits w) :: s.input }

end Sys2Proof.Machine
end

