-- ==== Sys2Proof/WellFormed.lean ====
section
/-! DEFINITION. Which commands an assembler may write: every index operand within the range of 30_encoding.md R98
(R102). A word with an index out of range still decodes and runs, and raises INDEX_RANGE (60_exceptions.md R281). -/

namespace Sys2Proof

/-- A track operand in `idx` is below `NUM_TRACKS` (R98). -/
def trackInRange (p : Config.Params) (t : BitVec 8) : Bool := decide (t.toNat < p.numTracks)

/-- A voice operand in `idx` is below `NUM_VOICES` (R98). -/
def voiceInRange (p : Config.Params) (v : BitVec 8) : Bool := decide (v.toNat < p.numVoices)

/-- A voice operand in `imm` is below `NUM_VOICES` (R98). -/
def immVoiceInRange (p : Config.Params) (v : BitVec 16) : Bool := decide (v.toNat < p.numVoices)

/-- An entry operand in `idx` is below `NUM_INSTR` (R98). -/
def entryInRange (p : Config.Params) (e : BitVec 8) : Bool := decide (e.toNat < p.numInstr)

/-- A selector in `idx` is below 8 (R98). -/
def selectorInRange (sel : BitVec 8) : Bool := decide (sel.toNat < Config.numSelectors)

/-- The index operand of `REG_READ` is in the range of what it selects; for a register that has no index, and for an
unmapped number, it is unused and an assembler writes 0 (R24, R96, R100). -/
def regIndexInRange (p : Config.Params) (idx : BitVec 8) (n : BitVec 16) : Bool :=
  match (Machine.regOfNumber n.toNat).map Machine.regIndex with
  | some .track => trackInRange p idx
  | some .entry => entryInRange p idx
  | some .none | none => decide (idx = 0)

/-- Every index operand of the command is in the range R98 gives it. -/
def Instr.wellFormed (p : Config.Params) : Instr → Bool
  | .nop => true
  | .block => true
  | .tick => true
  | .setDelta t _ => trackInRange p t
  | .trackStart t => trackInRange p t
  | .trackFinish t => trackInRange p t
  | .timeSet _ => true
  | .reverbTypeSet _ => true
  | .deviceFault t => trackInRange p t
  | .regRead idx n => regIndexInRange p idx n
  | .statusClear _ => true
  | .songInit => true
  | .slideValueTempo _ => true
  | .slideValueReverbDepth _ => true
  | .slideValueVolume t _ => trackInRange p t
  | .slideValuePan t _ => trackInRange p t
  | .slideValuePitchBend t _ => trackInRange p t
  | .slideValueVibratoDepth t _ => trackInRange p t
  | .slideValueTremoloDepth t _ => trackInRange p t
  | .slideValuePanLfoDepth t _ => trackInRange p t
  | .slideValueOverlayBalance t _ => trackInRange p t
  | .slideStartTempo _ _ => true
  | .slideStartReverbDepth _ _ => true
  | .slideStartVolume t _ _ => trackInRange p t
  | .slideStartPan t _ _ => trackInRange p t
  | .slideStartPitchBend t _ _ => trackInRange p t
  | .slideStartVibratoDepth t _ _ => trackInRange p t
  | .slideStartTremoloDepth t _ _ => trackInRange p t
  | .slideStartPanLfoDepth t _ _ => trackInRange p t
  | .slideStartOverlayBalance t _ _ => trackInRange p t
  | .keyOn v => voiceInRange p v
  | .keyOff v => voiceInRange p v
  | .resolve => true
  | .saveActive => true
  | .noiseOn v => voiceInRange p v
  | .noiseOff v => voiceInRange p v
  | .reverbOn v => voiceInRange p v
  | .reverbOff v => voiceInRange p v
  | .plfoOn v => voiceInRange p v
  | .plfoOff v => voiceInRange p v
  | .voicesQuery sel _ => selectorInRange sel
  | .voiceBind t v => trackInRange p t && immVoiceInRange p v
  | .voiceUnbind t => trackInRange p t
  | .overlayOn t v => trackInRange p t && immVoiceInRange p v
  | .alternateOn t v => trackInRange p t && immVoiceInRange p v
  | .secondaryOff t => trackInRange p t
  | .instrWrite e _ _ => entryInRange p e
  | .loadInstr t _ => trackInRange p t
  | .setAttackRate t _ => trackInRange p t
  | .setDecayRate t _ => trackInRange p t
  | .setSustainRate t _ => trackInRange p t
  | .setReleaseRate t _ => trackInRange p t
  | .setSustainLevel t _ => trackInRange p t
  | .setAttackMode t _ => trackInRange p t
  | .setDecayMode t _ => trackInRange p t
  | .setReleaseMode t _ => trackInRange p t
  | .setPitch t _ => trackInRange p t
  | .setVolume t _ => trackInRange p t
  | .setAddr t _ => trackInRange p t
  | .setLoopAddr t _ => trackInRange p t

end Sys2Proof
end

