-- ==== Sys2Proof/Machine/Assembler.lean ====
section
/-! DEFINITION. The assembler of 30_encoding.md R100 to R102: source lines, the pseudo-instructions and the refusals. A
line is a list of characters. The refusal of a line is separate from the block's own diagnostics (R102). -/

namespace Sys2Proof.Machine

/-- An operand as it is written: `t<n>`, `v<n>`, `e<n>`, a number, or a name (R100). -/
inductive Token where
  | track (n : Nat)
  | voice (n : Nat)
  | entry (n : Nat)
  | number (n : Int)
  | name (cs : List Char)
deriving DecidableEq, Repr

/-- Why the assembler refuses a line (R102). -/
inductive AsmRefusal where
  /-- The mnemonic is not in R92 or R101. -/
  | unknownMnemonic
  /-- An operand is missing, extra or not of the form the format has. -/
  | operands
  /-- A track, voice, entry or selector is out of its range (R98). -/
  | indexRange
  /-- `imm` does not fit in 16 bits. -/
  | immRange
  /-- `data` does not fit in 32 bits, as unsigned or as signed. -/
  | dataRange
deriving DecidableEq, Repr

/-- A source line read into its mnemonic and operands. -/
structure SourceLine where
  mnemonic : List Char
  operands : List Token
deriving DecidableEq, Repr

/-- What the assembler gives for one line: the commands, in order. -/
abbrev AsmResult := Except AsmRefusal (List Instr)

/-! Reading a line (R100). -/

/-- The value of a decimal or hexadecimal digit. -/
def digitValue (base : Nat) (c : Char) : Option Nat :=
  if '0' ≤ c ∧ c ≤ '9' then some (c.toNat - '0'.toNat)
  else if base = 16 ∧ 'a' ≤ c ∧ c ≤ 'f' then some (c.toNat - 'a'.toNat + 10)
  else if base = 16 ∧ 'A' ≤ c ∧ c ≤ 'F' then some (c.toNat - 'A'.toNat + 10)
  else none

/-- The value of a row of digits after the digits read so far. -/
def digitsFrom (base acc : Nat) : List Char → Option Nat
  | [] => some acc
  | c :: cs => (digitValue base c).bind fun d => digitsFrom base (base * acc + d) cs

/-- The value of a non-empty row of digits. -/
def digits (base : Nat) (cs : List Char) : Option Nat := if cs.isEmpty then none else digitsFrom base 0 cs

/-- A decimal or `0x` hexadecimal number. -/
def unsignedNumber (cs : List Char) : Option Nat :=
  match cs with
  | '0' :: 'x' :: hex => digits 16 hex
  | dec => digits 10 dec

/-- A number, a leading `-` making it negative. -/
def signedNumber (cs : List Char) : Option Int :=
  match cs with
  | '-' :: rest => (unsignedNumber rest).map fun n => -(n : Int)
  | _ => (unsignedNumber cs).map fun n => (n : Int)

/-- An operand; what is neither an index nor a number is a name. -/
def readToken (cs : List Char) : Token :=
  match cs with
  | 't' :: rest => ((digits 10 rest).map Token.track).getD (.name cs)
  | 'v' :: rest => ((digits 10 rest).map Token.voice).getD (.name cs)
  | 'e' :: rest => ((digits 10 rest).map Token.entry).getD (.name cs)
  | _ => ((signedNumber cs).map Token.number).getD (.name cs)

/-- The characters without the blanks at either end. -/
def trimBlanks (cs : List Char) : List Char :=
  ((cs.dropWhile (· = ' ')).reverse.dropWhile (· = ' ')).reverse

/-- The pieces between commas; none of a blank text. -/
def splitCommas (cs : List Char) : List (List Char) :=
  if (trimBlanks cs).isEmpty then [] else (cs.splitOn ',').map trimBlanks

/-- A source line without its comment, read into mnemonic and operands. -/
def readLine (cs : List Char) : SourceLine :=
  let code := trimBlanks (cs.takeWhile (· ≠ ';'))
  ⟨code.takeWhile (· ≠ ' '), (splitCommas (code.dropWhile (· ≠ ' '))).map readToken⟩

/-! Operands (R98, R102). -/

/-- An index below its bound, as an `idx` field. -/
def idxOperand (bound n : Nat) : Except AsmRefusal (BitVec 8) :=
  if n < bound then .ok (BitVec.ofNat 8 n) else .error .indexRange

/-- A voice below `NUM_VOICES`, as an `imm` field. -/
def immVoice (p : Config.Params) (n : Nat) : Except AsmRefusal (BitVec 16) :=
  if n < p.numVoices then .ok (BitVec.ofNat 16 n) else .error .indexRange

/-- A number that fits in 16 bits. A leading `-` means a 32-bit pattern, which does not. -/
def immOperand (n : Int) : Except AsmRefusal (BitVec 16) :=
  if 0 ≤ n ∧ n < 2 ^ 16 then .ok (BitVec.ofInt 16 n) else .error .immRange

/-- A number that fits in 32 bits, as unsigned or as signed; a negative one is its two's-complement pattern. -/
def dataOperand (n : Int) : Except AsmRefusal Word :=
  if -(2 ^ 31) ≤ n ∧ n < 2 ^ 32 then .ok (BitVec.ofInt 32 n) else .error .dataRange

/-- The selector names of R99. -/
def selectorNames : List (List Char) :=
  ["ACTIVE".toList, "KEY_ON".toList, "KEYED".toList, "KEY_OFF".toList, "SAVED_ACTIVE".toList, "NOISE".toList,
    "REVERB".toList, "PITCH_LFO".toList]

/-- The number of a selector name; another name is out of the selectors' range. -/
def selectorOperand (cs : List Char) : Except AsmRefusal (BitVec 8) :=
  idxOperand Config.numSelectors (selectorNames.idxOf cs)

/-! The operand order of each format (R100). -/

/-- Format Z: no operand. -/
def asmZ (i : Instr) : List Token → AsmResult
  | [] => .ok [i]
  | _ => .error .operands

/-- Format T: a track. -/
def asmT (p : Config.Params) (f : BitVec 8 → Instr) : List Token → AsmResult
  | [.track t] => (idxOperand p.numTracks t).map fun t => [f t]
  | _ => .error .operands

/-- Format V: a voice. -/
def asmV (p : Config.Params) (f : BitVec 8 → Instr) : List Token → AsmResult
  | [.voice v] => (idxOperand p.numVoices v).map fun v => [f v]
  | _ => .error .operands

/-- Format TI: a track and a number. -/
def asmTI (p : Config.Params) (f : BitVec 8 → BitVec 16 → Instr) : List Token → AsmResult
  | [.track t, .number n] => do
    let t ← idxOperand p.numTracks t
    let n ← immOperand n
    .ok [f t n]
  | _ => .error .operands

/-- Format TI with a voice in `imm`: a track and a voice. -/
def asmTV (p : Config.Params) (f : BitVec 8 → BitVec 16 → Instr) : List Token → AsmResult
  | [.track t, .voice v] => do
    let t ← idxOperand p.numTracks t
    let v ← immVoice p v
    .ok [f t v]
  | _ => .error .operands

/-- Formats TD and SV with a track: a track and a 32-bit number. -/
def asmTD (p : Config.Params) (f : BitVec 8 → Word → Instr) : List Token → AsmResult
  | [.track t, .number n] => do
    let t ← idxOperand p.numTracks t
    let n ← dataOperand n
    .ok [f t n]
  | _ => .error .operands

/-- Formats D and SV without a track: a 32-bit number. -/
def asmD (f : Word → Instr) : List Token → AsmResult
  | [.number n] => (dataOperand n).map fun n => [f n]
  | _ => .error .operands

/-- Format SS with a track: a track, a length and a slope. -/
def asmSS (p : Config.Params) (f : BitVec 8 → BitVec 16 → Word → Instr) : List Token → AsmResult
  | [.track t, .number n, .number x] => do
    let t ← idxOperand p.numTracks t
    let n ← immOperand n
    let x ← dataOperand x
    .ok [f t n x]
  | _ => .error .operands

/-- Format SS without a track: a length and a slope. -/
def asmSSPlayer (f : BitVec 16 → Word → Instr) : List Token → AsmResult
  | [.number n, .number x] => do
    let n ← immOperand n
    let x ← dataOperand x
    .ok [f n x]
  | _ => .error .operands

/-- The index kind of a register number; an unmapped number has none. -/
def numberIndex (n : BitVec 16) : RegIndex := ((regOfNumber n.toNat).map regIndex).getD .none

/-- Format R: the register number, after the track or entry its register is indexed by (R100). -/
def asmR (p : Config.Params) (f : BitVec 8 → BitVec 16 → Instr) : List Token → AsmResult
  | [.number n] => do
    let n ← immOperand n
    if numberIndex n = .none then .ok [f 0 n] else .error .operands
  | [.track t, .number n] => do
    let n ← immOperand n
    if numberIndex n = .track then (idxOperand p.numTracks t).map fun t => [f t n] else .error .operands
  | [.entry e, .number n] => do
    let n ← immOperand n
    if numberIndex n = .entry then (idxOperand p.numInstr e).map fun e => [f e n] else .error .operands
  | _ => .error .operands

/-- Format Q: a selector and a mask. -/
def asmQ (f : BitVec 8 → Word → Instr) : List Token → AsmResult
  | [.name sel, .number n] => do
    let sel ← selectorOperand sel
    let n ← dataOperand n
    .ok [f sel n]
  | _ => .error .operands

/-- Format E: an entry, a field number and a value. -/
def asmE (p : Config.Params) (f : BitVec 8 → BitVec 16 → Word → Instr) : List Token → AsmResult
  | [.entry e, .number n, .number x] => do
    let e ← idxOperand p.numInstr e
    let n ← immOperand n
    let x ← dataOperand x
    .ok [f e n x]
  | _ => .error .operands

/-- `NOTE_ON t<a>, v<b>`: the bind, then the key-on (R101). -/
def asmNoteOn (p : Config.Params) : List Token → AsmResult
  | [.track t, .voice v] => do
    let t ← idxOperand p.numTracks t
    let b ← immVoice p v
    let k ← idxOperand p.numVoices v
    .ok [.voiceBind t b, .keyOn k]
  | _ => .error .operands

/-! The mnemonics (R92, R101). -/

/-- One row of the assembler's table: a mnemonic and how its operands are assembled. -/
abbrev AsmRow := List Char × (List Token → AsmResult)

/-- The control and timing commands. -/
def asmTiming (p : Config.Params) : List AsmRow :=
  [("NOP".toList, asmZ .nop),
    ("BLOCK".toList, asmZ .block),
    ("TICK".toList, asmZ .tick),
    ("SET_DELTA".toList, asmTI p .setDelta),
    ("TRACK_START".toList, asmT p .trackStart),
    ("TRACK_FINISH".toList, asmT p .trackFinish),
    ("TIME_SET".toList, asmD .timeSet),
    ("REVERB_TYPE_SET".toList, asmD .reverbTypeSet),
    ("DEVICE_FAULT".toList, asmT p .deviceFault),
    ("REG_READ".toList, asmR p .regRead),
    ("STATUS_CLEAR".toList, asmD .statusClear),
    ("SONG_INIT".toList, asmZ .songInit)]

/-- SLIDE_VALUE.k. -/
def asmSlideValue (p : Config.Params) : List AsmRow :=
  [("SLIDE_VALUE.TEMPO".toList, asmD .slideValueTempo),
    ("SLIDE_VALUE.REVERB_DEPTH".toList, asmD .slideValueReverbDepth),
    ("SLIDE_VALUE.VOLUME".toList, asmTD p .slideValueVolume),
    ("SLIDE_VALUE.PAN".toList, asmTD p .slideValuePan),
    ("SLIDE_VALUE.PITCH_BEND".toList, asmTD p .slideValuePitchBend),
    ("SLIDE_VALUE.VIBRATO_DEPTH".toList, asmTD p .slideValueVibratoDepth),
    ("SLIDE_VALUE.TREMOLO_DEPTH".toList, asmTD p .slideValueTremoloDepth),
    ("SLIDE_VALUE.PAN_LFO_DEPTH".toList, asmTD p .slideValuePanLfoDepth),
    ("SLIDE_VALUE.OVERLAY_BALANCE".toList, asmTD p .slideValueOverlayBalance)]

/-- SLIDE_START.k. -/
def asmSlideStart (p : Config.Params) : List AsmRow :=
  [("SLIDE_START.TEMPO".toList, asmSSPlayer .slideStartTempo),
    ("SLIDE_START.REVERB_DEPTH".toList, asmSSPlayer .slideStartReverbDepth),
    ("SLIDE_START.VOLUME".toList, asmSS p .slideStartVolume),
    ("SLIDE_START.PAN".toList, asmSS p .slideStartPan),
    ("SLIDE_START.PITCH_BEND".toList, asmSS p .slideStartPitchBend),
    ("SLIDE_START.VIBRATO_DEPTH".toList, asmSS p .slideStartVibratoDepth),
    ("SLIDE_START.TREMOLO_DEPTH".toList, asmSS p .slideStartTremoloDepth),
    ("SLIDE_START.PAN_LFO_DEPTH".toList, asmSS p .slideStartPanLfoDepth),
    ("SLIDE_START.OVERLAY_BALANCE".toList, asmSS p .slideStartOverlayBalance)]

/-- The voice commands. -/
def asmVoice (p : Config.Params) : List AsmRow :=
  [("KEY_ON".toList, asmV p .keyOn),
    ("KEY_OFF".toList, asmV p .keyOff),
    ("RESOLVE".toList, asmZ .resolve),
    ("SAVE_ACTIVE".toList, asmZ .saveActive),
    ("NOISE_ON".toList, asmV p .noiseOn),
    ("NOISE_OFF".toList, asmV p .noiseOff),
    ("REVERB_ON".toList, asmV p .reverbOn),
    ("REVERB_OFF".toList, asmV p .reverbOff),
    ("PLFO_ON".toList, asmV p .plfoOn),
    ("PLFO_OFF".toList, asmV p .plfoOff),
    ("VOICES_QUERY".toList, asmQ .voicesQuery),
    ("VOICE_BIND".toList, asmTV p .voiceBind),
    ("VOICE_UNBIND".toList, asmT p .voiceUnbind),
    ("OVERLAY_ON".toList, asmTV p .overlayOn),
    ("ALTERNATE_ON".toList, asmTV p .alternateOn),
    ("SECONDARY_OFF".toList, asmT p .secondaryOff)]

/-- The Instrument Table, ADSR and shadow commands. -/
def asmShadow (p : Config.Params) : List AsmRow :=
  [("INSTR_WRITE".toList, asmE p .instrWrite),
    ("LOAD_INSTR".toList, asmTI p .loadInstr),
    ("SET_ATTACK_RATE".toList, asmTI p .setAttackRate),
    ("SET_DECAY_RATE".toList, asmTI p .setDecayRate),
    ("SET_SUSTAIN_RATE".toList, asmTI p .setSustainRate),
    ("SET_RELEASE_RATE".toList, asmTI p .setReleaseRate),
    ("SET_SUSTAIN_LEVEL".toList, asmTI p .setSustainLevel),
    ("SET_ATTACK_MODE".toList, asmTI p .setAttackMode),
    ("SET_DECAY_MODE".toList, asmTI p .setDecayMode),
    ("SET_RELEASE_MODE".toList, asmTI p .setReleaseMode),
    ("SET_PITCH".toList, asmTI p .setPitch),
    ("SET_VOLUME".toList, asmTD p .setVolume),
    ("SET_ADDR".toList, asmTD p .setAddr),
    ("SET_LOOP_ADDR".toList, asmTD p .setLoopAddr)]

/-- The pseudo-instructions of R101. -/
def asmPseudo (p : Config.Params) : List AsmRow :=
  [("TEMPO".toList, asmD .slideValueTempo),
    ("TEMPO_SLIDE".toList, asmSSPlayer .slideStartTempo),
    ("NOTE_ON".toList, asmNoteOn p),
    ("END_TICK".toList, asmZ .resolve),
    ("CLEAR_ERRORS".toList, asmZ (.statusClear (BitVec.allOnes 32))),
    ("WAIT".toList, asmTI p .setDelta),
    ("READ_TEMPO".toList, asmZ (.regRead 0 0x100))]

/-- Every mnemonic the assembler knows. -/
def asmTable (p : Config.Params) : List AsmRow :=
  asmTiming p ++ asmSlideValue p ++ asmSlideStart p ++ asmVoice p ++ asmShadow p ++ asmPseudo p

/-- The commands of a line already read. -/
def assembleSource (p : Config.Params) (l : SourceLine) : AsmResult :=
  match (asmTable p).find? (fun row => decide (row.1 = l.mnemonic)) with
  | none => .error .unknownMnemonic
  | some row => row.2 l.operands

/-- The commands of a source line; a line that is blank or only a comment gives none (log 11). -/
def assembleLine (p : Config.Params) (cs : List Char) : AsmResult :=
  if (trimBlanks (cs.takeWhile (· ≠ ';'))).isEmpty then .ok [] else assembleSource p (readLine cs)

/-- The command words of a program, or the first refusal. -/
def assemble (p : Config.Params) : List (List Char) → Except AsmRefusal (List CmdWord)
  | [] => .ok []
  | l :: ls => do
    let is ← assembleLine p l
    let ws ← assemble p ls
    .ok (is.map encode ++ ws)

end Sys2Proof.Machine
end

