-- ==== Sys2Proof/Machine/Players.lean ====
section
/-! DEFINITION. The reference system of `NUM_PLAYERS` instances, one per player slot (00_scope.md R6, 60_exceptions.md
R291): each has its own command port and its own state, and they share nothing (20_memory.md R86). -/

namespace Sys2Proof.Machine

/-- One block for each of the `n` player slots; R7's `NUM_PLAYERS` is `Config.numPlayers`. -/
structure Players (n : Nat) where
  blocks : Vector State n
deriving DecidableEq, Repr

/-- The outcome of a step of one instance. -/
abbrev PlayersResult (n : Nat) := Host.Outcome (Players n) Fault Refusal

/-- Every instance starts at reset (R291). -/
def playersReset (n : Nat) : Players n := ⟨Vector.replicate n State.reset⟩

/-- The reference system after reset: two instances (R6, R7). -/
def referenceReset : Players Config.numPlayers := playersReset Config.numPlayers

/-- Instance `p` takes one step; the others are not touched (R86, R291). -/
def stepPlayer {n : Nat} (p : Fin n) (ps : Players n) : PlayersResult n :=
  match step ps.blocks[p] with
  | .next s => .next { ps with blocks := ps.blocks.set p s }
  | .fault r => .fault r
  | .refused r => .refused r

/-- `VOICE_ARBITRATION` (00_scope.md R7, 92_eei_decisions.md D2): how the `OUT` streams of the instances become one
stream for the one device. OPEN with no default: a FREE VALUE, nothing in Lean evaluates it (assumption log 6). -/
opaque voiceArbitration (n : Nat) (outs : Vector (List Event) n) : List Event

/-- What the one device sees of the system: an open composition of the instances' streams (R6). -/
def deviceStream {n : Nat} (ps : Players n) : List Event := voiceArbitration n (ps.blocks.map State.out)

end Sys2Proof.Machine
end

