-- ==== Sys2Proof/Safety.lean ====
section
/-! DEFINITION. The words that claims about the block are made in: its invariants (10_state.md R33, R42), the per-voice
state machine (R32), runs and what is observed of them (00_scope.md R16), what a command may change, and the counts that
the derived laws of 41_timing.md R130 and R131 speak of. Nothing here is part of the machine. -/

namespace Sys2Proof.Machine

/-! Reserved encodings and the bits a command uses. -/

/-- The reserved op bytes: 0x09-0x0B, 0x0F, 0x19-0x1F, 0x29-0x2F and 0x4E-0xFF (30_encoding.md R94). -/
def reservedOp (op : BitVec 8) : Bool :=
  (decide (0x09 ≤ op.toNat) && decide (op.toNat ≤ 0x0B)) || decide (op.toNat = 0x0F) ||
  (decide (0x19 ≤ op.toNat) && decide (op.toNat ≤ 0x1F)) || (decide (0x29 ≤ op.toNat) && decide (op.toNat ≤ 0x2F)) ||
  decide (0x4E ≤ op.toNat)

/-- The unmapped register numbers (10_state.md R53): the gaps 0x006-0x00F, 0x019-0x01F, 0x024-0x0FF, every 0x1k3-0x1kF,
0x190-0x1FF, 0x20C-0x2FF, 0x30C and above. -/
def unmappedNumber (n : Nat) : Bool :=
  (decide (0x006 ≤ n) && decide (n ≤ 0x00F)) || (decide (0x019 ≤ n) && decide (n ≤ 0x01F)) ||
  (decide (0x024 ≤ n) && decide (n ≤ 0x0FF)) ||
  (decide (0x100 ≤ n) && decide (n ≤ 0x18F) && decide (3 ≤ n % 0x10)) ||
  (decide (0x190 ≤ n) && decide (n ≤ 0x1FF)) || (decide (0x20C ≤ n) && decide (n ≤ 0x2FF)) || decide (0x30C ≤ n)

/-- The bits of a command word that its format uses: `op` and the fields of 30_encoding.md R91. -/
def usedMask : Instr → CmdWord
  | .nop | .block | .tick | .songInit | .resolve | .saveActive => 0xFF00000000000000
  | .setDelta _ _ | .regRead _ _ | .voiceBind _ _ | .overlayOn _ _ | .alternateOn _ _ | .loadInstr _ _
  | .setAttackRate _ _ | .setDecayRate _ _ | .setSustainRate _ _ | .setReleaseRate _ _ | .setSustainLevel _ _
  | .setAttackMode _ _ | .setDecayMode _ _ | .setReleaseMode _ _ | .setPitch _ _ => 0xFFFFFFFF00000000
  | .trackStart _ | .trackFinish _ | .deviceFault _ | .keyOn _ | .keyOff _ | .noiseOn _ | .noiseOff _
  | .reverbOn _ | .reverbOff _ | .plfoOn _ | .plfoOff _ | .voiceUnbind _ | .secondaryOff _ => 0xFFFF000000000000
  | .timeSet _ | .reverbTypeSet _ | .statusClear _ | .slideValueTempo _ | .slideValueReverbDepth _ => 0xFF000000FFFFFFFF
  | .slideValueVolume _ _ | .slideValuePan _ _ | .slideValuePitchBend _ _ | .slideValueVibratoDepth _ _
  | .slideValueTremoloDepth _ _ | .slideValuePanLfoDepth _ _ | .slideValueOverlayBalance _ _
  | .voicesQuery _ _ | .setVolume _ _ | .setAddr _ _ | .setLoopAddr _ _ => 0xFFFF0000FFFFFFFF
  | .slideStartTempo _ _ | .slideStartReverbDepth _ _ => 0xFF00FFFFFFFFFFFF
  | .slideStartVolume _ _ _ | .slideStartPan _ _ _ | .slideStartPitchBend _ _ _
  | .slideStartVibratoDepth _ _ _ | .slideStartTremoloDepth _ _ _ | .slideStartPanLfoDepth _ _ _
  | .slideStartOverlayBalance _ _ _ | .instrWrite _ _ _ => 0xFFFFFFFFFFFFFFFF

/-! The register map by numbers (10_state.md R23). -/

/-- The numbers of the registers that have no index, each with the value it reads as (R23, R25, R37). `status` and the views
of R36 are computed from the state. -/
def playerRegisters (s : State) : List (BitVec 16 × Word) :=
  [(0x000, BitVec.ofNat 32 (0x01000000 + 0x10000 * s.params.fracBits.val + 0x100 * s.params.numTracks.val +
      s.params.numVoices.val)), (0x001, (status s).setWidth 32), (0x002, s.error.setWidth 32), (0x003, s.timeCounter),
    (0x004, s.ticksPending), (0x005, s.reverbType), (0x010, s.activeVoices), (0x011, s.keyOnVoices),
    (0x012, s.keyedVoices), (0x013, s.keyOffVoices), (0x014, s.savedActiveVoices), (0x015, s.noiseVoices),
    (0x016, s.reverbVoices), (0x017, s.pitchLfoVoices), (0x018, s.featureDirty.setWidth 32),
    (0x020, trackBitsLo Track.active s), (0x021, trackBitsHi Track.active s), (0x022, trackBitsLo Track.wake s),
    (0x023, trackBitsHi Track.wake s),
    (0x100, s.tempo.value), (0x101, s.tempo.slope), (0x102, s.tempo.remaining.setWidth 32),
    (0x110, s.reverbDepth.value), (0x111, s.reverbDepth.slope), (0x112, s.reverbDepth.remaining.setWidth 32)]

/-- The three numbers of slide kind `k` from its first number `n` on, each with the value it reads as (R38). -/
def slideRegisters (n : BitVec 16) (u : Slide) : List (BitVec 16 × Word) :=
  [(n, u.value), (n + 1, u.slope), (n + 2, u.remaining.setWidth 32)]

/-- The numbers of the registers indexed by track, each with the value it reads as for track `tr` (R23, R37 to R50). -/
def trackRegisters (tr : Track) : List (BitVec 16 × Word) :=
  slideRegisters 0x120 tr.volume ++ slideRegisters 0x130 tr.pan ++ slideRegisters 0x140 tr.pitchBend ++
  slideRegisters 0x150 tr.vibratoDepth ++ slideRegisters 0x160 tr.tremoloDepth ++ slideRegisters 0x170 tr.panLfoDepth ++
  slideRegisters 0x180 tr.overlayBalance ++
  [(0x200, trackCtrlWord tr), (0x201, tr.delta.setWidth 32), (0x202, bindWord tr), (0x203, tr.update.setWidth 32),
    (0x204, tr.instrId.setWidth 32), (0x205, tr.addr), (0x206, tr.loopAddr), (0x207, tr.pitch.setWidth 32),
    (0x208, tr.volumeLr), (0x209, adsrModesWord tr.adsr), (0x20A, adsrRatesWord tr.adsr),
    (0x20B, tr.adsr.sustainLevel.setWidth 32)]

/-! Invariants. -/

/-- INV1 to INV4 of 10_state.md R33. -/
abbrev VoiceInv (s : State) : Prop :=
  s.keyedVoices &&& ~~~s.activeVoices = 0 ∧ s.keyOnVoices &&& s.keyOffVoices = 0 ∧
  s.keyOffVoices &&& ~~~s.keyedVoices = 0 ∧ s.keyOnVoices &&& ~~~s.activeVoices = 0

/-- Track `k` is one of the tracks the instance has (20_memory.md R73). -/
def IsTrack (p : Config.Params) (k : TrackIx) : Prop := k.val < p.numTracks.val

/-- The operand `idx` names track `k` (30_encoding.md R98). -/
def NamesTrack (p : Config.Params) (idx : BitVec 8) (k : TrackIx) : Prop := k.val = idx.toNat ∧ IsTrack p k

/-- No two tracks have the same voice bound as primary (10_state.md R42). -/
def PrimariesDistinct (s : State) : Prop :=
  ∀ (t u : TrackIx) (v : Voice), IsTrack s.params t → IsTrack s.params u →
    s.tracks[t].primary = some v → s.tracks[u].primary = some v → t = u

/-- The Instrument Table is in the model's canonical form (assumption log 7). -/
def TableCanonical (s : State) : Prop := Memory.wf s.params s.instrTable = true

/-- `x` holds a value of `w` bits. -/
def Fits {n : Nat} (w : Nat) (x : BitVec n) : Prop := x.toNat < 2 ^ w

/-- The three fields of a slide unit are within their widths (10_state.md R37, 00_scope.md R7). -/
def SlideFits (p : Config.Params) (u : Slide) : Prop :=
  Fits p.slideValueWidth.val u.value ∧ Fits p.slideSlopeWidth.val u.slope ∧ Fits p.slideLenWidth.val u.remaining

/-- The eight ADSR fields are within their widths (10_state.md R48 to R50, 00_scope.md R7). -/
def AdsrFits (p : Config.Params) (a : Adsr) : Prop :=
  Fits p.modeW.val a.attackMode ∧ Fits p.modeW.val a.decayMode ∧ Fits p.modeW.val a.releaseMode ∧
  Fits p.arW.val a.attackRate ∧ Fits p.drW.val a.decayRate ∧ Fits p.srW.val a.sustainRate ∧
  Fits p.rrW.val a.releaseRate ∧ Fits p.slW.val a.sustainLevel

/-- The registers of a track are within their widths, and its voices are below `NUM_VOICES` (10_state.md R40 to R50,
20_memory.md R73). -/
def TrackFits (p : Config.Params) (tr : Track) : Prop :=
  Fits p.deltaWidth.val tr.delta ∧ (∀ v : Voice, tr.primary = some v → v.toNat < p.numVoices.val) ∧
  (∀ b : Secondary, tr.secondary = some b → b.voice.toNat < p.numVoices.val) ∧
  Fits p.instrIdW.val tr.instrId ∧ Fits p.addrW.val tr.addr ∧ Fits p.addrW.val tr.loopAddr ∧
  Fits p.pitchW.val tr.pitch ∧ Fits p.volW.val (volL tr.volumeLr) ∧ Fits p.volW.val (volR tr.volumeLr) ∧
  AdsrFits p tr.adsr ∧ SlideFits p tr.volume ∧ SlideFits p tr.pan ∧ SlideFits p tr.pitchBend ∧
  SlideFits p tr.vibratoDepth ∧ SlideFits p tr.tremoloDepth ∧ SlideFits p tr.panLfoDepth ∧
  SlideFits p tr.overlayBalance

/-- Every register is within its width: the bits above it read 0 (10_state.md R23, 00_scope.md R7). -/
def RegistersFit (s : State) : Prop :=
  Fits s.params.tcWidth.val s.timeCounter ∧ Fits s.params.tpWidth.val s.ticksPending ∧
  (∀ b ∈ [s.activeVoices, s.keyOnVoices, s.keyedVoices, s.keyOffVoices, s.savedActiveVoices, s.noiseVoices,
    s.reverbVoices, s.pitchLfoVoices], Fits s.params.bitsetWidth.val b) ∧
  SlideFits s.params s.tempo ∧ SlideFits s.params s.reverbDepth ∧
  ∀ u : TrackIx, IsTrack s.params u → TrackFits s.params s.tracks[u]

/-- The numbers that the `value` register of a slide kind holds: unsigned for the tempo, two's complement for the others
(42_slide.md R150). -/
def valueRange (p : Config.Params) (k : SlideKind) : Config.SlideRange :=
  match k with
  | .tempo => ⟨0, 2 ^ p.slideValueWidth.val - 1⟩
  | .reverbDepth | .volume | .pan | .pitchBend | .vibratoDepth | .tremoloDepth | .panLfoDepth | .overlayBalance =>
    ⟨-(2 ^ p.slideValueWidth.val / 2), 2 ^ p.slideValueWidth.val / 2 - 1⟩

/-! The per-voice state machine (10_state.md R32). -/

/-- The reachable voice states of R32. -/
inductive VoiceState where
  | idle | keyOnPending | keyed | rekeyPending | keyOffPending
deriving DecidableEq, Repr

/-- The state that the bits (`ACTIVE`, `KEY_ON`, `KEYED`, `KEY_OFF`) of voice `v` spell; `none` for the combinations that
the commands never produce (R32). -/
def voiceState (s : State) (v : Voice) : Option VoiceState :=
  match hasVoice s.activeVoices v, hasVoice s.keyOnVoices v, hasVoice s.keyedVoices v, hasVoice s.keyOffVoices v with
  | false, false, false, false => some .idle
  | true, true, false, false => some .keyOnPending
  | true, false, true, false => some .keyed
  | true, true, true, false => some .rekeyPending
  | true, false, true, true => some .keyOffPending
  | _, _, _, _ => none

/-- The KEY_ON column of 43_voice.md R209. -/
def afterKeyOn : VoiceState → VoiceState
  | .idle => .keyOnPending
  | .keyOnPending => .keyOnPending
  | .keyed => .rekeyPending
  | .rekeyPending => .rekeyPending
  | .keyOffPending => .rekeyPending

/-- The KEY_OFF column of R209. -/
def afterKeyOff : VoiceState → VoiceState
  | .idle => .idle
  | .keyOnPending => .idle
  | .keyed => .keyOffPending
  | .rekeyPending => .keyOffPending
  | .keyOffPending => .keyOffPending

/-- The RESOLVE column of R209. -/
def afterResolve : VoiceState → VoiceState
  | .idle => .idle
  | .keyOnPending => .keyed
  | .keyed => .keyed
  | .rekeyPending => .keyed
  | .keyOffPending => .idle

/-! What a command changes. -/

/-- `t` is `s` but for track `k`: every other track and every other field of the state is as in `s`. -/
def OnlyTrackChanges (k : TrackIx) (s t : State) : Prop :=
  t = { s with tracks := t.tracks } ∧ ∀ u : TrackIx, u ≠ k → t.tracks[u] = s.tracks[u]

/-- The state a raise of `d` by a command with op byte `op` leaves: the `ERROR` bit set, the `Diag` event appended, and
no other change (00_scope.md R11). -/
def raised (d : Diag) (op : BitVec 8) (s : State) : State :=
  { s with error := s.error ||| (1#10 <<< diagCode d), out := s.out ++ [.diag d op] }

/-- `t` is `s` but for values, slopes and lengths of slide units (42_slide.md R174). -/
def OnlySlidesChange (s t : State) : Prop :=
  t = { s with tempo := t.tempo, reverbDepth := t.reverbDepth, tracks := t.tracks } ∧
  ∀ u : TrackIx, t.tracks[u] = { s.tracks[u] with
    volume := t.tracks[u].volume
    pan := t.tracks[u].pan
    pitchBend := t.tracks[u].pitchBend
    vibratoDepth := t.tracks[u].vibratoDepth
    tremoloDepth := t.tracks[u].tremoloDepth
    panLfoDepth := t.tracks[u].panLfoDepth
    overlayBalance := t.tracks[u].overlayBalance }

/-- The event of register group `i` of track `tr` for voice `v`, the groups numbered as in `UPDATE` (10_state.md R43,
R60); `l` and `r` are the volume pair for the role. -/
def groupEvent (tr : Track) (v : Voice) (l r : BitVec 16) (i : Nat) : Event :=
  match i with
  | 0 => .setAddr v tr.addr
  | 1 => .setLoopAddr v tr.loopAddr
  | 2 => .setAdsr v tr.adsr
  | 3 => .setPitch v tr.pitch
  | _ => .setVolume v l r

/-- The voices below `n` of a bitset in ascending order. -/
def ascending (n : Nat) (b : Word) : List Voice := ((List.range n).filter fun i => b.getLsbD i).map (BitVec.ofNat 5)

/-- The bit of voice number `n` in a bitset register of `BITSET_WIDTH` bits (00_scope.md R7, R9). -/
def bitOf (p : Config.Params) (n : Nat) : Word := if n < p.bitsetWidth.val then 1#32 <<< n else 0

/-- Voice `v` is bound to the track, as its primary or its secondary (10_state.md R41). -/
def boundTo (tr : Track) (v : Voice) : Bool :=
  decide (tr.primary = some v) || decide (tr.secondary.map Secondary.voice = some v)

/-- An event is a diagnostic. -/
def isDiag : Event → Bool
  | .diag _ _ => true
  | .setAddr _ _ | .setLoopAddr _ _ | .setAdsr _ _ | .setPitch _ _ | .setVolume _ _ _ | .keyOff _ | .keyOn _
  | .noiseWord _ | .reverbWord _ | .pitchLfoWord _ => false

/-- The voice-shadow fields of a track, with `INSTR_ID` and `UPDATE`: what 44_adsr.md R244 says its commands depend on
and write. -/
def shadowOf (tr : Track) : BitVec 16 × Word × Word × BitVec 16 × Word × Adsr × BitVec 5 :=
  (tr.instrId, tr.addr, tr.loopAddr, tr.pitch, tr.volumeLr, tr.adsr, tr.update)

/-- The commands of 44_adsr.md R231 to R243 and the track they name. -/
def shadowTrack : Instr → Option (BitVec 8)
  | .loadInstr t _ | .setAttackRate t _ | .setDecayRate t _ | .setSustainRate t _ | .setReleaseRate t _
  | .setSustainLevel t _ | .setAttackMode t _ | .setDecayMode t _ | .setReleaseMode t _ | .setPitch t _
  | .setVolume t _ | .setAddr t _ | .setLoopAddr t _ => some t
  | _ => none

/-! The slide commands by kind (42_slide.md R154, R155). -/

/-- SLIDE_VALUE.k; `idx` is no operand of kinds 0 and 1. -/
def slideValueInstr (k : SlideKind) (idx : BitVec 8) (value : Word) : Instr :=
  match k with
  | .tempo => .slideValueTempo value
  | .reverbDepth => .slideValueReverbDepth value
  | .volume => .slideValueVolume idx value
  | .pan => .slideValuePan idx value
  | .pitchBend => .slideValuePitchBend idx value
  | .vibratoDepth => .slideValueVibratoDepth idx value
  | .tremoloDepth => .slideValueTremoloDepth idx value
  | .panLfoDepth => .slideValuePanLfoDepth idx value
  | .overlayBalance => .slideValueOverlayBalance idx value

/-- SLIDE_START.k; `idx` is no operand of kinds 0 and 1. -/
def slideStartInstr (k : SlideKind) (idx : BitVec 8) (length : BitVec 16) (slope : Word) : Instr :=
  match k with
  | .tempo => .slideStartTempo length slope
  | .reverbDepth => .slideStartReverbDepth length slope
  | .volume => .slideStartVolume idx length slope
  | .pan => .slideStartPan idx length slope
  | .pitchBend => .slideStartPitchBend idx length slope
  | .vibratoDepth => .slideStartVibratoDepth idx length slope
  | .tremoloDepth => .slideStartTremoloDepth idx length slope
  | .panLfoDepth => .slideStartPanLfoDepth idx length slope
  | .overlayBalance => .slideStartOverlayBalance idx length slope

/-- `n` steps of a slide unit (R150). -/
def slideSteps (p : Config.Params) (k : SlideKind) : Nat → Slide → Slide
  | 0, u => u
  | n + 1, u => slideSteps p k n (slideStep p k u)

/-! Runs (00_scope.md R16). -/

/-- The commands executed in order, to the first that does not answer a next state (there is none). -/
def execAll : List Instr → State → StepResult
  | [], s => .next s
  | i :: is, s =>
    match exec i s with
    | .next t => execAll is t
    | .fault r => .fault r
    | .refused r => .refused r

/-- What a run is observed by: the registers, the Instrument Table and `OUT`, not what stands on the ports (R16). -/
def observe (s : State) : State := { s with link := [], input := [] }

/-- The tempos that `m` consecutive BLOCK commands read, starting from `s` (41_timing.md R130). -/
def blockTempos : Nat → State → List Nat
  | 0, _ => []
  | m + 1, s =>
    s.tempo.value.toNat ::
      match exec .block s with
      | .next t => blockTempos m t
      | .fault _ | .refused _ => []

/-- The command may write `DELTA`, `WAKE` or `T_ACTIVE` of track `t` otherwise than by ticking it (41_timing.md R131). -/
def writesWait (t : TrackIx) : Instr → Bool
  | .setDelta idx _ | .trackStart idx | .trackFinish idx | .deviceFault idx => decide (idx.toNat = t.val)
  | .songInit => true
  | _ => false

/-- How many TICK commands of the list execute, and do not raise NO_TICK (R131). -/
def executedTicks : List Instr → State → Nat
  | [], _ => 0
  | i :: is, s =>
    (if i = .tick ∧ s.ticksPending ≠ 0 then 1 else 0) +
      match exec i s with
      | .next t => executedTicks is t
      | .fault _ | .refused _ => 0

end Sys2Proof.Machine
end

