-- ==== Sys2Proof/Certificates/Slice0/Obligations.lean ====
section
/-! DEFINITION. The statements about the block for the provers. Each docstring names the rule it formalises. A statement
about a raise names the state `raised d op s`: the `ERROR` bit of `d` set, `Diag(d, op)` appended, nothing else.
Where a rule writes out the number that 00_scope.md R7 gives a parameter (2^32 for 2^`TC_WIDTH`, 7 bits for `AR_W`), the
statement has the parameter, which R7 says a model takes as an argument; with R7's values it reads as the rule does. -/

open Sys2Proof Sys2Proof.Machine

/-! Encoding. -/

/-- One word of each family, written out from the field layout of 30_encoding.md R90 and the opcode map R92. -/
def Obligations.SampleWordsDecode : Prop :=
  decode 0x0303003000000000 = .command (.setDelta 3 48) ∧
  decode 0x22020004FFFFFFE7 = .command (.slideStartVolume 2 4 0xFFFFFFE7) ∧
  decode 0x1803000000000064 = .command (.slideValueOverlayBalance 3 100) ∧
  decode 0x3B03000500000000 = .command (.voiceBind 3 5) ∧
  decode 0x3A0200000000000F = .command (.voicesQuery 2 0x0F) ∧
  decode 0x400900060000007F = .command (.instrWrite 9 6 0x7F) ∧
  decode 0x4D03000000002400 = .command (.setLoopAddr 3 0x2400) ∧
  decode 0x0C37020000000000 = .command (.regRead 55 0x200) ∧
  decode 0x1902000000000001 = .reservedOpcode 0x19

/-- Decoding the word of a command gives the command, with every operand at every value its field holds (R90, R91, R92,
R98). -/
def Obligations.DecodeEncodeRoundTrip : Prop := ∀ i : Instr, decode (encode i) = .command i

/-- A word that decodes to a command is the command's own word in every bit that its format uses, so that the bits its
format does not use make no difference (R91, R96). -/
def Obligations.EncodeKeepsUsedBits : Prop :=
  ∀ (w : CmdWord) (i : Instr), decode w = .command i →
    encode i = w &&& usedMask i ∧ decode (w &&& usedMask i) = .command i

/-- R94: a reserved op byte raises ILLEGAL_OP and changes no other state, and the block goes on; every other op byte is a
command. -/
def Obligations.ReservedOpcodesRaiseIllegalOp : Prop :=
  ∀ w : CmdWord,
    (reservedOp (opField w) = true → ∀ (s : State) (rest : List PortInput), s.input = .command w :: rest →
      step s = .next (raised .illegalOp (opField w) { s with input := rest })) ∧
    (reservedOp (opField w) = false → ∃ i : Instr, decode w = .command i)

/-! The step and the inputs. -/

/-- A step takes the oldest input, and a command word on the command port runs as the command it decodes to; with no
input the block holds all its state (00_scope.md R12, R15, 60_exceptions.md R293). -/
def Obligations.StepRunsDecodedCommand : Prop :=
  (∀ (s : State) (w : CmdWord) (i : Instr) (rest : List PortInput), s.input = .command w :: rest →
    decode w = .command i → step s = exec i { s with input := rest }) ∧
  (∀ s : State, s.input = [] → step s = .next s)

/-- Any list of command words sent byte by byte, least significant byte first, runs exactly as the same words given to the
command port whole (20_memory.md R75, R76). -/
def Obligations.SerialLinkRunsSameCommands : Prop :=
  ∀ (ws : List CmdWord) (s : State), s.link = [] → s.input = [] →
    ∃ t : State,
      Host.Core.run core (8 * ws.length) { s with input := (ws.flatMap wordBytes).map PortInput.byte } = .next t ∧
      Host.Core.run core ws.length { s with input := ws.map PortInput.command } = .next t

/-- Fewer than 8 bytes are not a command: they change nothing but the part-word (20_memory.md R76). -/
def Obligations.PartWordIsNoCommand : Prop :=
  ∀ (bs : List Byte) (s : State), bs.length < 8 → s.link = [] → s.input = bs.map PortInput.byte →
    Host.Core.run core bs.length s = .next { s with link := bs, input := [] }

/-- R300: reset, taken between two commands, sets every piece of state of 10_state.md R62 to its reset value and emits no
event. The last clause, that what the host has still to send stays, is the model's choice (assumption log 8), not R300's. -/
def Obligations.ResetInputClearsState : Prop :=
  ∀ (s : State) (rest : List PortInput), s.input = .reset :: rest →
    ∃ t : State, step s = .next t ∧
      t.timeCounter = 0 ∧ t.ticksPending = 0 ∧ t.reverbType = 0 ∧ t.error = 0 ∧ t.result = 0 ∧
      t.activeVoices = 0 ∧ t.keyOnVoices = 0 ∧ t.keyedVoices = 0 ∧ t.keyOffVoices = 0 ∧ t.savedActiveVoices = 0 ∧
      t.noiseVoices = 0 ∧ t.reverbVoices = 0 ∧ t.pitchLfoVoices = 0 ∧ t.featureDirty = 0b111 ∧ t.out = [] ∧
      (∀ (k : SlideKind) (u : TrackIx), slideUnit k u t = ⟨0, 0, 0⟩) ∧
      (∀ u : TrackIx, t.tracks[u].active = false ∧ t.tracks[u].wake = false ∧ t.tracks[u].delta = 0 ∧
        t.tracks[u].primary = none ∧ t.tracks[u].secondary = none ∧
        shadowOf t.tracks[u] = (0, 0, 0, 0, 0, ⟨0, 0, 0, 0, 0, 0, 0, 0⟩, 0)) ∧
      (∀ e f : Nat, memRead t.instrTable e f = 0) ∧ t.input = rest

/-! Invariants. -/

/-- The invariants of 10_state.md R33 and R42 hold after reset (R62), every register is within its width (R23), and the
Instrument Table is in canonical form; that last clause's form is the model's choice (assumption log 7). -/
def Obligations.InvariantsHoldAtReset : Prop :=
  VoiceInv State.reset ∧ PrimariesDistinct State.reset ∧ RegistersFit State.reset ∧ TableCanonical State.reset

/-- R208: every command preserves INV1 to INV4 and the uniqueness of the primary bindings, and reset establishes them;
said of every step, from every state that has them. -/
def Obligations.StepKeepsVoiceInvariants : Prop :=
  (VoiceInv State.reset ∧ PrimariesDistinct State.reset) ∧
  (∀ (i : Instr) (s t : State), VoiceInv s → PrimariesDistinct s → exec i s = .next t →
    VoiceInv t ∧ PrimariesDistinct t) ∧
  (∀ s t : State, VoiceInv s → PrimariesDistinct s → step s = .next t → VoiceInv t ∧ PrimariesDistinct t)

/-- Every step keeps the Instrument Table in canonical form, and every register within its width (10_state.md R23). Rising
cells and no cell listed at 0 are the model's canonical form, a choice of assumption log 7; that every listed field is
within its width is 20_memory.md R71. -/
def Obligations.StepKeepsTableAndWidths : Prop :=
  (∀ s t : State, TableCanonical s → step s = .next t → TableCanonical t) ∧
  (∀ s t : State, TableCanonical s → RegistersFit s → step s = .next t → RegistersFit t)

/-! Registers. -/

/-- R26: the bits of `STATUS`, and the two outputs that follow them. -/
def Obligations.StatusBitsSummariseState : Prop :=
  ∀ s : State,
    ((status s).getLsbD 0 = true ↔ ∃ t : TrackIx, IsTrack s.params t ∧ s.tracks[t].active = true ∧ s.tracks[t].wake = true) ∧
    ((status s).getLsbD 1 = true ↔ s.ticksPending ≠ 0) ∧
    ((status s).getLsbD 2 = true ↔ s.error ≠ 0) ∧
    ((status s).getLsbD 3 = true ↔ s.featureDirty ≠ 0) ∧
    ((status s).getLsbD 4 = true ↔ s.keyOnVoices ||| s.keyOffVoices ≠ 0) ∧
    ((status s).getLsbD 5 = true ↔ ∃ t : TrackIx, IsTrack s.params t ∧ s.tracks[t].update ≠ 0 ∧
      (s.tracks[t].primary ≠ none ∨ s.tracks[t].secondary ≠ none)) ∧
    (∀ n : Nat, 6 ≤ n → (readReg .status 0 0 s).getLsbD n = false) ∧
    (∀ n : Nat, n < 6 → (readReg .status 0 0 s).getLsbD n = (status s).getLsbD n) ∧
    wakeOut s = (status s).getLsbD 0 ∧ errOut s = (status s).getLsbD 2

/-- R36: `TRACK_ACTIVE_LO`, `TRACK_ACTIVE_HI`, `WAKE_LO` and `WAKE_HI` are views of the tracks, 0 beyond the last. -/
def Obligations.TrackSummariesViewTracks : Prop :=
  ∀ (s : State) (i : Fin 32) (u : TrackIx) (e : Nat),
    let lo : TrackIx := ⟨i.val, Nat.lt_of_lt_of_le i.isLt (by decide)⟩
    let hi : TrackIx := ⟨32 + i.val, Nat.add_lt_add_left i.isLt 32⟩
    (readReg .trackActiveLo u e s).getLsbD i = (decide (i.val < s.params.numTracks.val) && s.tracks[lo].active) ∧
    (readReg .trackActiveHi u e s).getLsbD i = (decide (32 + i.val < s.params.numTracks.val) && s.tracks[hi].active) ∧
    (readReg .wakeLo u e s).getLsbD i = (decide (i.val < s.params.numTracks.val) && s.tracks[lo].wake) ∧
    (readReg .wakeHi u e s).getLsbD i = (decide (32 + i.val < s.params.numTracks.val) && s.tracks[hi].wake)

/-- The fields of `TRACK_CTRL`, `BIND`, `ADSR_MODES` and `ADSR_RATES` stand where R39, R41, R48 and R49 put them, and their
other bits read 0: the ADSR fields for every width of them, and, in a track whose fields are of R7's widths, at R49's bits. -/
def Obligations.PackedRegisterLayouts : Prop :=
  (∀ tr : Track,
    ((trackCtrlWord tr).getLsbD 0 = tr.active ∧ (trackCtrlWord tr).getLsbD 1 = tr.wake ∧
      (trackCtrlWord tr).extractLsb' 2 30 = 0) ∧
    ((bindWord tr).extractLsb' 0 5 = tr.primary.getD 0 ∧ (bindWord tr).extractLsb' 5 2 = 0 ∧
      (bindWord tr).getLsbD 7 = tr.primary.isSome ∧
      (bindWord tr).extractLsb' 8 5 = (tr.secondary.map Secondary.voice).getD 0 ∧ (bindWord tr).getLsbD 13 = false ∧
      (bindWord tr).getLsbD 14 = decide (tr.secondary.map Secondary.kind = some .alternate) ∧
      (bindWord tr).getLsbD 15 = tr.secondary.isSome ∧ (bindWord tr).extractLsb' 16 16 = 0) ∧
    ((adsrModesWord tr.adsr).extractLsb' 0 2 = tr.adsr.attackMode ∧
      (adsrModesWord tr.adsr).extractLsb' 2 2 = tr.adsr.decayMode ∧
      (adsrModesWord tr.adsr).extractLsb' 4 2 = tr.adsr.releaseMode ∧ (adsrModesWord tr.adsr).extractLsb' 6 26 = 0) ∧
    ((adsrRatesWord tr.adsr).extractLsb' 0 8 = tr.adsr.attackRate ∧
      (adsrRatesWord tr.adsr).extractLsb' 8 8 = tr.adsr.decayRate ∧
      (adsrRatesWord tr.adsr).extractLsb' 16 8 = tr.adsr.sustainRate ∧
      (adsrRatesWord tr.adsr).extractLsb' 24 8 = tr.adsr.releaseRate)) ∧
  (∀ (p : Config.Params) (a : Adsr) (n : Nat), AdsrFits p a →
    (p.arW.val ≤ n ∧ n < 8 ∨ 8 + p.drW.val ≤ n ∧ n < 16 ∨ 16 + p.srW.val ≤ n ∧ n < 24 ∨ 24 + p.rrW.val ≤ n) →
    (adsrRatesWord a).getLsbD n = false) ∧
  (∀ a : Adsr, AdsrFits Config.defaultParams a →
    ((adsrRatesWord a).extractLsb' 0 7).toNat = a.attackRate.toNat ∧
    ((adsrRatesWord a).extractLsb' 8 4).toNat = a.decayRate.toNat ∧
    ((adsrRatesWord a).extractLsb' 16 7).toNat = a.sustainRate.toNat ∧
    ((adsrRatesWord a).extractLsb' 24 5).toNat = a.releaseRate.toNat ∧
    (adsrRatesWord a).getLsbD 7 = false ∧ (adsrRatesWord a).extractLsb' 12 4 = 0 ∧
    (adsrRatesWord a).getLsbD 23 = false ∧ (adsrRatesWord a).extractLsb' 29 3 = 0)

/-- R53: the unmapped register numbers; `REG_READ` of one raises BAD_REG and `RESULT` is 0, whatever the index. -/
def Obligations.UnmappedNumbersRaiseBadReg : Prop :=
  ∀ (idx : BitVec 8) (n : BitVec 16) (s : State),
    (unmappedNumber n.toNat = true ↔ regOfNumber n.toNat = none) ∧
    (unmappedNumber n.toNat = true → exec (.regRead idx n) s = .next (raised .badReg 0x0C { s with result := 0 }))

/-- `REG_READ` of every register that has no index latches its value, whatever `idx` is, and changes nothing else
(10_state.md R23, R24, R25, 45_system.md R261); with R7's values of the parameters `ID` is 0x01103820. -/
def Obligations.RegReadLatchesPlayerRegisters : Prop :=
  (∀ (idx : BitVec 8) (s : State), ∀ p ∈ playerRegisters s,
    exec (.regRead idx p.1) s = .next { s with result := p.2 }) ∧
  (∀ (idx : BitVec 8) (s : State), s.params = Config.defaultParams →
    exec (.regRead idx 0x000) s = .next { s with result := 0x01103820 })

/-- `REG_READ` of a register indexed by track or by Instrument Table entry latches the value of that track or entry and
changes nothing else; a track or an entry out of range raises INDEX_RANGE and `RESULT` is 0 (R23, R24, R38, R51, R261). -/
def Obligations.RegReadLatchesIndexedRegisters : Prop :=
  (∀ (idx : BitVec 8) (s : State) (k : TrackIx), NamesTrack s.params idx k → ∀ p ∈ trackRegisters s.tracks[k],
    exec (.regRead idx p.1) s = .next { s with result := p.2 }) ∧
  (∀ (idx : BitVec 8) (s : State) (tr : Track), s.params.numTracks.val ≤ idx.toNat → ∀ p ∈ trackRegisters tr,
    exec (.regRead idx p.1) s = .next (raised .indexRange 0x0C { s with result := 0 })) ∧
  (∀ (idx : BitVec 8) (s : State) (f : Nat), f ≤ 11 →
    (idx.toNat < s.params.numInstr.val → exec (.regRead idx (BitVec.ofNat 16 (0x300 + f))) s =
      .next { s with result := memRead s.instrTable idx.toNat f }) ∧
    (s.params.numInstr.val ≤ idx.toNat → exec (.regRead idx (BitVec.ofNat 16 (0x300 + f))) s =
      .next (raised .indexRange 0x0C { s with result := 0 })))

/-- A read changes nothing but `RESULT`, `ERROR` and `OUT`, and reading again gives the same `RESULT` (20_memory.md R78). -/
def Obligations.ReadsAreIdempotent : Prop :=
  ∀ (i : Instr) (s : State), (∃ idx n, i = .regRead idx n) ∨ (∃ sel m, i = .voicesQuery sel m) →
    ∃ t u : State, exec i s = .next t ∧ exec i t = .next u ∧
      t = { s with result := t.result, error := t.error, out := t.out } ∧
      u = { t with out := u.out }

/-- R202: `VOICES_QUERY` masks the bitset at register number 0x010 + sel; a selector out of range raises INDEX_RANGE and
`RESULT` is 0. -/
def Obligations.VoicesQueryMasksBitset : Prop :=
  ∀ (sel : BitVec 8) (mask : Word) (s : State),
    (sel.toNat < 8 → ∃ r : Reg, regOfNumber (0x010 + sel.toNat) = some r ∧
      exec (.voicesQuery sel mask) s = .next { s with result := readReg r 0 0 s &&& mask }) ∧
    (8 ≤ sel.toNat →
      exec (.voicesQuery sel mask) s = .next (raised .indexRange 0x3A { s with result := 0 }))

/-! System commands. -/

/-- R260: `NOP` leaves every register and `OUT` unchanged. -/
def Obligations.NopChangesNothing : Prop := ∀ s : State, exec .nop s = .next s

/-- R262: `STATUS_CLEAR` clears the `ERROR` bits of the mask's low ten and changes nothing else. -/
def Obligations.StatusClearClearsMaskedBits : Prop :=
  ∀ (mask : Word) (s : State), ∃ t : State, exec (.statusClear mask) s = .next t ∧ t = { s with error := t.error } ∧
    ∀ n : Nat, n < 10 → t.error.getLsbD n = (s.error.getLsbD n && !mask.getLsbD n)

/-- R263: `SONG_INIT` emits a KeyOff for every keyed voice, ascending, and sets every state element to its reset value but
`ERROR`, `RESULT`, the Instrument Table and `OUT`. -/
def Obligations.SongInitReinitialises : Prop :=
  ∀ s : State, exec .songInit s = .next { State.reset with
    params := s.params
    error := s.error
    result := s.result
    instrTable := s.instrTable
    out := s.out ++ (ascending s.params.numVoices.val s.keyedVoices).map Event.keyOff
    link := s.link
    input := s.input }

/-! Timing. -/

/-- R120: `crossings` is the number of multiples of 2^`FRAC_BITS` that the sum passes, at most 65536 with `FRAC_BITS` = 16
and 32-bit operands. -/
def Obligations.CrossingsCountBoundaries : Prop :=
  (∀ f tc tempo : Nat, crossings f tc tempo = (tc % 2 ^ f + tempo) >>> f ∧
    crossings f tc tempo = (tc + tempo) / 2 ^ f - tc / 2 ^ f) ∧
  (∀ tc tempo : Word, crossings 16 tc.toNat tempo.toNat ≤ 65536)

/-- R121: `BLOCK`; 2^32 there is 2^`TC_WIDTH` for the counter and 2^`TP_WIDTH` for the pending ticks. -/
def Obligations.BlockIntegratesTempo : Prop :=
  ∀ s : State,
    let f := s.params.fracBits.val
    let most := 2 ^ s.params.tpWidth.val - 1
    let n := (s.timeCounter.toNat % 2 ^ f + s.tempo.value.toNat) / 2 ^ f
    ∃ t : State, exec .block s = .next t ∧
      t.timeCounter.toNat = (s.timeCounter.toNat + s.tempo.value.toNat) % 2 ^ s.params.tcWidth.val ∧
      t.tempo = slideStep s.params .tempo s.tempo ∧
      (s.ticksPending.toNat + n ≤ most →
        t.ticksPending.toNat = s.ticksPending.toNat + n ∧ t.error = s.error ∧ t.out = s.out) ∧
      (most < s.ticksPending.toNat + n →
        t.ticksPending.toNat = most ∧ t.error = (raised .ticksSat 0x01 s).error ∧
        t.out = s.out ++ [.diag .ticksSat 0x01]) ∧
      t = { s with timeCounter := t.timeCounter, tempo := t.tempo, ticksPending := t.ticksPending,
                   error := t.error, out := t.out }

/-- R130: over `m` consecutive BLOCKs with no saturation no fractional tick is lost or invented, the counter being at
least `FRAC_BITS` wide, as it is by R7. -/
def Obligations.BlocksLoseNoFraction : Prop :=
  ∀ (m : Nat) (s : State),
    let f := s.params.fracBits.val
    let sum := s.timeCounter.toNat % 2 ^ f + (blockTempos m s).sum
    f ≤ s.params.tcWidth.val →
    s.ticksPending.toNat + sum / 2 ^ f ≤ 2 ^ s.params.tpWidth.val - 1 →
    ∃ t : State, execAll (List.replicate m .block) s = .next t ∧
      t.ticksPending.toNat = s.ticksPending.toNat + sum / 2 ^ f ∧ t.timeCounter.toNat % 2 ^ f = sum % 2 ^ f

/-- R122: `TICK`. Every active track counts down, wakes on reaching zero and steps its seven slides; an inactive track is
untouched; the reverb depth steps; nothing is emitted. With no tick pending NO_TICK is raised. -/
def Obligations.TickAdvancesActiveTracks : Prop :=
  (∀ s : State, s.ticksPending = 0 → exec .tick s = .next (raised .noTick 0x02 s)) ∧
  (∀ s : State, s.ticksPending ≠ 0 →
    ∃ t : State, exec .tick s = .next t ∧
      t.ticksPending.toNat = s.ticksPending.toNat - 1 ∧
      t.reverbDepth = slideStep s.params .reverbDepth s.reverbDepth ∧
      (∀ u : TrackIx, s.tracks[u].active = false ∨ ¬ IsTrack s.params u → t.tracks[u] = s.tracks[u]) ∧
      (∀ u : TrackIx, IsTrack s.params u → s.tracks[u].active = true →
        t.tracks[u].delta.toNat = s.tracks[u].delta.toNat - 1 ∧
        (t.tracks[u].wake = true ↔ s.tracks[u].wake = true ∨ s.tracks[u].delta = 1) ∧
        (∀ k : SlideKind, slideIsPerTrack k = true → slideUnit k u t = slideStep s.params k (slideUnit k u s)) ∧
        shadowOf t.tracks[u] = shadowOf s.tracks[u] ∧ t.tracks[u].active = true ∧
        t.tracks[u].primary = s.tracks[u].primary ∧ t.tracks[u].secondary = s.tracks[u].secondary) ∧
      t = { s with ticksPending := t.ticksPending, tracks := t.tracks, reverbDepth := t.reverbDepth })

/-- R131: an active track given `SET_DELTA t, d` with d > 0, d being a count of `DELTA_WIDTH` bits, is awake from the d-th
later executed TICK on and not before, as long as no later command writes its counter or its activity. -/
def Obligations.TrackWakesOnItsDeltaTick : Prop :=
  ∀ (k : TrackIx) (d : BitVec 16) (s : State) (is : List Instr), IsTrack s.params k → s.tracks[k].active = true →
    d ≠ 0 → d.toNat < 2 ^ s.params.deltaWidth.val → (∀ i ∈ is, writesWait k i = false) →
    ∃ s1 u : State, exec (.setDelta (BitVec.ofNat 8 k.val) d) s = .next s1 ∧ execAll is s1 = .next u ∧
      u.tracks[k].wake = decide (d.toNat ≤ executedTicks is s1) ∧
      u.tracks[k].delta.toNat = d.toNat - executedTicks is s1

/-- R123: `SET_DELTA`. -/
def Obligations.SetDeltaLoadsCounter : Prop :=
  ∀ (idx : BitVec 8) (n : BitVec 16) (s : State),
    (∀ k : TrackIx, NamesTrack s.params idx k → ∃ t : State, exec (.setDelta idx n) s = .next t ∧ OnlyTrackChanges k s t ∧
      t.tracks[k] = { s.tracks[k] with
        delta := narrow s.params.deltaWidth.val n, wake := decide (n = 0) }) ∧
    (s.params.numTracks.val ≤ idx.toNat → exec (.setDelta idx n) s = .next (raised .indexRange 0x03 s))

/-- R124: `TRACK_START`. -/
def Obligations.TrackStartMakesTrackLive : Prop :=
  ∀ (idx : BitVec 8) (s : State),
    (∀ k : TrackIx, NamesTrack s.params idx k → ∃ t : State, exec (.trackStart idx) s = .next t ∧ OnlyTrackChanges k s t ∧
      t.tracks[k] = { s.tracks[k] with active := true, delta := 0, wake := true }) ∧
    (s.params.numTracks.val ≤ idx.toNat → exec (.trackStart idx) s = .next (raised .indexRange 0x04 s))

/-- R125, R126: `TRACK_FINISH` releases the track's voices, a keyed one becoming key-off-pending and any other idle,
unbinds them, and returns the track to idle with its slides stopped; it emits nothing. That a voice v with
`BITSET_WIDTH` <= v < `NUM_VOICES` has no key-off bit to set is the model's choice (assumption log 2), not that of
R125. -/
def Obligations.TrackFinishReleasesAndIdles : Prop :=
  ∀ (idx : BitVec 8) (s : State),
    (∀ k : TrackIx, NamesTrack s.params idx k → ∃ t : State, exec (.trackFinish idx) s = .next t ∧
      (∀ v : Voice,
        hasVoice t.keyOffVoices v = (hasVoice s.keyOffVoices v || (boundTo s.tracks[k] v &&
          hasVoice s.keyedVoices v && decide (v.toNat < s.params.bitsetWidth.val))) ∧
        hasVoice t.keyOnVoices v = (hasVoice s.keyOnVoices v && !boundTo s.tracks[k] v) ∧
        hasVoice t.activeVoices v =
          (hasVoice s.activeVoices v && (!boundTo s.tracks[k] v || hasVoice s.keyedVoices v))) ∧
      t.tracks[k] = { s.tracks[k] with
        primary := none
        secondary := none
        active := false
        wake := false
        delta := 0
        update := 0
        volume := { s.tracks[k].volume with remaining := 0 }
        pan := { s.tracks[k].pan with remaining := 0 }
        pitchBend := { s.tracks[k].pitchBend with remaining := 0 }
        vibratoDepth := { s.tracks[k].vibratoDepth with remaining := 0 }
        tremoloDepth := { s.tracks[k].tremoloDepth with remaining := 0 }
        panLfoDepth := { s.tracks[k].panLfoDepth with remaining := 0 }
        overlayBalance := { s.tracks[k].overlayBalance with remaining := 0 } } ∧
      (∀ u : TrackIx, u ≠ k → t.tracks[u] = s.tracks[u]) ∧
      t = { s with keyOffVoices := t.keyOffVoices, keyOnVoices := t.keyOnVoices, activeVoices := t.activeVoices,
                   tracks := t.tracks }) ∧
    (s.params.numTracks.val ≤ idx.toNat → exec (.trackFinish idx) s = .next (raised .indexRange 0x05 s))

/-- R127: `DEVICE_FAULT` notes DEVICE_FAULT and then finishes the track as TRACK_FINISH does. -/
def Obligations.DeviceFaultNotesAndFinishes : Prop :=
  ∀ (idx : BitVec 8) (s : State),
    (idx.toNat < s.params.numTracks.val → ∃ t : State, exec (.deviceFault idx) s = .next t ∧
      exec (.trackFinish idx) (raised .deviceFault 0x08 s) = .next t ∧
      t.out = s.out ++ [.diag .deviceFault 0x08] ∧ t.error.getLsbD 6 = true) ∧
    (s.params.numTracks.val ≤ idx.toNat → exec (.deviceFault idx) s = .next (raised .indexRange 0x08 s))

/-- R128: `TIME_SET` writes the time counter and nothing else, and only the low `FRAC_BITS` bits of the value matter later:
two values that agree in them give runs that differ in the time counter and in what REG_READ latches and in nothing else,
and not in `RESULT` either where no command reads register 0x003. -/
def Obligations.TimeSetWritesCounter : Prop :=
  (∀ (v : Word) (s : State),
    exec (.timeSet v) s = .next { s with timeCounter := BitVec.ofNat 32 (v.toNat % 2 ^ s.params.tcWidth.val) }) ∧
  (∀ (v v' : Word) (s : State) (is : List Instr),
    v.toNat % 2 ^ s.params.fracBits.val = v'.toNat % 2 ^ s.params.fracBits.val →
    ∃ t t' : State, execAll (.timeSet v :: is) s = .next t ∧ execAll (.timeSet v' :: is) s = .next t' ∧
      t' = { t with timeCounter := t'.timeCounter, result := t'.result } ∧
      t'.timeCounter.toNat % 2 ^ s.params.fracBits.val = t.timeCounter.toNat % 2 ^ s.params.fracBits.val ∧
      ((∀ idx : BitVec 8, Instr.regRead idx 0x003 ∉ is) → t'.result = t.result))

/-- R129: `REVERB_TYPE_SET` writes the reverb type and nothing else; no event is emitted. -/
def Obligations.ReverbTypeSetStoresValue : Prop :=
  ∀ (v : Word) (s : State), exec (.reverbTypeSet v) s = .next { s with reverbType := v }

/-! Slides. -/

/-- R150: a step of a unit that still moves adds the slope, clamps into the kind's range and counts down; a unit at rest
does not change. In the default ranges the clamp is a saturation: the value never wraps. -/
def Obligations.SlideStepAddsAndClamps : Prop :=
  (∀ (p : Config.Params) (k : SlideKind) (u : Slide), u.remaining = 0 → slideStep p k u = u) ∧
  (∀ (p : Config.Params) (k : SlideKind) (u : Slide), u.remaining ≠ 0 →
    let w := p.slideValueWidth.val
    let num : Int := if k = .tempo then u.value.toNat else (u.value.setWidth w).toInt
    let x := num + (u.slope.setWidth p.slideSlopeWidth.val).toInt
    let y := if x < (slideRange p k).lo then (slideRange p k).lo
      else if (slideRange p k).hi < x then (slideRange p k).hi else x
    slideStep p k u = ⟨narrow w (BitVec.ofInt 32 y), u.slope, u.remaining - 1⟩) ∧
  (∀ (k : SlideKind) (u : Slide), u.remaining ≠ 0 →
    slideNum Config.defaultParams k (slideStep Config.defaultParams k u).value =
      max (if k = .tempo then 0 else -2 ^ 31)
        (min (if k = .tempo then 2 ^ 32 - 1 else 2 ^ 31 - 1)
          (slideNum Config.defaultParams k u.value + u.slope.toInt)))

/-- R152: a unit set to V and started with slope S and length N, as its registers hold them, holds exactly V + N*S after N
steps and through every later one, where no intermediate value leaves the kind's range, for every range that the value
register can hold, as R7's ranges are. -/
def Obligations.SlideReachesTargetExactly : Prop :=
  ∀ (p : Config.Params) (k : SlideKind) (u : Slide) (v slope : Word) (len : BitVec 16) (n : Nat),
    let S := (slope.setWidth p.slideSlopeWidth.val).toInt
    let N := len.toNat % 2 ^ p.slideLenWidth.val
    (valueRange p k).lo ≤ (slideRange p k).lo → (slideRange p k).hi ≤ (valueRange p k).hi →
    (∀ i : Nat, i ≤ N →
      (slideRange p k).lo ≤ slideData k v + i * S ∧ slideData k v + i * S ≤ (slideRange p k).hi) →
    N ≤ n →
    let w := slideSteps p k n (slideSetSlope p len slope (slideSetValue p k v u))
    slideNum p k w.value = slideData k v + N * S ∧ w.remaining = 0

/-- R153: a unit at rest keeps its value through any number of steps, and so does a unit whose slope is 0, the value being
one its register can hold and within the kind's range, as it always is with R7's widths and ranges. -/
def Obligations.RestingSlideKeepsValue : Prop :=
  (∀ (p : Config.Params) (k : SlideKind) (u : Slide) (n : Nat),
    u.remaining = 0 ∨ (u.slope = 0 ∧ Fits p.slideValueWidth.val u.value ∧
      (slideRange p k).lo ≤ slideNum p k u.value ∧ slideNum p k u.value ≤ (slideRange p k).hi) →
    (slideSteps p k n u).value = u.value) ∧
  (∀ (k : SlideKind) (u : Slide) (n : Nat), u.slope = 0 →
    (slideSteps Config.defaultParams k n u).value = u.value)

/-- R154 for the nine SLIDE_VALUE commands: the unit's value is set and clamped, its slide stops, its slope is kept, and no
other unit and nothing but slides changes (R174). For kinds 2 to 8 a track out of range raises INDEX_RANGE. -/
def Obligations.SlideValueSetsUnit : Prop :=
  ∀ (k : SlideKind) (idx : BitVec 8) (x : Word) (s : State),
    (∀ u : TrackIx, (slideIsPerTrack k = true → NamesTrack s.params idx u) →
      ∃ t : State, exec (slideValueInstr k idx x) s = .next t ∧
        (let num : Int := if k = .tempo then x.toNat else x.toInt
         let y := if num < (slideRange s.params k).lo then (slideRange s.params k).lo
           else if (slideRange s.params k).hi < num then (slideRange s.params k).hi else num
         slideUnit k u t =
          ⟨narrow s.params.slideValueWidth.val (BitVec.ofInt 32 y), (slideUnit k u s).slope, 0⟩) ∧
        (∀ (k' : SlideKind) (u' : TrackIx), k' ≠ k ∨ (slideIsPerTrack k = true ∧ u' ≠ u) →
          slideUnit k' u' t = slideUnit k' u' s) ∧
        OnlySlidesChange s t) ∧
    (slideIsPerTrack k = true → s.params.numTracks.val ≤ idx.toNat → exec (slideValueInstr k idx x) s =
      .next (raised .indexRange (BitVec.ofNat 8 (0x10 + slideNumber k)) s))

/-- R155 for the nine SLIDE_START commands: the unit's slope and length are set, its value is kept, and no other unit and
nothing but slides changes (R174). For kinds 2 to 8 a track out of range raises INDEX_RANGE. -/
def Obligations.SlideStartSetsSlopeAndLength : Prop :=
  ∀ (k : SlideKind) (idx : BitVec 8) (len : BitVec 16) (slope : Word) (s : State),
    (∀ u : TrackIx, (slideIsPerTrack k = true → NamesTrack s.params idx u) →
      ∃ t : State, exec (slideStartInstr k idx len slope) s = .next t ∧
        slideUnit k u t = ⟨(slideUnit k u s).value, narrow s.params.slideSlopeWidth.val slope,
          narrow s.params.slideLenWidth.val len⟩ ∧
        (∀ (k' : SlideKind) (u' : TrackIx), k' ≠ k ∨ (slideIsPerTrack k = true ∧ u' ≠ u) →
          slideUnit k' u' t = slideUnit k' u' s) ∧
        OnlySlidesChange s t) ∧
    (slideIsPerTrack k = true → s.params.numTracks.val ≤ idx.toNat → exec (slideStartInstr k idx len slope) s =
      .next (raised .indexRange (BitVec.ofNat 8 (0x20 + slideNumber k)) s))

/-! Voices. -/

/-- R191: `KEY_ON`. The note comes first and does not suppress the effect. That a voice v with `BITSET_WIDTH` <= v <
`NUM_VOICES` has no bit to set (`bitOf` is 0) is the model's choice (assumption log 2), not R191's. -/
def Obligations.KeyOnRequestsKeyOn : Prop :=
  ∀ (idx : BitVec 8) (s : State),
    (idx.toNat < s.params.numVoices.val →
      let s0 := if s.keyedVoices.getLsbD idx.toNat = true ∧ s.keyOffVoices.getLsbD idx.toNat = false
        then raised .keyonKeyed 0x30 s else s
      exec (.keyOn idx) s = .next { s0 with
        activeVoices := s.activeVoices ||| bitOf s.params idx.toNat
        keyOnVoices := s.keyOnVoices ||| bitOf s.params idx.toNat
        keyOffVoices := s.keyOffVoices &&& ~~~(1#32 <<< idx.toNat) }) ∧
    (s.params.numVoices.val ≤ idx.toNat → exec (.keyOn idx) s = .next (raised .indexRange 0x30 s))

/-- R190, R192: `KEY_OFF` notes KEYOFF_NOT_KEYED where the voice is neither keyed nor key-on-pending; a keyed voice
becomes key-off-pending with its re-key cancelled, any other is idle with its key-on cancelled. That a voice v with
`BITSET_WIDTH` <= v < `NUM_VOICES` has no key-off bit to set (`bitOf` is 0) is the model's choice (assumption log
2), not R190's. -/
def Obligations.KeyOffReleasesVoice : Prop :=
  ∀ (idx : BitVec 8) (s : State),
    (idx.toNat < s.params.numVoices.val →
      let s0 := if s.keyedVoices.getLsbD idx.toNat = false ∧ s.keyOnVoices.getLsbD idx.toNat = false
        then raised .keyoffNotKeyed 0x31 s else s
      exec (.keyOff idx) s = .next (if s.keyedVoices.getLsbD idx.toNat = true
        then { s0 with keyOffVoices := s.keyOffVoices ||| bitOf s.params idx.toNat
                       keyOnVoices := s.keyOnVoices &&& ~~~(1#32 <<< idx.toNat) }
        else { s0 with keyOnVoices := s.keyOnVoices &&& ~~~(1#32 <<< idx.toNat)
                       activeVoices := s.activeVoices &&& ~~~(1#32 <<< idx.toNat) })) ∧
    (s.params.numVoices.val ≤ idx.toNat → exec (.keyOff idx) s = .next (raised .indexRange 0x31 s))

/-- R209: the per-voice transitions of `KEY_ON`, of `KEY_OFF` and `release`, and of `RESOLVE`, with the notes and the
key events of each, for every voice the instance has. -/
def Obligations.VoiceTransitionTable : Prop :=
  ∀ (s : State) (v : Voice) (x : VoiceState), v.toNat < s.params.numVoices.val → v.toNat < s.params.bitsetWidth.val →
    voiceState s v = some x →
    (∃ t : State, exec (.keyOn (v.setWidth 8)) s = .next t ∧ voiceState t v = some (afterKeyOn x) ∧
      t.out = s.out ++ (if x = .keyed ∨ x = .rekeyPending then [.diag .keyonKeyed 0x30] else [])) ∧
    (∃ t : State, exec (.keyOff (v.setWidth 8)) s = .next t ∧ voiceState t v = some (afterKeyOff x) ∧
      t.out = s.out ++ (if x = .idle then [.diag .keyoffNotKeyed 0x31] else [])) ∧
    voiceState (release v s) v = some (afterKeyOff x) ∧ (release v s).out = s.out ∧
    (∃ (t : State) (es : List Event), exec .resolve s = .next t ∧ voiceState t v = some (afterResolve x) ∧
      t.out = s.out ++ es ∧ (Event.keyOn v ∈ es ↔ x = .keyOnPending ∨ x = .rekeyPending) ∧
      (Event.keyOff v ∈ es ↔ x = .keyOffPending))

/-- R193: `RESOLVE` emits every dirty register group, then the dirty feature words, then the key-offs, then the key-ons, and
commits the key bitsets. What a track emits is the subject of `TrackEmitsDirtyGroups`. -/
def Obligations.ResolveEmitsAndCommits : Prop :=
  ∀ s : State, ∃ t : State, exec .resolve s = .next t ∧
    t.out = s.out ++ (s.tracks.toList.take s.params.numTracks.val).flatMap (trackEvents s.params) ++
      (if s.featureDirty.getLsbD 0 = true then [.noiseWord s.noiseVoices] else []) ++
      (if s.featureDirty.getLsbD 1 = true then [.reverbWord s.reverbVoices] else []) ++
      (if s.featureDirty.getLsbD 2 = true then [.pitchLfoWord s.pitchLfoVoices] else []) ++
      (ascending s.params.numVoices.val s.keyOffVoices).map Event.keyOff ++
      (ascending s.params.numVoices.val s.keyOnVoices).map Event.keyOn ∧
    (∀ u : TrackIx, IsTrack s.params u → t.tracks[u] =
      if s.tracks[u].primary = none ∧ s.tracks[u].secondary = none then s.tracks[u]
      else { s.tracks[u] with update := 0 }) ∧
    (∀ u : TrackIx, ¬ IsTrack s.params u → t.tracks[u] = s.tracks[u]) ∧
    t = { s with
      keyedVoices := (s.keyedVoices &&& ~~~s.keyOffVoices) ||| s.keyOnVoices
      activeVoices := s.activeVoices &&& ~~~s.keyOffVoices
      keyOnVoices := 0
      keyOffVoices := 0
      featureDirty := 0
      tracks := t.tracks
      out := t.out }

/-- R194: a track emits its dirty groups in the order of their bits for its primary voice and then for its secondary, whose
volume is `OVERLAY_VOLUME` of its kind, the shadow pair and the overlay balance, each channel of `VOL_W` bits, and its
flags are cleared; an unbound track emits nothing and keeps its flags. -/
def Obligations.TrackEmitsDirtyGroups : Prop :=
  ∀ (p : Config.Params) (tr : Track),
    let dirty := (List.range 5).filter fun i => tr.update.getLsbD i
    let l := tr.volumeLr.extractLsb' 0 16
    let r := tr.volumeLr.extractLsb' 16 16
    trackEvents p tr =
      (tr.primary.map fun v => dirty.map (groupEvent tr v l r)).getD [] ++
      (tr.secondary.map fun b => dirty.map (groupEvent tr b.voice
        (narrow p.volW.val (Config.overlayVolume b.kind l r tr.overlayBalance.value).1)
        (narrow p.volW.val (Config.overlayVolume b.kind l r tr.overlayBalance.value).2))).getD [] ∧
    emittedTrack tr = if tr.primary = none ∧ tr.secondary = none then tr else { tr with update := 0 }

/-- R196 to R201: the six feature commands set or clear the voice's bit and mark the feature word dirty. That a
voice v with `BITSET_WIDTH` <= v < `NUM_VOICES` has no bit to set (`bitOf` is 0) is the model's choice (assumption
log 2), not that of R196, R198 and R200. -/
def Obligations.FeatureCommandsToggleBit : Prop :=
  ∀ (idx : BitVec 8) (s : State),
    (idx.toNat < s.params.numVoices.val →
      exec (.noiseOn idx) s = .next { s with
        noiseVoices := s.noiseVoices ||| bitOf s.params idx.toNat, featureDirty := s.featureDirty ||| 0b001 } ∧
      exec (.noiseOff idx) s = .next { s with
        noiseVoices := s.noiseVoices &&& ~~~(1#32 <<< idx.toNat), featureDirty := s.featureDirty ||| 0b001 } ∧
      exec (.reverbOn idx) s = .next { s with
        reverbVoices := s.reverbVoices ||| bitOf s.params idx.toNat, featureDirty := s.featureDirty ||| 0b010 } ∧
      exec (.reverbOff idx) s = .next { s with
        reverbVoices := s.reverbVoices &&& ~~~(1#32 <<< idx.toNat), featureDirty := s.featureDirty ||| 0b010 } ∧
      exec (.plfoOn idx) s = .next { s with
        pitchLfoVoices := s.pitchLfoVoices ||| bitOf s.params idx.toNat, featureDirty := s.featureDirty ||| 0b100 } ∧
      exec (.plfoOff idx) s = .next { s with
        pitchLfoVoices := s.pitchLfoVoices &&& ~~~(1#32 <<< idx.toNat), featureDirty := s.featureDirty ||| 0b100 }) ∧
    (s.params.numVoices.val ≤ idx.toNat →
      exec (.noiseOn idx) s = .next (raised .indexRange 0x34 s) ∧
      exec (.noiseOff idx) s = .next (raised .indexRange 0x35 s) ∧
      exec (.reverbOn idx) s = .next (raised .indexRange 0x36 s) ∧
      exec (.reverbOff idx) s = .next (raised .indexRange 0x37 s) ∧
      exec (.plfoOn idx) s = .next (raised .indexRange 0x38 s) ∧
      exec (.plfoOff idx) s = .next (raised .indexRange 0x39 s))

/-- R195: `SAVE_ACTIVE` copies the active bitset. -/
def Obligations.SaveActiveTakesSnapshot : Prop :=
  ∀ s : State, exec .saveActive s = .next { s with savedActiveVoices := s.activeVoices }

/-- R203: `VOICE_BIND` binds the primary and marks every group, refuses a voice another track holds as primary, and raises
INDEX_RANGE for a track or a voice out of range. -/
def Obligations.VoiceBindBindsPrimary : Prop :=
  ∀ (idx : BitVec 8) (imm : BitVec 16) (s : State),
    (∀ k : TrackIx, NamesTrack s.params idx k → imm.toNat < s.params.numVoices.val →
      ((∀ u : TrackIx, IsTrack s.params u → u ≠ k → s.tracks[u].primary ≠ some (BitVec.ofNat 5 imm.toNat)) →
        ∃ t : State, exec (.voiceBind idx imm) s = .next t ∧ OnlyTrackChanges k s t ∧
          t.tracks[k] =
            { s.tracks[k] with primary := some (BitVec.ofNat 5 imm.toNat), update := 0b11111 }) ∧
      ((∃ u : TrackIx, IsTrack s.params u ∧ u ≠ k ∧ s.tracks[u].primary = some (BitVec.ofNat 5 imm.toNat)) →
        exec (.voiceBind idx imm) s = .next (raised .bindConflict 0x3B s))) ∧
    (s.params.numTracks.val ≤ idx.toNat ∨ s.params.numVoices.val ≤ imm.toNat →
      exec (.voiceBind idx imm) s = .next (raised .indexRange 0x3B s))

/-- R204, R207: `VOICE_UNBIND` and `SECONDARY_OFF` release a binding of the track, and key nothing off. -/
def Obligations.UnbindCommandsReleaseBinding : Prop :=
  ∀ (idx : BitVec 8) (s : State),
    (∀ k : TrackIx, NamesTrack s.params idx k →
      (∃ t : State, exec (.voiceUnbind idx) s = .next t ∧ OnlyTrackChanges k s t ∧
        t.tracks[k] = { s.tracks[k] with primary := none }) ∧
      (∃ t : State, exec (.secondaryOff idx) s = .next t ∧ OnlyTrackChanges k s t ∧
        t.tracks[k] = { s.tracks[k] with secondary := none })) ∧
    (s.params.numTracks.val ≤ idx.toNat →
      exec (.voiceUnbind idx) s = .next (raised .indexRange 0x3C s) ∧
      exec (.secondaryOff idx) s = .next (raised .indexRange 0x3F s))

/-- R205, R206: `OVERLAY_ON` and `ALTERNATE_ON` bind the secondary with their kind and mark every group; no conflict is
checked. -/
def Obligations.SecondaryCommandsBindSecondary : Prop :=
  ∀ (idx : BitVec 8) (imm : BitVec 16) (s : State),
    (∀ k : TrackIx, NamesTrack s.params idx k → imm.toNat < s.params.numVoices.val →
      (∃ t : State, exec (.overlayOn idx imm) s = .next t ∧ OnlyTrackChanges k s t ∧
        t.tracks[k] = { s.tracks[k] with
          secondary := some ⟨BitVec.ofNat 5 imm.toNat, .overlay⟩, update := 0b11111 }) ∧
      (∃ t : State, exec (.alternateOn idx imm) s = .next t ∧ OnlyTrackChanges k s t ∧
        t.tracks[k] = { s.tracks[k] with
          secondary := some ⟨BitVec.ofNat 5 imm.toNat, .alternate⟩, update := 0b11111 })) ∧
    (s.params.numTracks.val ≤ idx.toNat ∨ s.params.numVoices.val ≤ imm.toNat →
      exec (.overlayOn idx imm) s = .next (raised .indexRange 0x3D s) ∧
      exec (.alternateOn idx imm) s = .next (raised .indexRange 0x3E s))

/-! Instrument Table, ADSR and shadow. -/

/-- R230: `INSTR_WRITE` stores the value modulo the field's width in the one field it names; every other field of the
table and all other state is unchanged. A field number above 11 raises BAD_REG, and then an entry out of range
INDEX_RANGE. -/
def Obligations.InstrWriteStoresField : Prop :=
  ∀ (e : BitVec 8) (f : BitVec 16) (x : Word) (s : State),
    (f.toNat ≤ 11 → e.toNat < s.params.numInstr.val → TableCanonical s →
      ∃ t : State, exec (.instrWrite e f x) s = .next t ∧
        (memRead t.instrTable e.toNat f.toNat).toNat = x.toNat % 2 ^ fieldWidth s.params f.toNat ∧
        (∀ e' f' : Nat, f' ≤ 11 → (e', f') ≠ (e.toNat, f.toNat) →
          memRead t.instrTable e' f' = memRead s.instrTable e' f') ∧
        t = { s with instrTable := t.instrTable }) ∧
    (f.toNat ≤ 11 → s.params.numInstr.val ≤ e.toNat →
      exec (.instrWrite e f x) s = .next (raised .indexRange 0x40 s)) ∧
    (11 < f.toNat → exec (.instrWrite e f x) s = .next (raised .badReg 0x40 s))

/-- R231: `LOAD_INSTR` copies the eleven data fields of a valid entry into the shadow, sets the id and marks four groups,
the volume untouched; an id out of range or an entry that is not valid raises INSTR_INVALID. -/
def Obligations.LoadInstrCopiesEntry : Prop :=
  ∀ (idx : BitVec 8) (id : BitVec 16) (s : State), TableCanonical s →
    (∀ k : TrackIx, NamesTrack s.params idx k →
      (id.toNat < s.params.numInstr.val → memRead s.instrTable id.toNat 11 ≠ 0 →
        ∃ t : State, exec (.loadInstr idx id) s = .next t ∧ OnlyTrackChanges k s t ∧
          t.tracks[k].addr = memRead s.instrTable id.toNat 0 ∧
          t.tracks[k].loopAddr = memRead s.instrTable id.toNat 1 ∧
          t.tracks[k].pitch.toNat = (memRead s.instrTable id.toNat 2).toNat ∧
          t.tracks[k].adsr.attackMode.toNat = (memRead s.instrTable id.toNat 3).toNat ∧
          t.tracks[k].adsr.decayMode.toNat = (memRead s.instrTable id.toNat 4).toNat ∧
          t.tracks[k].adsr.releaseMode.toNat = (memRead s.instrTable id.toNat 5).toNat ∧
          t.tracks[k].adsr.attackRate.toNat = (memRead s.instrTable id.toNat 6).toNat ∧
          t.tracks[k].adsr.decayRate.toNat = (memRead s.instrTable id.toNat 7).toNat ∧
          t.tracks[k].adsr.sustainRate.toNat = (memRead s.instrTable id.toNat 8).toNat ∧
          t.tracks[k].adsr.releaseRate.toNat = (memRead s.instrTable id.toNat 9).toNat ∧
          t.tracks[k].adsr.sustainLevel.toNat = (memRead s.instrTable id.toNat 10).toNat ∧
          t.tracks[k] = { s.tracks[k] with
            addr := t.tracks[k].addr
            loopAddr := t.tracks[k].loopAddr
            pitch := t.tracks[k].pitch
            adsr := t.tracks[k].adsr
            instrId := narrow s.params.instrIdW.val id
            update := s.tracks[k].update ||| 0b01111 }) ∧
      (s.params.numInstr.val ≤ id.toNat ∨ memRead s.instrTable id.toNat 11 = 0 →
        exec (.loadInstr idx id) s = .next (raised .instrInvalid 0x41 s))) ∧
    (s.params.numTracks.val ≤ idx.toNat → exec (.loadInstr idx id) s = .next (raised .indexRange 0x41 s))

/-- R232 to R239: each of the eight ADSR commands writes its one field, its operand masked to the field's width (the
sustain level shifted right by `SL_SHIFT` first), and marks the ADSR group. -/
def Obligations.AdsrCommandsWriteField : Prop :=
  ∀ (idx : BitVec 8) (x : BitVec 16) (s : State),
    (∀ k : TrackIx, NamesTrack s.params idx k →
      let writes (i : Instr) (a : Adsr) : Prop := ∃ t : State, exec i s = .next t ∧ OnlyTrackChanges k s t ∧
        t.tracks[k] = { s.tracks[k] with adsr := a, update := s.tracks[k].update ||| 0b00100 }
      writes (.setAttackRate idx x) { s.tracks[k].adsr with
        attackRate := BitVec.ofNat 8 (x.toNat % 2 ^ s.params.arW.val) } ∧
      writes (.setDecayRate idx x) { s.tracks[k].adsr with
        decayRate := BitVec.ofNat 8 (x.toNat % 2 ^ s.params.drW.val) } ∧
      writes (.setSustainRate idx x) { s.tracks[k].adsr with
        sustainRate := BitVec.ofNat 8 (x.toNat % 2 ^ s.params.srW.val) } ∧
      writes (.setReleaseRate idx x) { s.tracks[k].adsr with
        releaseRate := BitVec.ofNat 8 (x.toNat % 2 ^ s.params.rrW.val) } ∧
      writes (.setSustainLevel idx x) { s.tracks[k].adsr with
        sustainLevel := BitVec.ofNat 16 (x.toNat / 2 ^ s.params.slShift % 2 ^ s.params.slW.val) } ∧
      writes (.setAttackMode idx x) { s.tracks[k].adsr with
        attackMode := BitVec.ofNat 2 (x.toNat % 2 ^ s.params.modeW.val) } ∧
      writes (.setDecayMode idx x) { s.tracks[k].adsr with
        decayMode := BitVec.ofNat 2 (x.toNat % 2 ^ s.params.modeW.val) } ∧
      writes (.setReleaseMode idx x) { s.tracks[k].adsr with
        releaseMode := BitVec.ofNat 2 (x.toNat % 2 ^ s.params.modeW.val) }) ∧
    (s.params.numTracks.val ≤ idx.toNat →
      exec (.setAttackRate idx x) s = .next (raised .indexRange 0x42 s) ∧
      exec (.setDecayRate idx x) s = .next (raised .indexRange 0x43 s) ∧
      exec (.setSustainRate idx x) s = .next (raised .indexRange 0x44 s) ∧
      exec (.setReleaseRate idx x) s = .next (raised .indexRange 0x45 s) ∧
      exec (.setSustainLevel idx x) s = .next (raised .indexRange 0x46 s) ∧
      exec (.setAttackMode idx x) s = .next (raised .indexRange 0x47 s) ∧
      exec (.setDecayMode idx x) s = .next (raised .indexRange 0x48 s) ∧
      exec (.setReleaseMode idx x) s = .next (raised .indexRange 0x49 s))

/-- R240 to R243: the four shadow writes store their operand, of which R7's widths keep every bit, and mark their group. -/
def Obligations.ShadowCommandsWriteField : Prop :=
  ∀ (idx : BitVec 8) (x : BitVec 16) (y : Word) (s : State),
    (∀ k : TrackIx, NamesTrack s.params idx k →
      let writes (i : Instr) (tr : Track) : Prop := ∃ t : State, exec i s = .next t ∧
        OnlyTrackChanges k s t ∧ t.tracks[k] = tr
      writes (.setPitch idx x)
        { s.tracks[k] with pitch := narrow s.params.pitchW.val x, update := s.tracks[k].update ||| 0b01000 } ∧
      writes (.setVolume idx y)
        { s.tracks[k] with
          volumeLr := narrow s.params.volW.val (volR y) ++ narrow s.params.volW.val (volL y)
          update := s.tracks[k].update ||| 0b10000 } ∧
      writes (.setAddr idx y)
        { s.tracks[k] with addr := narrow s.params.addrW.val y, update := s.tracks[k].update ||| 0b00001 } ∧
      writes (.setLoopAddr idx y)
        { s.tracks[k] with loopAddr := narrow s.params.addrW.val y, update := s.tracks[k].update ||| 0b00010 }) ∧
    (s.params.pitchW = 16 ∧ s.params.volW = 16 ∧ s.params.addrW = 32 →
      narrow s.params.pitchW.val x = x ∧ narrow s.params.volW.val (volR y) ++ narrow s.params.volW.val (volL y) = y ∧
      narrow s.params.addrW.val y = y) ∧
    (s.params.numTracks.val ≤ idx.toNat →
      exec (.setPitch idx x) s = .next (raised .indexRange 0x4A s) ∧
      exec (.setVolume idx y) s = .next (raised .indexRange 0x4B s) ∧
      exec (.setAddr idx y) s = .next (raised .indexRange 0x4C s) ∧
      exec (.setLoopAddr idx y) s = .next (raised .indexRange 0x4D s))

/-- R244: the shadow commands are pure with respect to track state. Two states that agree on the track's shadow, and for
LOAD_INSTR on the entry it names, give the same new shadow; a command writes nothing but the shadow of its track, and
`ERROR` and `OUT` only when it raises, and then no shadow; and issuing it twice gives the register values of issuing it
once. The parameters are the same on both sides. A track out of range raises. -/
def Obligations.ShadowCommandsArePure : Prop :=
  (∀ (i : Instr) (idx : BitVec 8) (k : TrackIx), shadowTrack i = some idx →
    (∀ s1 s2 t1 t2 : State, NamesTrack s1.params idx k → s1.params = s2.params →
      (∀ id : BitVec 16, i = .loadInstr idx id → ∀ f : Nat, f ≤ 11 →
        memRead s1.instrTable id.toNat f = memRead s2.instrTable id.toNat f) →
      shadowOf s1.tracks[k] = shadowOf s2.tracks[k] → exec i s1 = .next t1 → exec i s2 = .next t2 →
      shadowOf t1.tracks[k] = shadowOf t2.tracks[k]) ∧
    (∀ s : State, NamesTrack s.params idx k → ∃ t u : State, exec i s = .next t ∧ exec i t = .next u ∧
      (t = { s with tracks := t.tracks } ∨ t = raised .instrInvalid (opcodeOf i) s) ∧
      (∀ k' : TrackIx, k' ≠ k → t.tracks[k'] = s.tracks[k']) ∧
      t.tracks[k] = { s.tracks[k] with
        instrId := t.tracks[k].instrId
        addr := t.tracks[k].addr
        loopAddr := t.tracks[k].loopAddr
        pitch := t.tracks[k].pitch
        volumeLr := t.tracks[k].volumeLr
        adsr := t.tracks[k].adsr
        update := t.tracks[k].update } ∧
      u = { t with out := u.out } ∧ (t.out = s.out → u = t))) ∧
  (∀ (i : Instr) (idx : BitVec 8) (s : State), shadowTrack i = some idx → s.params.numTracks.val ≤ idx.toNat →
    exec i s = .next (raised .indexRange (opcodeOf i) s))

/-! Rules of the whole machine. -/

/-- R280: no command stops the block; after every command, refused or not, the block goes on. -/
def Obligations.NoCommandStopsTheBlock : Prop :=
  (∀ (i : Instr) (s : State), ∃ t : State, exec i s = .next t) ∧ ∀ s : State, ∃ t : State, step s = .next t

/-- R283, R287: a command appends to `OUT`; it produces at most one diagnostic, which carries its op byte and comes before
its other events. -/
def Obligations.AtMostOneDiagnosticPerCommand : Prop :=
  ∀ (i : Instr) (s t : State), exec i s = .next t →
    ∃ ds es : List Event, t.out = s.out ++ ds ++ es ∧ ds.length ≤ 1 ∧
      (∀ e ∈ ds, ∃ d : Diag, e = .diag d (opcodeOf i)) ∧ (∀ e ∈ es, isDiag e = false)

/-- R27, R284: `ERROR` summarises the diagnostics: but for `STATUS_CLEAR`, a bit is set after a command exactly when it was
set before or the command emitted its diagnostic. -/
def Obligations.ErrorSummarisesDiagnostics : Prop :=
  ∀ (i : Instr) (s t : State), (∀ m : Word, i ≠ .statusClear m) → exec i s = .next t →
    ∃ es : List Event, t.out = s.out ++ es ∧
      ∀ d : Diag, t.error.getLsbD (diagCode d) = true ↔
        s.error.getLsbD (diagCode d) = true ∨ ∃ op : BitVec 8, Event.diag d op ∈ es

/-- R60, R284: `OUT` is append-only: no step but reset removes or changes an event. -/
def Obligations.OutIsAppendOnly : Prop :=
  ∀ s t : State, step s = .next t → s.input.head? ≠ some .reset → s.out <+: t.out

/-- Each of these registers is written only by the commands 10_state.md R23 names for it (R22), the Instrument Table only by
INSTR_WRITE (R23), and `RESULT` only by REG_READ and VOICES_QUERY (R52). The last clause, that no command writes the
parameters, is the model's choice of where they stand (assumption log 2, log 3), not a rule of the spec. -/
def Obligations.OnlyNamedCommandsWriteRegisters : Prop :=
  ∀ (i : Instr) (s t : State), exec i s = .next t →
    (i ≠ .block → (∀ v, i ≠ .timeSet v) → i ≠ .songInit → t.timeCounter = s.timeCounter) ∧
    (i ≠ .block → i ≠ .tick → i ≠ .songInit → t.ticksPending = s.ticksPending) ∧
    ((∀ v, i ≠ .reverbTypeSet v) → i ≠ .songInit → t.reverbType = s.reverbType) ∧
    (i ≠ .resolve → i ≠ .songInit → t.keyedVoices = s.keyedVoices) ∧
    (i ≠ .saveActive → i ≠ .songInit → t.savedActiveVoices = s.savedActiveVoices) ∧
    ((∀ v, i ≠ .noiseOn v) → (∀ v, i ≠ .noiseOff v) → i ≠ .songInit → t.noiseVoices = s.noiseVoices) ∧
    ((∀ v, i ≠ .reverbOn v) → (∀ v, i ≠ .reverbOff v) → i ≠ .songInit → t.reverbVoices = s.reverbVoices) ∧
    ((∀ v, i ≠ .plfoOn v) → (∀ v, i ≠ .plfoOff v) → i ≠ .songInit → t.pitchLfoVoices = s.pitchLfoVoices) ∧
    ((∀ e f v, i ≠ .instrWrite e f v) → ∀ e f : Nat, memRead t.instrTable e f = memRead s.instrTable e f) ∧
    ((∀ k n, i ≠ .regRead k n) → (∀ k m, i ≠ .voicesQuery k m) → t.result = s.result) ∧
    t.params = s.params

/-- R86: the instances share no state: a step of one leaves every other as it was and is its own step; said for any number
of them. -/
def Obligations.PlayersShareNothing : Prop :=
  ∀ (n : Nat) (p q : Fin n) (ps : Players n), ∃ (ps' : Players n) (t : State),
    stepPlayer p ps = .next ps' ∧ step ps.blocks[p] = .next t ∧ ps'.blocks[p] = t ∧
    (q ≠ p → ps'.blocks[q] = ps.blocks[q])

/-- R102: the assembler writes no command with an index out of range. -/
def Obligations.AssembledCommandsAreWellFormed : Prop :=
  ∀ (p : Config.Params) (cs : List Char) (is : List Instr), assembleLine p cs = .ok is →
    ∀ i ∈ is, i.wellFormed p = true
end

