-- ==== Sys2Proof/Laws/Encoding.lean ====
section
/-! SUPPORT. The fields of a packed command word (30_encoding.md R90) and the bytes of a word on the serial link
(20_memory.md R75). -/

namespace Sys2Proof

@[simp] theorem opField_packWord (op idx : BitVec 8) (imm : BitVec 16) (data : Word) :
    opField (packWord op idx imm data) = op := by
  ext i h
  simp only [opField, packWord, BitVec.getElem_extractLsb', BitVec.getLsbD_append]
  simp [show ¬ 56 + i < 8 + (16 + 32) by omega, show 56 + i - (8 + (16 + 32)) = i by omega,
    ← BitVec.getLsbD_eq_getElem]

@[simp] theorem idxField_packWord (op idx : BitVec 8) (imm : BitVec 16) (data : Word) :
    idxField (packWord op idx imm data) = idx := by
  ext i h
  simp only [idxField, packWord, BitVec.getElem_extractLsb', BitVec.getLsbD_append]
  simp [show 48 + i < 8 + (16 + 32) by omega, show ¬ 48 + i < 16 + 32 by omega, show 48 + i - (16 + 32) = i by omega,
    ← BitVec.getLsbD_eq_getElem]

@[simp] theorem immField_packWord (op idx : BitVec 8) (imm : BitVec 16) (data : Word) :
    immField (packWord op idx imm data) = imm := by
  ext i h
  simp only [immField, packWord, BitVec.getElem_extractLsb', BitVec.getLsbD_append]
  simp [show 32 + i < 8 + (16 + 32) by omega, show 32 + i < 16 + 32 by omega, show ¬ 32 + i < 32 by omega,
    ← BitVec.getLsbD_eq_getElem]

@[simp] theorem dataField_packWord (op idx : BitVec 8) (imm : BitVec 16) (data : Word) :
    dataField (packWord op idx imm data) = data := by
  ext i h
  simp only [dataField, packWord, BitVec.getElem_extractLsb', BitVec.getLsbD_append]
  simp [show i < 8 + (16 + 32) by omega, show i < 16 + 32 by omega, show i < 32 by omega,
    ← BitVec.getLsbD_eq_getElem]

/-- A word is its four fields, packed. -/
theorem packWord_fields (w : CmdWord) : packWord (opField w) (idxField w) (immField w) (dataField w) = w := by
  ext i h
  simp only [packWord, opField, idxField, immField, dataField, ← BitVec.getLsbD_eq_getElem, BitVec.getLsbD_append,
    BitVec.getLsbD_extractLsb']
  by_cases h1 : i < 32
  · simp [show i < 8 + (16 + 32) by omega, show i < 16 + 32 by omega, h1]
  · by_cases h2 : i < 48
    · simp [show i < 8 + (16 + 32) by omega, show i < 16 + 32 by omega, h1, show i - 32 < 16 by omega,
        show 32 + (i - 32) = i by omega]
    · by_cases h3 : i < 56
      · simp [show i < 8 + (16 + 32) by omega, show ¬ i < 16 + 32 by omega, show i - (16 + 32) < 8 by omega,
          show 48 + (i - (16 + 32)) = i by omega]
      · simp [show ¬ i < 8 + (16 + 32) by omega, show i - (8 + (16 + 32)) < 8 by omega,
          show 56 + (i - (8 + (16 + 32))) = i by omega]

/-- Bit `i` of a word is a bit of the byte it falls into. -/
theorem wordByte_getLsbD (w : CmdWord) (n i j : Nat) (hj : j < 8) (hi : 8 * n + j = i) :
    (wordByte w n).getLsbD j = w.getLsbD i := by
  simp [wordByte, hj, hi]

/-- The 8 bytes of a word, in the order of the link, make the word again. -/
theorem takeWord_wordBytes (w : CmdWord) (rest : List Byte) : takeWord (wordBytes w ++ rest) = some (w, rest) := by
  have hw : wordByte w 7 ++ (wordByte w 6 ++ (wordByte w 5 ++ (wordByte w 4 ++ (wordByte w 3 ++ (wordByte w 2 ++
      (wordByte w 1 ++ wordByte w 0)))))) = w := by
    ext i h
    simp only [← BitVec.getLsbD_eq_getElem, BitVec.getLsbD_append]
    repeat' split
    all_goals exact wordByte_getLsbD w _ _ _ (by omega) (by omega)
  exact congrArg (fun x => some (x, rest)) hw

/-- A stream of fewer than 8 bytes holds no word. -/
theorem takeWord_eq_none {bs : List Byte} (h : bs.length < 8) : takeWord bs = none := by
  unfold takeWord
  split
  · simp at h
    omega
  · rfl

end Sys2Proof
end

