-- ==== Sys2Proof/Laws/Widths.lean ====
section
/-! SUPPORT. What a register of a parameter's width keeps of a value written to it (00_scope.md R7, R9). -/

namespace Sys2Proof.Machine

/-- The value that `w` bits keep. -/
theorem narrow_toNat {n : Nat} (w : Nat) (x : BitVec n) : (narrow w x).toNat = x.toNat % 2 ^ w := by
  have h : x.toNat % 2 ^ w < 2 ^ n := Nat.lt_of_le_of_lt (Nat.mod_le _ _) x.isLt
  simp [narrow, Nat.mod_eq_of_lt h]

/-- What `w` bits keep is a value of `w` bits. -/
theorem narrow_fits {n : Nat} (w : Nat) (x : BitVec n) : Fits w (narrow w x) := by
  rw [Fits, narrow_toNat]
  exact Nat.mod_lt _ (Nat.two_pow_pos w)

/-- A value of `w` bits is kept as it is. -/
theorem narrow_of_fits {n w : Nat} {x : BitVec n} (h : Fits w x) : narrow w x = x :=
  BitVec.eq_of_toNat_eq (by rw [narrow_toNat, Nat.mod_eq_of_lt h])

/-- A register as wide as the value keeps all of it. -/
@[simp] theorem narrow_self {n : Nat} (x : BitVec n) : narrow n x = x := narrow_of_fits x.isLt

@[simp] theorem narrow_zero (n w : Nat) : narrow w (0 : BitVec n) = 0 := BitVec.eq_of_toNat_eq (by simp [narrow_toNat])

@[simp] theorem narrow_narrow {n : Nat} (w : Nat) (x : BitVec n) : narrow w (narrow w x) = narrow w x :=
  narrow_of_fits (narrow_fits w x)

/-- 0 is a value of every width. -/
theorem fits_zero (n w : Nat) : Fits w (0 : BitVec n) := by
  simp [Fits]

/-- A bitset of the union, or of a part, of two bitsets within their width is within it. -/
theorem Fits.or {n w : Nat} {x y : BitVec n} (hx : Fits w x) (hy : Fits w y) : Fits w (x ||| y) := by
  rw [Fits, BitVec.toNat_or]
  exact Nat.or_lt_two_pow hx hy

theorem Fits.and_left {n w : Nat} {x : BitVec n} (y : BitVec n) (hx : Fits w x) : Fits w (x &&& y) := by
  rw [Fits, BitVec.toNat_and]
  exact Nat.lt_of_le_of_lt Nat.and_le_left hx

/-- A counter within its width that is not 0 is within it after counting down. -/
theorem Fits.pred {n w : Nat} {x : BitVec n} (hx : Fits w x) (h : x ≠ 0) : Fits w (x - 1) := by
  have h0 : x.toNat ≠ 0 := fun e => h (BitVec.eq_of_toNat_eq (by simpa using e))
  have hn : n ≠ 0 := by
    rintro rfl
    exact h (Subsingleton.elim _ _)
  have h1 : (1 : BitVec n).toNat = 1 := by simp [Nat.mod_eq_of_lt (Nat.one_lt_two_pow hn)]
  rw [Fits, BitVec.toNat_sub_of_le (by rw [BitVec.le_def, h1]; omega), h1]
  exact Nat.lt_of_le_of_lt (Nat.sub_le _ _) hx

/-- The bit of a voice is within the bitset's width (10_state.md R31). -/
theorem voiceBit_fits (w : Nat) (v : Voice) : Fits w (voiceBit w v) := by
  unfold voiceBit
  split
  · rename_i h
    rw [Fits, BitVec.toNat_twoPow]
    exact Nat.lt_of_le_of_lt (Nat.mod_le _ _) (Nat.pow_lt_pow_right (by omega) h)
  · exact fits_zero 32 w

/-- The channels of a volume pair as `VOLUME_LR` keeps it. -/
@[simp] theorem volL_narrowPair (p : Config.Params) (x : Word) : volL (narrowPair p x) = narrow p.volW (volL x) := by
  ext i h
  have := BitVec.getLsbD_append (x := narrow p.volW (volR x)) (y := narrow p.volW (volL x)) (i := i)
  simp_all [volL, narrowPair, ← BitVec.getLsbD_eq_getElem]

@[simp] theorem volR_narrowPair (p : Config.Params) (x : Word) : volR (narrowPair p x) = narrow p.volW (volR x) := by
  ext i h
  have := BitVec.getLsbD_append (x := narrow p.volW (volR x)) (y := narrow p.volW (volL x)) (i := 16 + i)
  simp_all [volR, narrowPair, ← BitVec.getLsbD_eq_getElem]

end Sys2Proof.Machine
end

