-- ==== Sys2Proof/Laws/Memory.lean ====
section
/-! SUPPORT. The Instrument Table: a read after a write, and every write keeps the canonical form. -/

namespace Sys2Proof.Machine

/-- The canonical form by its head: the head is a field, below all that follows, and the rest is canonical. -/
theorem Memory.wf_cons {p : Config.Params} (c : Nat × Word) (m : Memory) :
    Memory.wf p (c :: m) = true ↔ cellOk p c = true ∧ (∀ d ∈ m, c.1 < d.1) ∧ Memory.wf p m = true := by
  induction m generalizing c with
  | nil => simp [Memory.wf]
  | cons d rest ih =>
    have hd := ih d
    simp only [Memory.wf, Bool.and_eq_true, decide_eq_true_eq, List.mem_cons, forall_eq_or_imp]
    constructor
    · rintro ⟨⟨hc, hlt⟩, hw⟩
      exact ⟨hc, ⟨hlt, fun e he => lt_trans hlt ((hd.mp hw).2.1 e he)⟩, hw⟩
    · rintro ⟨hc, ⟨hlt, -⟩, hw⟩
      exact ⟨⟨hc, hlt⟩, hw⟩

/-- A store lists no cell but the ones listed before and the one stored. -/
theorem mem_of_mem_memStore {m : Memory} {a : Nat} {v : Word} {d : Nat × Word} (h : d ∈ memStore m a v) :
    d ∈ m ∨ (d = (a, v) ∧ v ≠ unlisted) := by
  induction m with
  | nil =>
    by_cases hv : v = unlisted
    · simp [memStore, hv] at h
    · simp only [memStore, if_neg hv, List.mem_singleton] at h
      exact .inr ⟨h, hv⟩
  | cons c rest ih =>
    obtain ⟨b, w⟩ := c
    simp only [memStore] at h
    split at h
    · split at h
      · exact .inl h
      · rename_i hv
        rcases List.mem_cons.mp h with h | h
        · exact .inr ⟨h, hv⟩
        · exact .inl h
    · split at h
      · split at h
        · exact .inl (List.mem_cons_of_mem _ h)
        · rename_i hv
          rcases List.mem_cons.mp h with h | h
          · exact .inr ⟨h, hv⟩
          · exact .inl (List.mem_cons_of_mem _ h)
      · rcases List.mem_cons.mp h with h | h
        · exact .inl (h ▸ List.mem_cons_self)
        · rcases ih h with h | h
          · exact .inl (List.mem_cons_of_mem _ h)
          · exact .inr h

/-- A store of a field's value, or of the value an unlisted cell reads as, keeps the canonical form. -/
theorem memStore_wf {p : Config.Params} {m : Memory} {a : Nat} {v : Word} (h : Memory.wf p m = true)
    (hv : v ≠ unlisted → cellOk p (a, v) = true) : Memory.wf p (memStore m a v) = true := by
  induction m with
  | nil =>
    simp only [memStore]
    split
    · rfl
    · rename_i hn
      simpa [Memory.wf] using hv hn
  | cons c rest ih =>
    obtain ⟨b, w⟩ := c
    obtain ⟨hc, hlt, hrest⟩ := (Memory.wf_cons _ _).mp h
    simp only [memStore]
    split
    · rename_i hab
      split
      · exact h
      · rename_i hn
        refine (Memory.wf_cons _ _).mpr ⟨hv hn, ?_, h⟩
        intro d hd
        rcases List.mem_cons.mp hd with rfl | hd
        · exact hab
        · exact lt_trans hab (hlt d hd)
    · split
      · rename_i hab
        split
        · exact hrest
        · rename_i hn
          exact (Memory.wf_cons _ _).mpr ⟨hv hn, hab ▸ hlt, hrest⟩
      · rename_i hab hne
        refine (Memory.wf_cons _ _).mpr ⟨hc, ?_, ih hrest⟩
        intro d hd
        rcases mem_of_mem_memStore hd with hd | ⟨rfl, -⟩
        · exact hlt d hd
        · simp only
          omega

/-- A cell below every listed one reads as unlisted. -/
theorem memLookup_of_below {m : Memory} {a : Nat} (h : ∀ d ∈ m, a < d.1) : memLookup m a = unlisted := by
  induction m with
  | nil => rfl
  | cons c rest ih =>
    obtain ⟨b, w⟩ := c
    have hb : a < b := h (b, w) List.mem_cons_self
    simp only [memLookup, if_neg (Nat.ne_of_gt hb)]
    exact ih fun d hd => h d (List.mem_cons_of_mem _ hd)

/-- A cell just stored reads as the value stored. -/
theorem memLookup_memStore_self {p : Config.Params} {m : Memory} (a : Nat) (v : Word) (h : Memory.wf p m = true) :
    memLookup (memStore m a v) a = v := by
  induction m with
  | nil =>
    simp only [memStore]
    split
    · rename_i hv
      simp [memLookup, hv]
    · simp [memLookup]
  | cons c rest ih =>
    obtain ⟨b, w⟩ := c
    obtain ⟨-, hlt, hrest⟩ := (Memory.wf_cons _ _).mp h
    simp only [memStore]
    split
    · rename_i hab
      split
      · rename_i hv
        rw [hv]
        refine memLookup_of_below fun d hd => ?_
        rcases List.mem_cons.mp hd with rfl | hd
        · exact hab
        · exact lt_trans hab (hlt d hd)
      · simp [memLookup]
    · split
      · rename_i hab
        split
        · rename_i hv
          rw [hv]
          exact memLookup_of_below (hab ▸ hlt)
        · simp [memLookup]
      · rename_i hab hne
        simp only [memLookup, if_neg (fun e => hne (Eq.symm e))]
        exact ih hrest

/-- A store leaves every other cell as it was. -/
theorem memLookup_memStore_ne (m : Memory) {a a' : Nat} (v : Word) (h : a' ≠ a) :
    memLookup (memStore m a v) a' = memLookup m a' := by
  induction m with
  | nil =>
    simp only [memStore]
    split
    · rfl
    · simp [memLookup, Ne.symm h]
  | cons c rest ih =>
    obtain ⟨b, w⟩ := c
    simp only [memStore]
    split
    · split
      · rfl
      · simp [memLookup, Ne.symm h]
    · split
      · rename_i hab
        have hb : b ≠ a' := fun e => h (e ▸ hab.symm)
        split <;> simp [memLookup, Ne.symm h, hb]
      · simp only [memLookup, ih]

/-- Two fields with different entry or field numbers are different cells. -/
theorem cellAddr_inj {e f e' f' : Nat} (hf : f < 16) (hf' : f' < 16) (h : cellAddr e f = cellAddr e' f') :
    e = e' ∧ f = f' := by
  unfold cellAddr at h
  omega

/-- A field reads as the value written, modulo its width (20_memory.md R71). -/
theorem memRead_memWrite_self {p : Config.Params} {m : Memory} (e f : Nat) (v : Word) (h : Memory.wf p m = true) :
    memRead (memWrite p m e f v) e f = narrow (fieldWidth p f) v :=
  memLookup_memStore_self _ _ h

/-- A write leaves every other field as it was. -/
theorem memRead_memWrite_ne (p : Config.Params) (m : Memory) {e f e' f' : Nat} (v : Word) (hf : f < 16) (hf' : f' < 16)
    (h : (e', f') ≠ (e, f)) : memRead (memWrite p m e f v) e' f' = memRead m e' f' := by
  refine memLookup_memStore_ne m _ fun ha => h ?_
  obtain ⟨he, hf⟩ := cellAddr_inj hf' hf ha
  rw [he, hf]

/-- No field is wider than 32 bits. -/
theorem fieldWidth_le (p : Config.Params) (f : Nat) : fieldWidth p f ≤ 32 := by
  have h0 := p.addrW.isLt
  have h1 := p.pitchW.isLt
  have h2 := p.modeW.isLt
  have h3 := p.arW.isLt
  have h4 := p.drW.isLt
  have h5 := p.srW.isLt
  have h6 := p.rrW.isLt
  have h7 := p.slW.isLt
  unfold fieldWidth
  split <;> omega

/-- Writing a field keeps the canonical form. -/
theorem memWrite_wf {p : Config.Params} {m : Memory} {e f : Nat} (v : Word) (he : e < p.numInstr.val) (hf : f ≤ 11)
    (h : Memory.wf p m = true) : Memory.wf p (memWrite p m e f v) = true := by
  refine memStore_wf h fun hn => ?_
  have ha : (cellAddr e f) % 16 = f := by
    unfold cellAddr
    omega
  simp only [cellOk, Bool.and_eq_true, decide_eq_true_eq]
  refine ⟨⟨?_, ?_⟩, hn⟩
  · unfold cellAddr
    omega
  · rw [ha]
    exact narrow_fits _ v

/-- A listed cell of a canonical table is a field's. -/
theorem cellOk_of_mem {p : Config.Params} {m : Memory} {d : Nat × Word} (h : Memory.wf p m = true) (hd : d ∈ m) :
    cellOk p d = true := by
  induction m with
  | nil => simp at hd
  | cons c rest ih =>
    obtain ⟨hc, -, hrest⟩ := (Memory.wf_cons _ _).mp h
    rcases List.mem_cons.mp hd with rfl | hd
    · exact hc
    · exact ih hrest hd

/-- A cell reads as unlisted, or is listed with the value it reads as. -/
theorem memLookup_cases (m : Memory) (a : Nat) : memLookup m a = unlisted ∨ (a, memLookup m a) ∈ m := by
  induction m with
  | nil => exact .inl rfl
  | cons c rest ih =>
    obtain ⟨b, w⟩ := c
    simp only [memLookup]
    split
    · rename_i hb
      exact .inr (hb ▸ List.mem_cons_self)
    · exact ih.imp id (List.mem_cons_of_mem _)

/-- A field of a canonical table reads as a value of its width (20_memory.md R71). -/
theorem memRead_lt {p : Config.Params} {m : Memory} {e f : Nat} (h : Memory.wf p m = true) (hf : f < 16) :
    (memRead m e f).toNat < 2 ^ fieldWidth p f := by
  rcases memLookup_cases m (cellAddr e f) with hu | hm
  · simp [memRead, hu, unlisted]
  · have hc := cellOk_of_mem h hm
    have ha : cellAddr e f % 16 = f := by
      unfold cellAddr
      omega
    simp only [cellOk, Bool.and_eq_true, decide_eq_true_eq, ha] at hc
    exact hc.1.2

/-- The empty table, which reset leaves, is canonical. -/
theorem Memory.wf_reset : Memory.wf State.reset.params State.reset.instrTable = true := rfl

/-- In an empty table every field reads 0, so that no entry is valid (10_state.md R62). -/
@[simp] theorem memRead_nil (e f : Nat) : memRead [] e f = 0 := rfl

end Sys2Proof.Machine
end

