-- ==== Sys2Proof/Laws/PerInstr.lean ====
section
/-! SUPPORT. The families of statements that hold of every command of the opcode map, one lemma per constructor. -/

namespace Sys2Proof.Laws

/-- The op byte of a command is not one that 30_encoding.md R94 reserves. -/
def OpcodeNotReserved.Statement (i : Instr) : Prop := Machine.reservedOp (opField (encode i)) = false

/-- The op byte of a command word is the command's (R92). -/
theorem opField_encode (i : Instr) : opField (encode i) = opcodeOf i := opField_packWord _ _ _ _

theorem OpcodeNotReserved.nop : OpcodeNotReserved.Statement .nop := by
  rw [OpcodeNotReserved.Statement, opField_encode]
  rfl

theorem OpcodeNotReserved.block : OpcodeNotReserved.Statement .block := by
  rw [OpcodeNotReserved.Statement, opField_encode]
  rfl

theorem OpcodeNotReserved.tick : OpcodeNotReserved.Statement .tick := by
  rw [OpcodeNotReserved.Statement, opField_encode]
  rfl

theorem OpcodeNotReserved.setDelta (x0 : BitVec 8) (x1 : BitVec 16) :
    OpcodeNotReserved.Statement (.setDelta x0 x1) := by
  rw [OpcodeNotReserved.Statement, opField_encode]
  rfl

theorem OpcodeNotReserved.trackStart (x0 : BitVec 8) : OpcodeNotReserved.Statement (.trackStart x0) := by
  rw [OpcodeNotReserved.Statement, opField_encode]
  rfl

theorem OpcodeNotReserved.trackFinish (x0 : BitVec 8) : OpcodeNotReserved.Statement (.trackFinish x0) := by
  rw [OpcodeNotReserved.Statement, opField_encode]
  rfl

theorem OpcodeNotReserved.timeSet (x0 : BitVec 32) : OpcodeNotReserved.Statement (.timeSet x0) := by
  rw [OpcodeNotReserved.Statement, opField_encode]
  rfl

theorem OpcodeNotReserved.reverbTypeSet (x0 : BitVec 32) : OpcodeNotReserved.Statement (.reverbTypeSet x0) := by
  rw [OpcodeNotReserved.Statement, opField_encode]
  rfl

theorem OpcodeNotReserved.deviceFault (x0 : BitVec 8) : OpcodeNotReserved.Statement (.deviceFault x0) := by
  rw [OpcodeNotReserved.Statement, opField_encode]
  rfl

theorem OpcodeNotReserved.regRead (x0 : BitVec 8) (x1 : BitVec 16) : OpcodeNotReserved.Statement (.regRead x0 x1) := by
  rw [OpcodeNotReserved.Statement, opField_encode]
  rfl

theorem OpcodeNotReserved.statusClear (x0 : BitVec 32) : OpcodeNotReserved.Statement (.statusClear x0) := by
  rw [OpcodeNotReserved.Statement, opField_encode]
  rfl

theorem OpcodeNotReserved.songInit : OpcodeNotReserved.Statement .songInit := by
  rw [OpcodeNotReserved.Statement, opField_encode]
  rfl

theorem OpcodeNotReserved.slideValueTempo (x0 : BitVec 32) : OpcodeNotReserved.Statement (.slideValueTempo x0) := by
  rw [OpcodeNotReserved.Statement, opField_encode]
  rfl

theorem OpcodeNotReserved.slideValueReverbDepth (x0 : BitVec 32) :
    OpcodeNotReserved.Statement (.slideValueReverbDepth x0) := by
  rw [OpcodeNotReserved.Statement, opField_encode]
  rfl

theorem OpcodeNotReserved.slideValueVolume (x0 : BitVec 8) (x1 : BitVec 32) :
    OpcodeNotReserved.Statement (.slideValueVolume x0 x1) := by
  rw [OpcodeNotReserved.Statement, opField_encode]
  rfl

theorem OpcodeNotReserved.slideValuePan (x0 : BitVec 8) (x1 : BitVec 32) :
    OpcodeNotReserved.Statement (.slideValuePan x0 x1) := by
  rw [OpcodeNotReserved.Statement, opField_encode]
  rfl

theorem OpcodeNotReserved.slideValuePitchBend (x0 : BitVec 8) (x1 : BitVec 32) :
    OpcodeNotReserved.Statement (.slideValuePitchBend x0 x1) := by
  rw [OpcodeNotReserved.Statement, opField_encode]
  rfl

theorem OpcodeNotReserved.slideValueVibratoDepth (x0 : BitVec 8) (x1 : BitVec 32) :
    OpcodeNotReserved.Statement (.slideValueVibratoDepth x0 x1) := by
  rw [OpcodeNotReserved.Statement, opField_encode]
  rfl

theorem OpcodeNotReserved.slideValueTremoloDepth (x0 : BitVec 8) (x1 : BitVec 32) :
    OpcodeNotReserved.Statement (.slideValueTremoloDepth x0 x1) := by
  rw [OpcodeNotReserved.Statement, opField_encode]
  rfl

theorem OpcodeNotReserved.slideValuePanLfoDepth (x0 : BitVec 8) (x1 : BitVec 32) :
    OpcodeNotReserved.Statement (.slideValuePanLfoDepth x0 x1) := by
  rw [OpcodeNotReserved.Statement, opField_encode]
  rfl

theorem OpcodeNotReserved.slideValueOverlayBalance (x0 : BitVec 8) (x1 : BitVec 32) :
    OpcodeNotReserved.Statement (.slideValueOverlayBalance x0 x1) := by
  rw [OpcodeNotReserved.Statement, opField_encode]
  rfl

theorem OpcodeNotReserved.slideStartTempo (x0 : BitVec 16) (x1 : BitVec 32) :
    OpcodeNotReserved.Statement (.slideStartTempo x0 x1) := by
  rw [OpcodeNotReserved.Statement, opField_encode]
  rfl

theorem OpcodeNotReserved.slideStartReverbDepth (x0 : BitVec 16) (x1 : BitVec 32) :
    OpcodeNotReserved.Statement (.slideStartReverbDepth x0 x1) := by
  rw [OpcodeNotReserved.Statement, opField_encode]
  rfl

theorem OpcodeNotReserved.slideStartVolume (x0 : BitVec 8) (x1 : BitVec 16) (x2 : BitVec 32) :
    OpcodeNotReserved.Statement (.slideStartVolume x0 x1 x2) := by
  rw [OpcodeNotReserved.Statement, opField_encode]
  rfl

theorem OpcodeNotReserved.slideStartPan (x0 : BitVec 8) (x1 : BitVec 16) (x2 : BitVec 32) :
    OpcodeNotReserved.Statement (.slideStartPan x0 x1 x2) := by
  rw [OpcodeNotReserved.Statement, opField_encode]
  rfl

theorem OpcodeNotReserved.slideStartPitchBend (x0 : BitVec 8) (x1 : BitVec 16) (x2 : BitVec 32) :
    OpcodeNotReserved.Statement (.slideStartPitchBend x0 x1 x2) := by
  rw [OpcodeNotReserved.Statement, opField_encode]
  rfl

theorem OpcodeNotReserved.slideStartVibratoDepth (x0 : BitVec 8) (x1 : BitVec 16) (x2 : BitVec 32) :
    OpcodeNotReserved.Statement (.slideStartVibratoDepth x0 x1 x2) := by
  rw [OpcodeNotReserved.Statement, opField_encode]
  rfl

theorem OpcodeNotReserved.slideStartTremoloDepth (x0 : BitVec 8) (x1 : BitVec 16) (x2 : BitVec 32) :
    OpcodeNotReserved.Statement (.slideStartTremoloDepth x0 x1 x2) := by
  rw [OpcodeNotReserved.Statement, opField_encode]
  rfl

theorem OpcodeNotReserved.slideStartPanLfoDepth (x0 : BitVec 8) (x1 : BitVec 16) (x2 : BitVec 32) :
    OpcodeNotReserved.Statement (.slideStartPanLfoDepth x0 x1 x2) := by
  rw [OpcodeNotReserved.Statement, opField_encode]
  rfl

theorem OpcodeNotReserved.slideStartOverlayBalance (x0 : BitVec 8) (x1 : BitVec 16) (x2 : BitVec 32) :
    OpcodeNotReserved.Statement (.slideStartOverlayBalance x0 x1 x2) := by
  rw [OpcodeNotReserved.Statement, opField_encode]
  rfl

theorem OpcodeNotReserved.keyOn (x0 : BitVec 8) : OpcodeNotReserved.Statement (.keyOn x0) := by
  rw [OpcodeNotReserved.Statement, opField_encode]
  rfl

theorem OpcodeNotReserved.keyOff (x0 : BitVec 8) : OpcodeNotReserved.Statement (.keyOff x0) := by
  rw [OpcodeNotReserved.Statement, opField_encode]
  rfl

theorem OpcodeNotReserved.resolve : OpcodeNotReserved.Statement .resolve := by
  rw [OpcodeNotReserved.Statement, opField_encode]
  rfl

theorem OpcodeNotReserved.saveActive : OpcodeNotReserved.Statement .saveActive := by
  rw [OpcodeNotReserved.Statement, opField_encode]
  rfl

theorem OpcodeNotReserved.noiseOn (x0 : BitVec 8) : OpcodeNotReserved.Statement (.noiseOn x0) := by
  rw [OpcodeNotReserved.Statement, opField_encode]
  rfl

theorem OpcodeNotReserved.noiseOff (x0 : BitVec 8) : OpcodeNotReserved.Statement (.noiseOff x0) := by
  rw [OpcodeNotReserved.Statement, opField_encode]
  rfl

theorem OpcodeNotReserved.reverbOn (x0 : BitVec 8) : OpcodeNotReserved.Statement (.reverbOn x0) := by
  rw [OpcodeNotReserved.Statement, opField_encode]
  rfl

theorem OpcodeNotReserved.reverbOff (x0 : BitVec 8) : OpcodeNotReserved.Statement (.reverbOff x0) := by
  rw [OpcodeNotReserved.Statement, opField_encode]
  rfl

theorem OpcodeNotReserved.plfoOn (x0 : BitVec 8) : OpcodeNotReserved.Statement (.plfoOn x0) := by
  rw [OpcodeNotReserved.Statement, opField_encode]
  rfl

theorem OpcodeNotReserved.plfoOff (x0 : BitVec 8) : OpcodeNotReserved.Statement (.plfoOff x0) := by
  rw [OpcodeNotReserved.Statement, opField_encode]
  rfl

theorem OpcodeNotReserved.voicesQuery (x0 : BitVec 8) (x1 : BitVec 32) :
    OpcodeNotReserved.Statement (.voicesQuery x0 x1) := by
  rw [OpcodeNotReserved.Statement, opField_encode]
  rfl

theorem OpcodeNotReserved.voiceBind (x0 : BitVec 8) (x1 : BitVec 16) :
    OpcodeNotReserved.Statement (.voiceBind x0 x1) := by
  rw [OpcodeNotReserved.Statement, opField_encode]
  rfl

theorem OpcodeNotReserved.voiceUnbind (x0 : BitVec 8) : OpcodeNotReserved.Statement (.voiceUnbind x0) := by
  rw [OpcodeNotReserved.Statement, opField_encode]
  rfl

theorem OpcodeNotReserved.overlayOn (x0 : BitVec 8) (x1 : BitVec 16) :
    OpcodeNotReserved.Statement (.overlayOn x0 x1) := by
  rw [OpcodeNotReserved.Statement, opField_encode]
  rfl

theorem OpcodeNotReserved.alternateOn (x0 : BitVec 8) (x1 : BitVec 16) :
    OpcodeNotReserved.Statement (.alternateOn x0 x1) := by
  rw [OpcodeNotReserved.Statement, opField_encode]
  rfl

theorem OpcodeNotReserved.secondaryOff (x0 : BitVec 8) : OpcodeNotReserved.Statement (.secondaryOff x0) := by
  rw [OpcodeNotReserved.Statement, opField_encode]
  rfl

theorem OpcodeNotReserved.instrWrite (x0 : BitVec 8) (x1 : BitVec 16) (x2 : BitVec 32) :
    OpcodeNotReserved.Statement (.instrWrite x0 x1 x2) := by
  rw [OpcodeNotReserved.Statement, opField_encode]
  rfl

theorem OpcodeNotReserved.loadInstr (x0 : BitVec 8) (x1 : BitVec 16) :
    OpcodeNotReserved.Statement (.loadInstr x0 x1) := by
  rw [OpcodeNotReserved.Statement, opField_encode]
  rfl

theorem OpcodeNotReserved.setAttackRate (x0 : BitVec 8) (x1 : BitVec 16) :
    OpcodeNotReserved.Statement (.setAttackRate x0 x1) := by
  rw [OpcodeNotReserved.Statement, opField_encode]
  rfl

theorem OpcodeNotReserved.setDecayRate (x0 : BitVec 8) (x1 : BitVec 16) :
    OpcodeNotReserved.Statement (.setDecayRate x0 x1) := by
  rw [OpcodeNotReserved.Statement, opField_encode]
  rfl

theorem OpcodeNotReserved.setSustainRate (x0 : BitVec 8) (x1 : BitVec 16) :
    OpcodeNotReserved.Statement (.setSustainRate x0 x1) := by
  rw [OpcodeNotReserved.Statement, opField_encode]
  rfl

theorem OpcodeNotReserved.setReleaseRate (x0 : BitVec 8) (x1 : BitVec 16) :
    OpcodeNotReserved.Statement (.setReleaseRate x0 x1) := by
  rw [OpcodeNotReserved.Statement, opField_encode]
  rfl

theorem OpcodeNotReserved.setSustainLevel (x0 : BitVec 8) (x1 : BitVec 16) :
    OpcodeNotReserved.Statement (.setSustainLevel x0 x1) := by
  rw [OpcodeNotReserved.Statement, opField_encode]
  rfl

theorem OpcodeNotReserved.setAttackMode (x0 : BitVec 8) (x1 : BitVec 16) :
    OpcodeNotReserved.Statement (.setAttackMode x0 x1) := by
  rw [OpcodeNotReserved.Statement, opField_encode]
  rfl

theorem OpcodeNotReserved.setDecayMode (x0 : BitVec 8) (x1 : BitVec 16) :
    OpcodeNotReserved.Statement (.setDecayMode x0 x1) := by
  rw [OpcodeNotReserved.Statement, opField_encode]
  rfl

theorem OpcodeNotReserved.setReleaseMode (x0 : BitVec 8) (x1 : BitVec 16) :
    OpcodeNotReserved.Statement (.setReleaseMode x0 x1) := by
  rw [OpcodeNotReserved.Statement, opField_encode]
  rfl

theorem OpcodeNotReserved.setPitch (x0 : BitVec 8) (x1 : BitVec 16) :
    OpcodeNotReserved.Statement (.setPitch x0 x1) := by
  rw [OpcodeNotReserved.Statement, opField_encode]
  rfl

theorem OpcodeNotReserved.setVolume (x0 : BitVec 8) (x1 : BitVec 32) :
    OpcodeNotReserved.Statement (.setVolume x0 x1) := by
  rw [OpcodeNotReserved.Statement, opField_encode]
  rfl

theorem OpcodeNotReserved.setAddr (x0 : BitVec 8) (x1 : BitVec 32) : OpcodeNotReserved.Statement (.setAddr x0 x1) := by
  rw [OpcodeNotReserved.Statement, opField_encode]
  rfl

theorem OpcodeNotReserved.setLoopAddr (x0 : BitVec 8) (x1 : BitVec 32) :
    OpcodeNotReserved.Statement (.setLoopAddr x0 x1) := by
  rw [OpcodeNotReserved.Statement, opField_encode]
  rfl

end Sys2Proof.Laws
end

