-- ==== Sys2Proof/Laws/State.lean ====
section
/-! SUPPORT. The small lemmas of the state's updates: one per field per shared operation, so that no proof unfolds an
operation to see what it leaves alone. -/

namespace Sys2Proof.Machine

/-! `emit` -/

@[simp] theorem emit_params (es : List Event) (s : State) : (emit es s).params = s.params := rfl

@[simp] theorem emit_timeCounter (es : List Event) (s : State) : (emit es s).timeCounter = s.timeCounter := rfl

@[simp] theorem emit_ticksPending (es : List Event) (s : State) : (emit es s).ticksPending = s.ticksPending := rfl

@[simp] theorem emit_reverbType (es : List Event) (s : State) : (emit es s).reverbType = s.reverbType := rfl

@[simp] theorem emit_error (es : List Event) (s : State) : (emit es s).error = s.error := rfl

@[simp] theorem emit_result (es : List Event) (s : State) : (emit es s).result = s.result := rfl

@[simp] theorem emit_activeVoices (es : List Event) (s : State) : (emit es s).activeVoices = s.activeVoices := rfl

@[simp] theorem emit_keyOnVoices (es : List Event) (s : State) : (emit es s).keyOnVoices = s.keyOnVoices := rfl

@[simp] theorem emit_keyedVoices (es : List Event) (s : State) : (emit es s).keyedVoices = s.keyedVoices := rfl

@[simp] theorem emit_keyOffVoices (es : List Event) (s : State) : (emit es s).keyOffVoices = s.keyOffVoices := rfl

@[simp] theorem emit_savedActiveVoices (es : List Event) (s : State) :
    (emit es s).savedActiveVoices = s.savedActiveVoices := rfl

@[simp] theorem emit_noiseVoices (es : List Event) (s : State) : (emit es s).noiseVoices = s.noiseVoices := rfl

@[simp] theorem emit_reverbVoices (es : List Event) (s : State) : (emit es s).reverbVoices = s.reverbVoices := rfl

@[simp] theorem emit_pitchLfoVoices (es : List Event) (s : State) : (emit es s).pitchLfoVoices = s.pitchLfoVoices := rfl

@[simp] theorem emit_featureDirty (es : List Event) (s : State) : (emit es s).featureDirty = s.featureDirty := rfl

@[simp] theorem emit_tempo (es : List Event) (s : State) : (emit es s).tempo = s.tempo := rfl

@[simp] theorem emit_reverbDepth (es : List Event) (s : State) : (emit es s).reverbDepth = s.reverbDepth := rfl

@[simp] theorem emit_tracks (es : List Event) (s : State) : (emit es s).tracks = s.tracks := rfl

@[simp] theorem emit_instrTable (es : List Event) (s : State) : (emit es s).instrTable = s.instrTable := rfl

@[simp] theorem emit_out (es : List Event) (s : State) :
    (emit es s).out = s.out ++ es := rfl

@[simp] theorem emit_link (es : List Event) (s : State) : (emit es s).link = s.link := rfl

@[simp] theorem emit_input (es : List Event) (s : State) : (emit es s).input = s.input := rfl

/-! `note` -/

@[simp] theorem note_params (d : Diag) (op : BitVec 8) (s : State) : (note d op s).params = s.params := rfl

@[simp] theorem note_timeCounter (d : Diag) (op : BitVec 8) (s : State) :
    (note d op s).timeCounter = s.timeCounter := rfl

@[simp] theorem note_ticksPending (d : Diag) (op : BitVec 8) (s : State) :
    (note d op s).ticksPending = s.ticksPending := rfl

@[simp] theorem note_reverbType (d : Diag) (op : BitVec 8) (s : State) : (note d op s).reverbType = s.reverbType := rfl

@[simp] theorem note_error (d : Diag) (op : BitVec 8) (s : State) :
    (note d op s).error = s.error ||| diagBit d := rfl

@[simp] theorem note_result (d : Diag) (op : BitVec 8) (s : State) : (note d op s).result = s.result := rfl

@[simp] theorem note_activeVoices (d : Diag) (op : BitVec 8) (s : State) :
    (note d op s).activeVoices = s.activeVoices := rfl

@[simp] theorem note_keyOnVoices (d : Diag) (op : BitVec 8) (s : State) :
    (note d op s).keyOnVoices = s.keyOnVoices := rfl

@[simp] theorem note_keyedVoices (d : Diag) (op : BitVec 8) (s : State) :
    (note d op s).keyedVoices = s.keyedVoices := rfl

@[simp] theorem note_keyOffVoices (d : Diag) (op : BitVec 8) (s : State) :
    (note d op s).keyOffVoices = s.keyOffVoices := rfl

@[simp] theorem note_savedActiveVoices (d : Diag) (op : BitVec 8) (s : State) :
    (note d op s).savedActiveVoices = s.savedActiveVoices := rfl

@[simp] theorem note_noiseVoices (d : Diag) (op : BitVec 8) (s : State) :
    (note d op s).noiseVoices = s.noiseVoices := rfl

@[simp] theorem note_reverbVoices (d : Diag) (op : BitVec 8) (s : State) :
    (note d op s).reverbVoices = s.reverbVoices := rfl

@[simp] theorem note_pitchLfoVoices (d : Diag) (op : BitVec 8) (s : State) :
    (note d op s).pitchLfoVoices = s.pitchLfoVoices := rfl

@[simp] theorem note_featureDirty (d : Diag) (op : BitVec 8) (s : State) :
    (note d op s).featureDirty = s.featureDirty := rfl

@[simp] theorem note_tempo (d : Diag) (op : BitVec 8) (s : State) : (note d op s).tempo = s.tempo := rfl

@[simp] theorem note_reverbDepth (d : Diag) (op : BitVec 8) (s : State) :
    (note d op s).reverbDepth = s.reverbDepth := rfl

@[simp] theorem note_tracks (d : Diag) (op : BitVec 8) (s : State) : (note d op s).tracks = s.tracks := rfl

@[simp] theorem note_instrTable (d : Diag) (op : BitVec 8) (s : State) : (note d op s).instrTable = s.instrTable := rfl

@[simp] theorem note_out (d : Diag) (op : BitVec 8) (s : State) :
    (note d op s).out = s.out ++ [.diag d op] := rfl

@[simp] theorem note_link (d : Diag) (op : BitVec 8) (s : State) : (note d op s).link = s.link := rfl

@[simp] theorem note_input (d : Diag) (op : BitVec 8) (s : State) : (note d op s).input = s.input := rfl

/-! `raised` -/

@[simp] theorem raised_params (d : Diag) (op : BitVec 8) (s : State) : (raised d op s).params = s.params := rfl

@[simp] theorem raised_timeCounter (d : Diag) (op : BitVec 8) (s : State) :
    (raised d op s).timeCounter = s.timeCounter := rfl

@[simp] theorem raised_ticksPending (d : Diag) (op : BitVec 8) (s : State) :
    (raised d op s).ticksPending = s.ticksPending := rfl

@[simp] theorem raised_reverbType (d : Diag) (op : BitVec 8) (s : State) :
    (raised d op s).reverbType = s.reverbType := rfl

@[simp] theorem raised_error (d : Diag) (op : BitVec 8) (s : State) :
    (raised d op s).error = s.error ||| (1#10 <<< diagCode d) := rfl

@[simp] theorem raised_result (d : Diag) (op : BitVec 8) (s : State) : (raised d op s).result = s.result := rfl

@[simp] theorem raised_activeVoices (d : Diag) (op : BitVec 8) (s : State) :
    (raised d op s).activeVoices = s.activeVoices := rfl

@[simp] theorem raised_keyOnVoices (d : Diag) (op : BitVec 8) (s : State) :
    (raised d op s).keyOnVoices = s.keyOnVoices := rfl

@[simp] theorem raised_keyedVoices (d : Diag) (op : BitVec 8) (s : State) :
    (raised d op s).keyedVoices = s.keyedVoices := rfl

@[simp] theorem raised_keyOffVoices (d : Diag) (op : BitVec 8) (s : State) :
    (raised d op s).keyOffVoices = s.keyOffVoices := rfl

@[simp] theorem raised_savedActiveVoices (d : Diag) (op : BitVec 8) (s : State) :
    (raised d op s).savedActiveVoices = s.savedActiveVoices := rfl

@[simp] theorem raised_noiseVoices (d : Diag) (op : BitVec 8) (s : State) :
    (raised d op s).noiseVoices = s.noiseVoices := rfl

@[simp] theorem raised_reverbVoices (d : Diag) (op : BitVec 8) (s : State) :
    (raised d op s).reverbVoices = s.reverbVoices := rfl

@[simp] theorem raised_pitchLfoVoices (d : Diag) (op : BitVec 8) (s : State) :
    (raised d op s).pitchLfoVoices = s.pitchLfoVoices := rfl

@[simp] theorem raised_featureDirty (d : Diag) (op : BitVec 8) (s : State) :
    (raised d op s).featureDirty = s.featureDirty := rfl

@[simp] theorem raised_tempo (d : Diag) (op : BitVec 8) (s : State) : (raised d op s).tempo = s.tempo := rfl

@[simp] theorem raised_reverbDepth (d : Diag) (op : BitVec 8) (s : State) :
    (raised d op s).reverbDepth = s.reverbDepth := rfl

@[simp] theorem raised_tracks (d : Diag) (op : BitVec 8) (s : State) : (raised d op s).tracks = s.tracks := rfl

@[simp] theorem raised_instrTable (d : Diag) (op : BitVec 8) (s : State) :
    (raised d op s).instrTable = s.instrTable := rfl

@[simp] theorem raised_out (d : Diag) (op : BitVec 8) (s : State) :
    (raised d op s).out = s.out ++ [.diag d op] := rfl

@[simp] theorem raised_link (d : Diag) (op : BitVec 8) (s : State) : (raised d op s).link = s.link := rfl

@[simp] theorem raised_input (d : Diag) (op : BitVec 8) (s : State) : (raised d op s).input = s.input := rfl

/-! `latch` -/

@[simp] theorem latch_params (v : Word) (s : State) : (latch v s).params = s.params := rfl

@[simp] theorem latch_timeCounter (v : Word) (s : State) : (latch v s).timeCounter = s.timeCounter := rfl

@[simp] theorem latch_ticksPending (v : Word) (s : State) : (latch v s).ticksPending = s.ticksPending := rfl

@[simp] theorem latch_reverbType (v : Word) (s : State) : (latch v s).reverbType = s.reverbType := rfl

@[simp] theorem latch_error (v : Word) (s : State) : (latch v s).error = s.error := rfl

@[simp] theorem latch_result (v : Word) (s : State) :
    (latch v s).result = v := rfl

@[simp] theorem latch_activeVoices (v : Word) (s : State) : (latch v s).activeVoices = s.activeVoices := rfl

@[simp] theorem latch_keyOnVoices (v : Word) (s : State) : (latch v s).keyOnVoices = s.keyOnVoices := rfl

@[simp] theorem latch_keyedVoices (v : Word) (s : State) : (latch v s).keyedVoices = s.keyedVoices := rfl

@[simp] theorem latch_keyOffVoices (v : Word) (s : State) : (latch v s).keyOffVoices = s.keyOffVoices := rfl

@[simp] theorem latch_savedActiveVoices (v : Word) (s : State) :
    (latch v s).savedActiveVoices = s.savedActiveVoices := rfl

@[simp] theorem latch_noiseVoices (v : Word) (s : State) : (latch v s).noiseVoices = s.noiseVoices := rfl

@[simp] theorem latch_reverbVoices (v : Word) (s : State) : (latch v s).reverbVoices = s.reverbVoices := rfl

@[simp] theorem latch_pitchLfoVoices (v : Word) (s : State) : (latch v s).pitchLfoVoices = s.pitchLfoVoices := rfl

@[simp] theorem latch_featureDirty (v : Word) (s : State) : (latch v s).featureDirty = s.featureDirty := rfl

@[simp] theorem latch_tempo (v : Word) (s : State) : (latch v s).tempo = s.tempo := rfl

@[simp] theorem latch_reverbDepth (v : Word) (s : State) : (latch v s).reverbDepth = s.reverbDepth := rfl

@[simp] theorem latch_tracks (v : Word) (s : State) : (latch v s).tracks = s.tracks := rfl

@[simp] theorem latch_instrTable (v : Word) (s : State) : (latch v s).instrTable = s.instrTable := rfl

@[simp] theorem latch_out (v : Word) (s : State) : (latch v s).out = s.out := rfl

@[simp] theorem latch_link (v : Word) (s : State) : (latch v s).link = s.link := rfl

@[simp] theorem latch_input (v : Word) (s : State) : (latch v s).input = s.input := rfl

/-! `modifyTrack` -/

@[simp] theorem modifyTrack_params (t : TrackIx) (f : Track → Track) (s : State) :
    (modifyTrack t f s).params = s.params := rfl

@[simp] theorem modifyTrack_timeCounter (t : TrackIx) (f : Track → Track) (s : State) :
    (modifyTrack t f s).timeCounter = s.timeCounter := rfl

@[simp] theorem modifyTrack_ticksPending (t : TrackIx) (f : Track → Track) (s : State) :
    (modifyTrack t f s).ticksPending = s.ticksPending := rfl

@[simp] theorem modifyTrack_reverbType (t : TrackIx) (f : Track → Track) (s : State) :
    (modifyTrack t f s).reverbType = s.reverbType := rfl

@[simp] theorem modifyTrack_error (t : TrackIx) (f : Track → Track) (s : State) :
    (modifyTrack t f s).error = s.error := rfl

@[simp] theorem modifyTrack_result (t : TrackIx) (f : Track → Track) (s : State) :
    (modifyTrack t f s).result = s.result := rfl

@[simp] theorem modifyTrack_activeVoices (t : TrackIx) (f : Track → Track) (s : State) :
    (modifyTrack t f s).activeVoices = s.activeVoices := rfl

@[simp] theorem modifyTrack_keyOnVoices (t : TrackIx) (f : Track → Track) (s : State) :
    (modifyTrack t f s).keyOnVoices = s.keyOnVoices := rfl

@[simp] theorem modifyTrack_keyedVoices (t : TrackIx) (f : Track → Track) (s : State) :
    (modifyTrack t f s).keyedVoices = s.keyedVoices := rfl

@[simp] theorem modifyTrack_keyOffVoices (t : TrackIx) (f : Track → Track) (s : State) :
    (modifyTrack t f s).keyOffVoices = s.keyOffVoices := rfl

@[simp] theorem modifyTrack_savedActiveVoices (t : TrackIx) (f : Track → Track) (s : State) :
    (modifyTrack t f s).savedActiveVoices = s.savedActiveVoices := rfl

@[simp] theorem modifyTrack_noiseVoices (t : TrackIx) (f : Track → Track) (s : State) :
    (modifyTrack t f s).noiseVoices = s.noiseVoices := rfl

@[simp] theorem modifyTrack_reverbVoices (t : TrackIx) (f : Track → Track) (s : State) :
    (modifyTrack t f s).reverbVoices = s.reverbVoices := rfl

@[simp] theorem modifyTrack_pitchLfoVoices (t : TrackIx) (f : Track → Track) (s : State) :
    (modifyTrack t f s).pitchLfoVoices = s.pitchLfoVoices := rfl

@[simp] theorem modifyTrack_featureDirty (t : TrackIx) (f : Track → Track) (s : State) :
    (modifyTrack t f s).featureDirty = s.featureDirty := rfl

@[simp] theorem modifyTrack_tempo (t : TrackIx) (f : Track → Track) (s : State) :
    (modifyTrack t f s).tempo = s.tempo := rfl

@[simp] theorem modifyTrack_reverbDepth (t : TrackIx) (f : Track → Track) (s : State) :
    (modifyTrack t f s).reverbDepth = s.reverbDepth := rfl

@[simp] theorem modifyTrack_tracks (t : TrackIx) (f : Track → Track) (s : State) :
    (modifyTrack t f s).tracks = s.tracks.set t (f s.tracks[t]) := rfl

@[simp] theorem modifyTrack_instrTable (t : TrackIx) (f : Track → Track) (s : State) :
    (modifyTrack t f s).instrTable = s.instrTable := rfl

@[simp] theorem modifyTrack_out (t : TrackIx) (f : Track → Track) (s : State) : (modifyTrack t f s).out = s.out := rfl

@[simp] theorem modifyTrack_link (t : TrackIx) (f : Track → Track) (s : State) :
    (modifyTrack t f s).link = s.link := rfl

@[simp] theorem modifyTrack_input (t : TrackIx) (f : Track → Track) (s : State) :
    (modifyTrack t f s).input = s.input := rfl

/-! `requestKeyOn` -/

@[simp] theorem requestKeyOn_params (v : Voice) (s : State) : (requestKeyOn v s).params = s.params := rfl

@[simp] theorem requestKeyOn_timeCounter (v : Voice) (s : State) : (requestKeyOn v s).timeCounter = s.timeCounter := rfl

@[simp] theorem requestKeyOn_ticksPending (v : Voice) (s : State) :
    (requestKeyOn v s).ticksPending = s.ticksPending := rfl

@[simp] theorem requestKeyOn_reverbType (v : Voice) (s : State) : (requestKeyOn v s).reverbType = s.reverbType := rfl

@[simp] theorem requestKeyOn_error (v : Voice) (s : State) : (requestKeyOn v s).error = s.error := rfl

@[simp] theorem requestKeyOn_result (v : Voice) (s : State) : (requestKeyOn v s).result = s.result := rfl

@[simp] theorem requestKeyOn_activeVoices (v : Voice) (s : State) :
    (requestKeyOn v s).activeVoices = setVoice s.params.bitsetWidth s.activeVoices v := rfl

@[simp] theorem requestKeyOn_keyOnVoices (v : Voice) (s : State) :
    (requestKeyOn v s).keyOnVoices = setVoice s.params.bitsetWidth s.keyOnVoices v := rfl

@[simp] theorem requestKeyOn_keyedVoices (v : Voice) (s : State) : (requestKeyOn v s).keyedVoices = s.keyedVoices := rfl

@[simp] theorem requestKeyOn_keyOffVoices (v : Voice) (s : State) :
    (requestKeyOn v s).keyOffVoices = clearVoice s.keyOffVoices v := rfl

@[simp] theorem requestKeyOn_savedActiveVoices (v : Voice) (s : State) :
    (requestKeyOn v s).savedActiveVoices = s.savedActiveVoices := rfl

@[simp] theorem requestKeyOn_noiseVoices (v : Voice) (s : State) : (requestKeyOn v s).noiseVoices = s.noiseVoices := rfl

@[simp] theorem requestKeyOn_reverbVoices (v : Voice) (s : State) :
    (requestKeyOn v s).reverbVoices = s.reverbVoices := rfl

@[simp] theorem requestKeyOn_pitchLfoVoices (v : Voice) (s : State) :
    (requestKeyOn v s).pitchLfoVoices = s.pitchLfoVoices := rfl

@[simp] theorem requestKeyOn_featureDirty (v : Voice) (s : State) :
    (requestKeyOn v s).featureDirty = s.featureDirty := rfl

@[simp] theorem requestKeyOn_tempo (v : Voice) (s : State) : (requestKeyOn v s).tempo = s.tempo := rfl

@[simp] theorem requestKeyOn_reverbDepth (v : Voice) (s : State) : (requestKeyOn v s).reverbDepth = s.reverbDepth := rfl

@[simp] theorem requestKeyOn_tracks (v : Voice) (s : State) : (requestKeyOn v s).tracks = s.tracks := rfl

@[simp] theorem requestKeyOn_instrTable (v : Voice) (s : State) : (requestKeyOn v s).instrTable = s.instrTable := rfl

@[simp] theorem requestKeyOn_out (v : Voice) (s : State) : (requestKeyOn v s).out = s.out := rfl

@[simp] theorem requestKeyOn_link (v : Voice) (s : State) : (requestKeyOn v s).link = s.link := rfl

@[simp] theorem requestKeyOn_input (v : Voice) (s : State) : (requestKeyOn v s).input = s.input := rfl

/-! `advanceTime` -/

@[simp] theorem advanceTime_params (s : State) : (advanceTime s).params = s.params := rfl

@[simp] theorem advanceTime_timeCounter (s : State) :
    (advanceTime s).timeCounter = narrow s.params.tcWidth (s.timeCounter + s.tempo.value) := rfl

@[simp] theorem advanceTime_ticksPending (s : State) : (advanceTime s).ticksPending = s.ticksPending := rfl

@[simp] theorem advanceTime_reverbType (s : State) : (advanceTime s).reverbType = s.reverbType := rfl

@[simp] theorem advanceTime_error (s : State) : (advanceTime s).error = s.error := rfl

@[simp] theorem advanceTime_result (s : State) : (advanceTime s).result = s.result := rfl

@[simp] theorem advanceTime_activeVoices (s : State) : (advanceTime s).activeVoices = s.activeVoices := rfl

@[simp] theorem advanceTime_keyOnVoices (s : State) : (advanceTime s).keyOnVoices = s.keyOnVoices := rfl

@[simp] theorem advanceTime_keyedVoices (s : State) : (advanceTime s).keyedVoices = s.keyedVoices := rfl

@[simp] theorem advanceTime_keyOffVoices (s : State) : (advanceTime s).keyOffVoices = s.keyOffVoices := rfl

@[simp] theorem advanceTime_savedActiveVoices (s : State) :
    (advanceTime s).savedActiveVoices = s.savedActiveVoices := rfl

@[simp] theorem advanceTime_noiseVoices (s : State) : (advanceTime s).noiseVoices = s.noiseVoices := rfl

@[simp] theorem advanceTime_reverbVoices (s : State) : (advanceTime s).reverbVoices = s.reverbVoices := rfl

@[simp] theorem advanceTime_pitchLfoVoices (s : State) : (advanceTime s).pitchLfoVoices = s.pitchLfoVoices := rfl

@[simp] theorem advanceTime_featureDirty (s : State) : (advanceTime s).featureDirty = s.featureDirty := rfl

@[simp] theorem advanceTime_tempo (s : State) : (advanceTime s).tempo = s.tempo := rfl

@[simp] theorem advanceTime_reverbDepth (s : State) : (advanceTime s).reverbDepth = s.reverbDepth := rfl

@[simp] theorem advanceTime_tracks (s : State) : (advanceTime s).tracks = s.tracks := rfl

@[simp] theorem advanceTime_instrTable (s : State) : (advanceTime s).instrTable = s.instrTable := rfl

@[simp] theorem advanceTime_out (s : State) : (advanceTime s).out = s.out := rfl

@[simp] theorem advanceTime_link (s : State) : (advanceTime s).link = s.link := rfl

@[simp] theorem advanceTime_input (s : State) : (advanceTime s).input = s.input := rfl

/-! `stepTempo` -/

@[simp] theorem stepTempo_params (s : State) : (stepTempo s).params = s.params := rfl

@[simp] theorem stepTempo_timeCounter (s : State) : (stepTempo s).timeCounter = s.timeCounter := rfl

@[simp] theorem stepTempo_ticksPending (s : State) : (stepTempo s).ticksPending = s.ticksPending := rfl

@[simp] theorem stepTempo_reverbType (s : State) : (stepTempo s).reverbType = s.reverbType := rfl

@[simp] theorem stepTempo_error (s : State) : (stepTempo s).error = s.error := rfl

@[simp] theorem stepTempo_result (s : State) : (stepTempo s).result = s.result := rfl

@[simp] theorem stepTempo_activeVoices (s : State) : (stepTempo s).activeVoices = s.activeVoices := rfl

@[simp] theorem stepTempo_keyOnVoices (s : State) : (stepTempo s).keyOnVoices = s.keyOnVoices := rfl

@[simp] theorem stepTempo_keyedVoices (s : State) : (stepTempo s).keyedVoices = s.keyedVoices := rfl

@[simp] theorem stepTempo_keyOffVoices (s : State) : (stepTempo s).keyOffVoices = s.keyOffVoices := rfl

@[simp] theorem stepTempo_savedActiveVoices (s : State) : (stepTempo s).savedActiveVoices = s.savedActiveVoices := rfl

@[simp] theorem stepTempo_noiseVoices (s : State) : (stepTempo s).noiseVoices = s.noiseVoices := rfl

@[simp] theorem stepTempo_reverbVoices (s : State) : (stepTempo s).reverbVoices = s.reverbVoices := rfl

@[simp] theorem stepTempo_pitchLfoVoices (s : State) : (stepTempo s).pitchLfoVoices = s.pitchLfoVoices := rfl

@[simp] theorem stepTempo_featureDirty (s : State) : (stepTempo s).featureDirty = s.featureDirty := rfl

@[simp] theorem stepTempo_tempo (s : State) :
    (stepTempo s).tempo = slideStep s.params .tempo s.tempo := rfl

@[simp] theorem stepTempo_reverbDepth (s : State) : (stepTempo s).reverbDepth = s.reverbDepth := rfl

@[simp] theorem stepTempo_tracks (s : State) : (stepTempo s).tracks = s.tracks := rfl

@[simp] theorem stepTempo_instrTable (s : State) : (stepTempo s).instrTable = s.instrTable := rfl

@[simp] theorem stepTempo_out (s : State) : (stepTempo s).out = s.out := rfl

@[simp] theorem stepTempo_link (s : State) : (stepTempo s).link = s.link := rfl

@[simp] theorem stepTempo_input (s : State) : (stepTempo s).input = s.input := rfl

/-! `resolveTracks` -/

@[simp] theorem resolveTracks_params (s : State) : (resolveTracks s).params = s.params := rfl

@[simp] theorem resolveTracks_timeCounter (s : State) : (resolveTracks s).timeCounter = s.timeCounter := rfl

@[simp] theorem resolveTracks_ticksPending (s : State) : (resolveTracks s).ticksPending = s.ticksPending := rfl

@[simp] theorem resolveTracks_reverbType (s : State) : (resolveTracks s).reverbType = s.reverbType := rfl

@[simp] theorem resolveTracks_error (s : State) : (resolveTracks s).error = s.error := rfl

@[simp] theorem resolveTracks_result (s : State) : (resolveTracks s).result = s.result := rfl

@[simp] theorem resolveTracks_activeVoices (s : State) : (resolveTracks s).activeVoices = s.activeVoices := rfl

@[simp] theorem resolveTracks_keyOnVoices (s : State) : (resolveTracks s).keyOnVoices = s.keyOnVoices := rfl

@[simp] theorem resolveTracks_keyedVoices (s : State) : (resolveTracks s).keyedVoices = s.keyedVoices := rfl

@[simp] theorem resolveTracks_keyOffVoices (s : State) : (resolveTracks s).keyOffVoices = s.keyOffVoices := rfl

@[simp] theorem resolveTracks_savedActiveVoices (s : State) :
    (resolveTracks s).savedActiveVoices = s.savedActiveVoices := rfl

@[simp] theorem resolveTracks_noiseVoices (s : State) : (resolveTracks s).noiseVoices = s.noiseVoices := rfl

@[simp] theorem resolveTracks_reverbVoices (s : State) : (resolveTracks s).reverbVoices = s.reverbVoices := rfl

@[simp] theorem resolveTracks_pitchLfoVoices (s : State) : (resolveTracks s).pitchLfoVoices = s.pitchLfoVoices := rfl

@[simp] theorem resolveTracks_featureDirty (s : State) : (resolveTracks s).featureDirty = s.featureDirty := rfl

@[simp] theorem resolveTracks_tempo (s : State) : (resolveTracks s).tempo = s.tempo := rfl

@[simp] theorem resolveTracks_reverbDepth (s : State) : (resolveTracks s).reverbDepth = s.reverbDepth := rfl

@[simp] theorem resolveTracks_tracks (s : State) :
    (resolveTracks s).tracks = mapTracks s.params.numTracks emittedTrack s.tracks := rfl

@[simp] theorem resolveTracks_instrTable (s : State) : (resolveTracks s).instrTable = s.instrTable := rfl

@[simp] theorem resolveTracks_out (s : State) :
    (resolveTracks s).out = s.out ++ (liveTracks s).flatMap (trackEvents s.params) := rfl

@[simp] theorem resolveTracks_link (s : State) : (resolveTracks s).link = s.link := rfl

@[simp] theorem resolveTracks_input (s : State) : (resolveTracks s).input = s.input := rfl

/-! `resolveFeatures` -/

@[simp] theorem resolveFeatures_params (s : State) : (resolveFeatures s).params = s.params := rfl

@[simp] theorem resolveFeatures_timeCounter (s : State) : (resolveFeatures s).timeCounter = s.timeCounter := rfl

@[simp] theorem resolveFeatures_ticksPending (s : State) : (resolveFeatures s).ticksPending = s.ticksPending := rfl

@[simp] theorem resolveFeatures_reverbType (s : State) : (resolveFeatures s).reverbType = s.reverbType := rfl

@[simp] theorem resolveFeatures_error (s : State) : (resolveFeatures s).error = s.error := rfl

@[simp] theorem resolveFeatures_result (s : State) : (resolveFeatures s).result = s.result := rfl

@[simp] theorem resolveFeatures_activeVoices (s : State) : (resolveFeatures s).activeVoices = s.activeVoices := rfl

@[simp] theorem resolveFeatures_keyOnVoices (s : State) : (resolveFeatures s).keyOnVoices = s.keyOnVoices := rfl

@[simp] theorem resolveFeatures_keyedVoices (s : State) : (resolveFeatures s).keyedVoices = s.keyedVoices := rfl

@[simp] theorem resolveFeatures_keyOffVoices (s : State) : (resolveFeatures s).keyOffVoices = s.keyOffVoices := rfl

@[simp] theorem resolveFeatures_savedActiveVoices (s : State) :
    (resolveFeatures s).savedActiveVoices = s.savedActiveVoices := rfl

@[simp] theorem resolveFeatures_noiseVoices (s : State) : (resolveFeatures s).noiseVoices = s.noiseVoices := rfl

@[simp] theorem resolveFeatures_reverbVoices (s : State) : (resolveFeatures s).reverbVoices = s.reverbVoices := rfl

@[simp] theorem resolveFeatures_pitchLfoVoices (s : State) :
    (resolveFeatures s).pitchLfoVoices = s.pitchLfoVoices := rfl

@[simp] theorem resolveFeatures_featureDirty (s : State) :
    (resolveFeatures s).featureDirty = 0 := rfl

@[simp] theorem resolveFeatures_tempo (s : State) : (resolveFeatures s).tempo = s.tempo := rfl

@[simp] theorem resolveFeatures_reverbDepth (s : State) : (resolveFeatures s).reverbDepth = s.reverbDepth := rfl

@[simp] theorem resolveFeatures_tracks (s : State) : (resolveFeatures s).tracks = s.tracks := rfl

@[simp] theorem resolveFeatures_instrTable (s : State) : (resolveFeatures s).instrTable = s.instrTable := rfl

@[simp] theorem resolveFeatures_out (s : State) :
    (resolveFeatures s).out = s.out ++ featureEvents s := rfl

@[simp] theorem resolveFeatures_link (s : State) : (resolveFeatures s).link = s.link := rfl

@[simp] theorem resolveFeatures_input (s : State) : (resolveFeatures s).input = s.input := rfl

/-! `resolveKeys` -/

@[simp] theorem resolveKeys_params (s : State) : (resolveKeys s).params = s.params := rfl

@[simp] theorem resolveKeys_timeCounter (s : State) : (resolveKeys s).timeCounter = s.timeCounter := rfl

@[simp] theorem resolveKeys_ticksPending (s : State) : (resolveKeys s).ticksPending = s.ticksPending := rfl

@[simp] theorem resolveKeys_reverbType (s : State) : (resolveKeys s).reverbType = s.reverbType := rfl

@[simp] theorem resolveKeys_error (s : State) : (resolveKeys s).error = s.error := rfl

@[simp] theorem resolveKeys_result (s : State) : (resolveKeys s).result = s.result := rfl

@[simp] theorem resolveKeys_activeVoices (s : State) :
    (resolveKeys s).activeVoices = s.activeVoices &&& ~~~s.keyOffVoices := rfl

@[simp] theorem resolveKeys_keyOnVoices (s : State) :
    (resolveKeys s).keyOnVoices = 0 := rfl

@[simp] theorem resolveKeys_keyedVoices (s : State) :
    (resolveKeys s).keyedVoices = (s.keyedVoices &&& ~~~s.keyOffVoices) ||| s.keyOnVoices := rfl

@[simp] theorem resolveKeys_keyOffVoices (s : State) :
    (resolveKeys s).keyOffVoices = 0 := rfl

@[simp] theorem resolveKeys_savedActiveVoices (s : State) :
    (resolveKeys s).savedActiveVoices = s.savedActiveVoices := rfl

@[simp] theorem resolveKeys_noiseVoices (s : State) : (resolveKeys s).noiseVoices = s.noiseVoices := rfl

@[simp] theorem resolveKeys_reverbVoices (s : State) : (resolveKeys s).reverbVoices = s.reverbVoices := rfl

@[simp] theorem resolveKeys_pitchLfoVoices (s : State) : (resolveKeys s).pitchLfoVoices = s.pitchLfoVoices := rfl

@[simp] theorem resolveKeys_featureDirty (s : State) : (resolveKeys s).featureDirty = s.featureDirty := rfl

@[simp] theorem resolveKeys_tempo (s : State) : (resolveKeys s).tempo = s.tempo := rfl

@[simp] theorem resolveKeys_reverbDepth (s : State) : (resolveKeys s).reverbDepth = s.reverbDepth := rfl

@[simp] theorem resolveKeys_tracks (s : State) : (resolveKeys s).tracks = s.tracks := rfl

@[simp] theorem resolveKeys_instrTable (s : State) : (resolveKeys s).instrTable = s.instrTable := rfl

@[simp] theorem resolveKeys_out (s : State) :
    (resolveKeys s).out = s.out ++ ((voicesOf s.params.numVoices s.keyOffVoices).map Event.keyOff ++
      (voicesOf s.params.numVoices s.keyOnVoices).map Event.keyOn) := rfl

@[simp] theorem resolveKeys_link (s : State) : (resolveKeys s).link = s.link := rfl

@[simp] theorem resolveKeys_input (s : State) : (resolveKeys s).input = s.input := rfl

/-! `release` -/

@[simp] theorem release_params (v : Voice) (s : State) :
    (release v s).params = s.params := by unfold release; split <;> rfl

@[simp] theorem release_timeCounter (v : Voice) (s : State) :
    (release v s).timeCounter = s.timeCounter := by unfold release; split <;> rfl

@[simp] theorem release_ticksPending (v : Voice) (s : State) :
    (release v s).ticksPending = s.ticksPending := by unfold release; split <;> rfl

@[simp] theorem release_reverbType (v : Voice) (s : State) :
    (release v s).reverbType = s.reverbType := by unfold release; split <;> rfl

@[simp] theorem release_error (v : Voice) (s : State) :
    (release v s).error = s.error := by unfold release; split <;> rfl

@[simp] theorem release_result (v : Voice) (s : State) :
    (release v s).result = s.result := by unfold release; split <;> rfl

@[simp] theorem release_activeVoices (v : Voice) (s : State) :
    (release v s).activeVoices = if hasVoice s.keyedVoices v then s.activeVoices else clearVoice s.activeVoices v := by unfold release; split <;> rfl

@[simp] theorem release_keyOnVoices (v : Voice) (s : State) :
    (release v s).keyOnVoices = clearVoice s.keyOnVoices v := by unfold release; split <;> rfl

@[simp] theorem release_keyedVoices (v : Voice) (s : State) :
    (release v s).keyedVoices = s.keyedVoices := by unfold release; split <;> rfl

@[simp] theorem release_keyOffVoices (v : Voice) (s : State) :
    (release v s).keyOffVoices = if hasVoice s.keyedVoices v then setVoice s.params.bitsetWidth s.keyOffVoices v else s.keyOffVoices := by unfold release; split <;> rfl

@[simp] theorem release_savedActiveVoices (v : Voice) (s : State) :
    (release v s).savedActiveVoices = s.savedActiveVoices := by unfold release; split <;> rfl

@[simp] theorem release_noiseVoices (v : Voice) (s : State) :
    (release v s).noiseVoices = s.noiseVoices := by unfold release; split <;> rfl

@[simp] theorem release_reverbVoices (v : Voice) (s : State) :
    (release v s).reverbVoices = s.reverbVoices := by unfold release; split <;> rfl

@[simp] theorem release_pitchLfoVoices (v : Voice) (s : State) :
    (release v s).pitchLfoVoices = s.pitchLfoVoices := by unfold release; split <;> rfl

@[simp] theorem release_featureDirty (v : Voice) (s : State) :
    (release v s).featureDirty = s.featureDirty := by unfold release; split <;> rfl

@[simp] theorem release_tempo (v : Voice) (s : State) :
    (release v s).tempo = s.tempo := by unfold release; split <;> rfl

@[simp] theorem release_reverbDepth (v : Voice) (s : State) :
    (release v s).reverbDepth = s.reverbDepth := by unfold release; split <;> rfl

@[simp] theorem release_tracks (v : Voice) (s : State) :
    (release v s).tracks = s.tracks := by unfold release; split <;> rfl

@[simp] theorem release_instrTable (v : Voice) (s : State) :
    (release v s).instrTable = s.instrTable := by unfold release; split <;> rfl

@[simp] theorem release_out (v : Voice) (s : State) : (release v s).out = s.out := by unfold release; split <;> rfl

@[simp] theorem release_link (v : Voice) (s : State) : (release v s).link = s.link := by unfold release; split <;> rfl

@[simp] theorem release_input (v : Voice) (s : State) :
    (release v s).input = s.input := by unfold release; split <;> rfl

/-! `releaseBound` -/

@[simp] theorem releaseBound_params (v : Option Voice) (s : State) :
    (releaseBound v s).params = s.params := by cases v <;> simp [releaseBound]

@[simp] theorem releaseBound_timeCounter (v : Option Voice) (s : State) :
    (releaseBound v s).timeCounter = s.timeCounter := by cases v <;> simp [releaseBound]

@[simp] theorem releaseBound_ticksPending (v : Option Voice) (s : State) :
    (releaseBound v s).ticksPending = s.ticksPending := by cases v <;> simp [releaseBound]

@[simp] theorem releaseBound_reverbType (v : Option Voice) (s : State) :
    (releaseBound v s).reverbType = s.reverbType := by cases v <;> simp [releaseBound]

@[simp] theorem releaseBound_error (v : Option Voice) (s : State) :
    (releaseBound v s).error = s.error := by cases v <;> simp [releaseBound]

@[simp] theorem releaseBound_result (v : Option Voice) (s : State) :
    (releaseBound v s).result = s.result := by cases v <;> simp [releaseBound]

@[simp] theorem releaseBound_keyedVoices (v : Option Voice) (s : State) :
    (releaseBound v s).keyedVoices = s.keyedVoices := by cases v <;> simp [releaseBound]

@[simp] theorem releaseBound_savedActiveVoices (v : Option Voice) (s : State) :
    (releaseBound v s).savedActiveVoices = s.savedActiveVoices := by cases v <;> simp [releaseBound]

@[simp] theorem releaseBound_noiseVoices (v : Option Voice) (s : State) :
    (releaseBound v s).noiseVoices = s.noiseVoices := by cases v <;> simp [releaseBound]

@[simp] theorem releaseBound_reverbVoices (v : Option Voice) (s : State) :
    (releaseBound v s).reverbVoices = s.reverbVoices := by cases v <;> simp [releaseBound]

@[simp] theorem releaseBound_pitchLfoVoices (v : Option Voice) (s : State) :
    (releaseBound v s).pitchLfoVoices = s.pitchLfoVoices := by cases v <;> simp [releaseBound]

@[simp] theorem releaseBound_featureDirty (v : Option Voice) (s : State) :
    (releaseBound v s).featureDirty = s.featureDirty := by cases v <;> simp [releaseBound]

@[simp] theorem releaseBound_tempo (v : Option Voice) (s : State) :
    (releaseBound v s).tempo = s.tempo := by cases v <;> simp [releaseBound]

@[simp] theorem releaseBound_reverbDepth (v : Option Voice) (s : State) :
    (releaseBound v s).reverbDepth = s.reverbDepth := by cases v <;> simp [releaseBound]

@[simp] theorem releaseBound_tracks (v : Option Voice) (s : State) :
    (releaseBound v s).tracks = s.tracks := by cases v <;> simp [releaseBound]

@[simp] theorem releaseBound_instrTable (v : Option Voice) (s : State) :
    (releaseBound v s).instrTable = s.instrTable := by cases v <;> simp [releaseBound]

@[simp] theorem releaseBound_out (v : Option Voice) (s : State) :
    (releaseBound v s).out = s.out := by cases v <;> simp [releaseBound]

@[simp] theorem releaseBound_link (v : Option Voice) (s : State) :
    (releaseBound v s).link = s.link := by cases v <;> simp [releaseBound]

@[simp] theorem releaseBound_input (v : Option Voice) (s : State) :
    (releaseBound v s).input = s.input := by cases v <;> simp [releaseBound]

/-! `addTicks` -/

@[simp] theorem addTicks_params (op : BitVec 8) (n : Nat) (s : State) :
    (addTicks op n s).params = s.params := by unfold addTicks; split <;> rfl

@[simp] theorem addTicks_timeCounter (op : BitVec 8) (n : Nat) (s : State) :
    (addTicks op n s).timeCounter = s.timeCounter := by unfold addTicks; split <;> rfl

@[simp] theorem addTicks_reverbType (op : BitVec 8) (n : Nat) (s : State) :
    (addTicks op n s).reverbType = s.reverbType := by unfold addTicks; split <;> rfl

@[simp] theorem addTicks_result (op : BitVec 8) (n : Nat) (s : State) :
    (addTicks op n s).result = s.result := by unfold addTicks; split <;> rfl

@[simp] theorem addTicks_activeVoices (op : BitVec 8) (n : Nat) (s : State) :
    (addTicks op n s).activeVoices = s.activeVoices := by unfold addTicks; split <;> rfl

@[simp] theorem addTicks_keyOnVoices (op : BitVec 8) (n : Nat) (s : State) :
    (addTicks op n s).keyOnVoices = s.keyOnVoices := by unfold addTicks; split <;> rfl

@[simp] theorem addTicks_keyedVoices (op : BitVec 8) (n : Nat) (s : State) :
    (addTicks op n s).keyedVoices = s.keyedVoices := by unfold addTicks; split <;> rfl

@[simp] theorem addTicks_keyOffVoices (op : BitVec 8) (n : Nat) (s : State) :
    (addTicks op n s).keyOffVoices = s.keyOffVoices := by unfold addTicks; split <;> rfl

@[simp] theorem addTicks_savedActiveVoices (op : BitVec 8) (n : Nat) (s : State) :
    (addTicks op n s).savedActiveVoices = s.savedActiveVoices := by unfold addTicks; split <;> rfl

@[simp] theorem addTicks_noiseVoices (op : BitVec 8) (n : Nat) (s : State) :
    (addTicks op n s).noiseVoices = s.noiseVoices := by unfold addTicks; split <;> rfl

@[simp] theorem addTicks_reverbVoices (op : BitVec 8) (n : Nat) (s : State) :
    (addTicks op n s).reverbVoices = s.reverbVoices := by unfold addTicks; split <;> rfl

@[simp] theorem addTicks_pitchLfoVoices (op : BitVec 8) (n : Nat) (s : State) :
    (addTicks op n s).pitchLfoVoices = s.pitchLfoVoices := by unfold addTicks; split <;> rfl

@[simp] theorem addTicks_featureDirty (op : BitVec 8) (n : Nat) (s : State) :
    (addTicks op n s).featureDirty = s.featureDirty := by unfold addTicks; split <;> rfl

@[simp] theorem addTicks_tempo (op : BitVec 8) (n : Nat) (s : State) :
    (addTicks op n s).tempo = s.tempo := by unfold addTicks; split <;> rfl

@[simp] theorem addTicks_reverbDepth (op : BitVec 8) (n : Nat) (s : State) :
    (addTicks op n s).reverbDepth = s.reverbDepth := by unfold addTicks; split <;> rfl

@[simp] theorem addTicks_tracks (op : BitVec 8) (n : Nat) (s : State) :
    (addTicks op n s).tracks = s.tracks := by unfold addTicks; split <;> rfl

@[simp] theorem addTicks_instrTable (op : BitVec 8) (n : Nat) (s : State) :
    (addTicks op n s).instrTable = s.instrTable := by unfold addTicks; split <;> rfl

@[simp] theorem addTicks_link (op : BitVec 8) (n : Nat) (s : State) :
    (addTicks op n s).link = s.link := by unfold addTicks; split <;> rfl

@[simp] theorem addTicks_input (op : BitVec 8) (n : Nat) (s : State) :
    (addTicks op n s).input = s.input := by unfold addTicks; split <;> rfl

/-! `modifySlide` -/

@[simp] theorem modifySlide_params (k : SlideKind) (t : TrackIx) (f : Slide → Slide) (s : State) :
    (modifySlide k t f s).params = s.params := by cases k <;> rfl

@[simp] theorem modifySlide_timeCounter (k : SlideKind) (t : TrackIx) (f : Slide → Slide) (s : State) :
    (modifySlide k t f s).timeCounter = s.timeCounter := by cases k <;> rfl

@[simp] theorem modifySlide_ticksPending (k : SlideKind) (t : TrackIx) (f : Slide → Slide) (s : State) :
    (modifySlide k t f s).ticksPending = s.ticksPending := by cases k <;> rfl

@[simp] theorem modifySlide_reverbType (k : SlideKind) (t : TrackIx) (f : Slide → Slide) (s : State) :
    (modifySlide k t f s).reverbType = s.reverbType := by cases k <;> rfl

@[simp] theorem modifySlide_error (k : SlideKind) (t : TrackIx) (f : Slide → Slide) (s : State) :
    (modifySlide k t f s).error = s.error := by cases k <;> rfl

@[simp] theorem modifySlide_result (k : SlideKind) (t : TrackIx) (f : Slide → Slide) (s : State) :
    (modifySlide k t f s).result = s.result := by cases k <;> rfl

@[simp] theorem modifySlide_activeVoices (k : SlideKind) (t : TrackIx) (f : Slide → Slide) (s : State) :
    (modifySlide k t f s).activeVoices = s.activeVoices := by cases k <;> rfl

@[simp] theorem modifySlide_keyOnVoices (k : SlideKind) (t : TrackIx) (f : Slide → Slide) (s : State) :
    (modifySlide k t f s).keyOnVoices = s.keyOnVoices := by cases k <;> rfl

@[simp] theorem modifySlide_keyedVoices (k : SlideKind) (t : TrackIx) (f : Slide → Slide) (s : State) :
    (modifySlide k t f s).keyedVoices = s.keyedVoices := by cases k <;> rfl

@[simp] theorem modifySlide_keyOffVoices (k : SlideKind) (t : TrackIx) (f : Slide → Slide) (s : State) :
    (modifySlide k t f s).keyOffVoices = s.keyOffVoices := by cases k <;> rfl

@[simp] theorem modifySlide_savedActiveVoices (k : SlideKind) (t : TrackIx) (f : Slide → Slide) (s : State) :
    (modifySlide k t f s).savedActiveVoices = s.savedActiveVoices := by cases k <;> rfl

@[simp] theorem modifySlide_noiseVoices (k : SlideKind) (t : TrackIx) (f : Slide → Slide) (s : State) :
    (modifySlide k t f s).noiseVoices = s.noiseVoices := by cases k <;> rfl

@[simp] theorem modifySlide_reverbVoices (k : SlideKind) (t : TrackIx) (f : Slide → Slide) (s : State) :
    (modifySlide k t f s).reverbVoices = s.reverbVoices := by cases k <;> rfl

@[simp] theorem modifySlide_pitchLfoVoices (k : SlideKind) (t : TrackIx) (f : Slide → Slide) (s : State) :
    (modifySlide k t f s).pitchLfoVoices = s.pitchLfoVoices := by cases k <;> rfl

@[simp] theorem modifySlide_featureDirty (k : SlideKind) (t : TrackIx) (f : Slide → Slide) (s : State) :
    (modifySlide k t f s).featureDirty = s.featureDirty := by cases k <;> rfl

@[simp] theorem modifySlide_instrTable (k : SlideKind) (t : TrackIx) (f : Slide → Slide) (s : State) :
    (modifySlide k t f s).instrTable = s.instrTable := by cases k <;> rfl

@[simp] theorem modifySlide_out (k : SlideKind) (t : TrackIx) (f : Slide → Slide) (s : State) :
    (modifySlide k t f s).out = s.out := by cases k <;> rfl

@[simp] theorem modifySlide_link (k : SlideKind) (t : TrackIx) (f : Slide → Slide) (s : State) :
    (modifySlide k t f s).link = s.link := by cases k <;> rfl

@[simp] theorem modifySlide_input (k : SlideKind) (t : TrackIx) (f : Slide → Slide) (s : State) :
    (modifySlide k t f s).input = s.input := by cases k <;> rfl

/-! `finish` -/

@[simp] theorem finish_params (t : TrackIx) (s : State) : (finish t s).params = s.params := by simp [finish]

@[simp] theorem finish_timeCounter (t : TrackIx) (s : State) :
    (finish t s).timeCounter = s.timeCounter := by simp [finish]

@[simp] theorem finish_ticksPending (t : TrackIx) (s : State) :
    (finish t s).ticksPending = s.ticksPending := by simp [finish]

@[simp] theorem finish_reverbType (t : TrackIx) (s : State) : (finish t s).reverbType = s.reverbType := by simp [finish]

@[simp] theorem finish_error (t : TrackIx) (s : State) : (finish t s).error = s.error := by simp [finish]

@[simp] theorem finish_result (t : TrackIx) (s : State) : (finish t s).result = s.result := by simp [finish]

@[simp] theorem finish_keyedVoices (t : TrackIx) (s : State) :
    (finish t s).keyedVoices = s.keyedVoices := by simp [finish]

@[simp] theorem finish_savedActiveVoices (t : TrackIx) (s : State) :
    (finish t s).savedActiveVoices = s.savedActiveVoices := by simp [finish]

@[simp] theorem finish_noiseVoices (t : TrackIx) (s : State) :
    (finish t s).noiseVoices = s.noiseVoices := by simp [finish]

@[simp] theorem finish_reverbVoices (t : TrackIx) (s : State) :
    (finish t s).reverbVoices = s.reverbVoices := by simp [finish]

@[simp] theorem finish_pitchLfoVoices (t : TrackIx) (s : State) :
    (finish t s).pitchLfoVoices = s.pitchLfoVoices := by simp [finish]

@[simp] theorem finish_featureDirty (t : TrackIx) (s : State) :
    (finish t s).featureDirty = s.featureDirty := by simp [finish]

@[simp] theorem finish_tempo (t : TrackIx) (s : State) : (finish t s).tempo = s.tempo := by simp [finish]

@[simp] theorem finish_reverbDepth (t : TrackIx) (s : State) :
    (finish t s).reverbDepth = s.reverbDepth := by simp [finish]

@[simp] theorem finish_instrTable (t : TrackIx) (s : State) : (finish t s).instrTable = s.instrTable := by simp [finish]

@[simp] theorem finish_out (t : TrackIx) (s : State) : (finish t s).out = s.out := by simp [finish]

@[simp] theorem finish_link (t : TrackIx) (s : State) : (finish t s).link = s.link := by simp [finish]

@[simp] theorem finish_input (t : TrackIx) (s : State) : (finish t s).input = s.input := by simp [finish]

/-! `reinitialise` (10_state.md R62, the column after SONG_INIT) -/

@[simp] theorem reinitialise_params (s : State) : (reinitialise s).params = s.params := rfl

@[simp] theorem reinitialise_timeCounter (s : State) : (reinitialise s).timeCounter = State.reset.timeCounter := rfl

@[simp] theorem reinitialise_ticksPending (s : State) : (reinitialise s).ticksPending = State.reset.ticksPending := rfl

@[simp] theorem reinitialise_reverbType (s : State) : (reinitialise s).reverbType = State.reset.reverbType := rfl

@[simp] theorem reinitialise_error (s : State) : (reinitialise s).error = s.error := rfl

@[simp] theorem reinitialise_result (s : State) : (reinitialise s).result = s.result := rfl

@[simp] theorem reinitialise_activeVoices (s : State) : (reinitialise s).activeVoices = State.reset.activeVoices := rfl

@[simp] theorem reinitialise_keyOnVoices (s : State) : (reinitialise s).keyOnVoices = State.reset.keyOnVoices := rfl

@[simp] theorem reinitialise_keyedVoices (s : State) : (reinitialise s).keyedVoices = State.reset.keyedVoices := rfl

@[simp] theorem reinitialise_keyOffVoices (s : State) : (reinitialise s).keyOffVoices = State.reset.keyOffVoices := rfl

@[simp] theorem reinitialise_savedActiveVoices (s : State) :
    (reinitialise s).savedActiveVoices = State.reset.savedActiveVoices := rfl

@[simp] theorem reinitialise_noiseVoices (s : State) : (reinitialise s).noiseVoices = State.reset.noiseVoices := rfl

@[simp] theorem reinitialise_reverbVoices (s : State) : (reinitialise s).reverbVoices = State.reset.reverbVoices := rfl

@[simp] theorem reinitialise_pitchLfoVoices (s : State) :
    (reinitialise s).pitchLfoVoices = State.reset.pitchLfoVoices := rfl

@[simp] theorem reinitialise_featureDirty (s : State) : (reinitialise s).featureDirty = State.reset.featureDirty := rfl

@[simp] theorem reinitialise_tempo (s : State) : (reinitialise s).tempo = State.reset.tempo := rfl

@[simp] theorem reinitialise_reverbDepth (s : State) : (reinitialise s).reverbDepth = State.reset.reverbDepth := rfl

@[simp] theorem reinitialise_tracks (s : State) : (reinitialise s).tracks = State.reset.tracks := rfl

@[simp] theorem reinitialise_instrTable (s : State) : (reinitialise s).instrTable = s.instrTable := rfl

@[simp] theorem reinitialise_out (s : State) : (reinitialise s).out = s.out := rfl

@[simp] theorem reinitialise_link (s : State) : (reinitialise s).link = s.link := rfl

@[simp] theorem reinitialise_input (s : State) : (reinitialise s).input = s.input := rfl

end Sys2Proof.Machine
end

