-- ==== Sys2Proof/Laws/Tracks.lean ====
section
/-! SUPPORT. Reading tracks after an update, and what the shared command shapes can answer. -/

namespace Sys2Proof.Machine

/-- A track below `n` after `mapTracks n f` is `f` of what it was; a place from `n` on is as it was. -/
theorem mapTracks_getElem (n : Nat) (f : Track → Track) (ts : Vector Track Config.maxTracks) (u : TrackIx) :
    (mapTracks n f ts)[u] = if u.val < n then f ts[u] else ts[u] := by
  have hm : Config.maxTracks = 64 := rfl
  have hu : u.val < 64 := u.isLt
  by_cases h : u.val < n
  · simp [mapTracks, h]
  · simp [mapTracks, h, List.getElem_append]
    congr 1
    omega

theorem mapTracks_getElem_of_isTrack {p : Config.Params} (f : Track → Track) (ts : Vector Track Config.maxTracks)
    {u : TrackIx} (h : IsTrack p u) : (mapTracks p.numTracks f ts)[u] = f ts[u] :=
  (mapTracks_getElem _ f ts u).trans (if_pos h)

theorem mapTracks_getElem_of_not_isTrack {p : Config.Params} (f : Track → Track) (ts : Vector Track Config.maxTracks)
    {u : TrackIx} (h : ¬ IsTrack p u) : (mapTracks p.numTracks f ts)[u] = ts[u] :=
  (mapTracks_getElem _ f ts u).trans (if_neg h)

/-- The live tracks are those below `NUM_TRACKS`. -/
theorem mem_liveTracks {s : State} {tr : Track} :
    tr ∈ liveTracks s ↔ ∃ u : TrackIx, IsTrack s.params u ∧ s.tracks[u] = tr := by
  have hm : Config.maxTracks = 64 := rfl
  simp only [liveTracks, List.mem_take_iff_getElem, IsTrack]
  constructor
  · rintro ⟨i, hi, rfl⟩
    simp only [Vector.length_toList] at hi
    have h : i < 64 := by omega
    exact ⟨⟨i, h⟩, by simp only; omega, by simp⟩
  · rintro ⟨u, hu, rfl⟩
    have h : u.val < 64 := u.isLt
    exact ⟨u.val, by simp only [Vector.length_toList]; omega, by simp⟩

@[simp] theorem modifyTrack_getElem_self (t : TrackIx) (f : Track → Track) (s : State) :
    (modifyTrack t f s).tracks[t] = f s.tracks[t] := by
  simp [modifyTrack]

theorem modifyTrack_getElem_ne {t u : TrackIx} (f : Track → Track) (s : State) (h : u ≠ t) :
    (modifyTrack t f s).tracks[u] = s.tracks[u] := by
  have h' : t.val ≠ u.val := fun e => h (Fin.ext e.symm)
  simp [modifyTrack, h']

/-- `modifyTrack` changes one track and nothing else. -/
theorem modifyTrack_onlyTrackChanges (t : TrackIx) (f : Track → Track) (s : State) :
    OnlyTrackChanges t s (modifyTrack t f s) :=
  ⟨rfl, fun _ h => modifyTrack_getElem_ne f s h⟩

/-- A track operand that names a track is that track. -/
theorem trackOperand_of_names {p : Config.Params} {idx : BitVec 8} {k : TrackIx} (h : NamesTrack p idx k) :
    trackOperand p idx = some k := by
  obtain ⟨hk, hlt⟩ := h
  unfold IsTrack at hlt
  rw [hk] at hlt
  simp only [trackOperand, hlt, dif_pos, Option.some.injEq]
  exact Fin.ext hk.symm

/-- A track operand from `NUM_TRACKS` on names no track. -/
theorem trackOperand_of_ge {p : Config.Params} {idx : BitVec 8} (h : p.numTracks.val ≤ idx.toNat) :
    trackOperand p idx = none := by
  simp [trackOperand, Nat.not_lt.mpr h]

/-- An operand below `NUM_TRACKS` names a track. -/
theorem names_of_lt {p : Config.Params} {idx : BitVec 8} (h : idx.toNat < p.numTracks.val) :
    ∃ k : TrackIx, NamesTrack p idx k :=
  ⟨⟨idx.toNat, Nat.lt_of_lt_of_le h (Nat.lt_succ_iff.mp p.numTracks.isLt)⟩, rfl, h⟩

/-- A voice operand below `NUM_VOICES` is that voice. -/
theorem voiceOperand_of_lt {p : Config.Params} {idx : BitVec 8} (h : idx.toNat < p.numVoices.val) :
    voiceOperand p idx = some (idx.setWidth 5) := by
  simp [voiceOperand, h]

/-- A voice operand from `NUM_VOICES` on names no voice. -/
theorem voiceOperand_of_ge {p : Config.Params} {idx : BitVec 8} (h : p.numVoices.val ≤ idx.toNat) :
    voiceOperand p idx = none := by
  simp [voiceOperand, Nat.not_lt.mpr h]

/-- A voice operand in `imm` below `NUM_VOICES` is that voice. -/
theorem immVoiceOperand_of_lt {p : Config.Params} {imm : BitVec 16} (h : imm.toNat < p.numVoices.val) :
    immVoiceOperand p imm = some (imm.setWidth 5) := by
  simp [immVoiceOperand, h]

/-- A voice operand in `imm` from `NUM_VOICES` on names no voice. -/
theorem immVoiceOperand_of_ge {p : Config.Params} {imm : BitVec 16} (h : p.numVoices.val ≤ imm.toNat) :
    immVoiceOperand p imm = none := by
  simp [immVoiceOperand, Nat.not_lt.mpr h]

/-- An entry operand below `NUM_INSTR` is that entry. -/
theorem entryOperand_of_lt {p : Config.Params} {idx : BitVec 8} (h : idx.toNat < p.numInstr.val) :
    entryOperand p idx = some idx.toNat := by
  simp [entryOperand, h]

/-- With R7's 256 entries every 8-bit operand names an entry (44_adsr.md R230). -/
theorem entryOperand_default (idx : BitVec 8) : entryOperand Config.defaultParams idx = some idx.toNat := by
  have h : idx.toNat < 256 := idx.isLt
  exact entryOperand_of_lt h

/-- The one-bit `ERROR` mask, in the two spellings. -/
theorem diagBit_eq_shift (d : Diag) : diagBit d = 1#10 <<< diagCode d := by
  cases d <;> rfl

/-- `note` is the record `raised` describes. -/
theorem note_eq_raised (d : Diag) (op : BitVec 8) (s : State) : note d op s = raised d op s := by
  simp [note, emit, raised, diagBit_eq_shift]

/-- A raise answers the state `raised` describes. -/
theorem raise_eq (d : Diag) (op : BitVec 8) (s : State) : raise d op s = .next (raised d op s) := by
  simp [raise, note_eq_raised]

/-- What `withTrack` can do: act on the track the operand names, or raise INDEX_RANGE. -/
theorem withTrack_cases (op idx : BitVec 8) (s : State) (act : TrackIx → StepResult) :
    (∃ t : TrackIx, NamesTrack s.params idx t ∧ withTrack op idx s act = act t) ∨
    (s.params.numTracks.val ≤ idx.toNat ∧ withTrack op idx s act = .next (raised .indexRange op s)) := by
  by_cases h : idx.toNat < s.params.numTracks.val
  · obtain ⟨t, ht⟩ := names_of_lt h
    exact .inl ⟨t, ht, by simp [withTrack, trackOperand_of_names ht]⟩
  · exact .inr ⟨Nat.not_lt.mp h, by simp [withTrack, trackOperand_of_ge (Nat.not_lt.mp h), raise_eq]⟩

/-- What `onTrack` can do: change the one track, or raise INDEX_RANGE. -/
theorem onTrack_cases (op idx : BitVec 8) (f : Track → Track) (s : State) :
    (∃ t : TrackIx, NamesTrack s.params idx t ∧ onTrack op idx f s = .next (modifyTrack t f s)) ∨
    (s.params.numTracks.val ≤ idx.toNat ∧ onTrack op idx f s = .next (raised .indexRange op s)) :=
  withTrack_cases op idx s _

/-- What `withVoice` can do: act on the voice the operand names, or raise INDEX_RANGE. -/
theorem withVoice_cases (op idx : BitVec 8) (s : State) (act : Voice → StepResult) :
    (idx.toNat < s.params.numVoices.val ∧ withVoice op idx s act = act (idx.setWidth 5)) ∨
    (s.params.numVoices.val ≤ idx.toNat ∧ withVoice op idx s act = .next (raised .indexRange op s)) := by
  by_cases h : idx.toNat < s.params.numVoices.val
  · exact .inl ⟨h, by simp [withVoice, voiceOperand_of_lt h]⟩
  · exact .inr ⟨Nat.not_lt.mp h, by simp [withVoice, voiceOperand_of_ge (Nat.not_lt.mp h), raise_eq]⟩

/-- What `withTrackVoice` can do: act on the track and the voice, or raise INDEX_RANGE for either (60_exceptions.md
R283). -/
theorem withTrackVoice_cases (op idx : BitVec 8) (imm : BitVec 16) (s : State) (act : TrackIx → Voice → StepResult) :
    (∃ t : TrackIx, NamesTrack s.params idx t ∧ imm.toNat < s.params.numVoices.val ∧
      withTrackVoice op idx imm s act = act t (imm.setWidth 5)) ∨
    ((s.params.numTracks.val ≤ idx.toNat ∨ s.params.numVoices.val ≤ imm.toNat) ∧
      withTrackVoice op idx imm s act = .next (raised .indexRange op s)) := by
  by_cases h : idx.toNat < s.params.numTracks.val
  · obtain ⟨t, ht⟩ := names_of_lt h
    by_cases h' : imm.toNat < s.params.numVoices.val
    · exact .inl ⟨t, ht, h', by simp [withTrackVoice, trackOperand_of_names ht, immVoiceOperand_of_lt h']⟩
    · exact .inr ⟨.inr (Nat.not_lt.mp h'),
        by simp [withTrackVoice, trackOperand_of_names ht, immVoiceOperand_of_ge (Nat.not_lt.mp h'), raise_eq]⟩
  · exact .inr ⟨.inl (Nat.not_lt.mp h),
      by simp [withTrackVoice, trackOperand_of_ge (Nat.not_lt.mp h), raise_eq]⟩

end Sys2Proof.Machine
end

