-- ==== Sys2Proof/Laws/Slides.lean ====
section
/-! SUPPORT. Slide units after a slide command, and the clamp. -/

namespace Sys2Proof.Machine

@[simp] theorem slideStep_remaining_zero (p : Config.Params) (k : SlideKind) (u : Slide) (h : u.remaining = 0) :
    slideStep p k u = u := by
  simp [slideStep, h]

/-- One step of a unit that still moves (42_slide.md R150). -/
theorem slideStep_of_remaining_ne (p : Config.Params) (k : SlideKind) (u : Slide) (h : u.remaining ≠ 0) :
    slideStep p k u =
      ⟨slideBits p (clampTo (slideRange p k) (slideNum p k u.value + slopeNum p u.slope)), u.slope, u.remaining - 1⟩ :=
  if_neg h

/-- A number within a kind's range is not clamped. -/
theorem clampTo_of_mem {r : Config.SlideRange} {x : Int} (hl : r.lo ≤ x) (hh : x ≤ r.hi) : clampTo r x = x := by
  simp [clampTo, Int.not_lt.mpr hl, Int.not_lt.mpr hh]

/-- With the bounds in order, what the clamp gives lies within them. -/
theorem clampTo_mem {r : Config.SlideRange} (x : Int) (h : r.lo ≤ r.hi) : r.lo ≤ clampTo r x ∧ clampTo r x ≤ r.hi := by
  unfold clampTo
  split
  · omega
  · split <;> omega

/-- What the `value` register keeps of a number is within its width. -/
theorem slideBits_fits (p : Config.Params) (x : Int) : Fits p.slideValueWidth.val (slideBits p x) := narrow_fits _ _

/-- A step keeps a unit within its widths (42_slide.md R150). -/
theorem slideStep_fits {p : Config.Params} (k : SlideKind) {u : Slide} (h : SlideFits p u) :
    SlideFits p (slideStep p k u) := by
  by_cases h0 : u.remaining = 0
  · rwa [slideStep_remaining_zero p k u h0]
  · rw [slideStep_of_remaining_ne p k u h0]
    exact ⟨slideBits_fits p _, h.2.1, h.2.2.pred h0⟩

/-- SLIDE_VALUE.k keeps a unit within its widths (R154). -/
theorem slideSetValue_fits {p : Config.Params} (k : SlideKind) (data : Word) {u : Slide} (h : SlideFits p u) :
    SlideFits p (slideSetValue p k data u) :=
  ⟨slideBits_fits p _, h.2.1, fits_zero 16 _⟩

/-- SLIDE_START.k keeps a unit within its widths (R155). -/
theorem slideSetSlope_fits {p : Config.Params} (length : BitVec 16) (slope : Word) {u : Slide} (h : SlideFits p u) :
    SlideFits p (slideSetSlope p length slope u) :=
  ⟨h.1, narrow_fits _ _, narrow_fits _ _⟩

/-- A stopped unit is within its widths (41_timing.md R125). -/
theorem slideStop_fits {p : Config.Params} {u : Slide} (h : SlideFits p u) : SlideFits p (slideStop u) :=
  ⟨h.1, h.2.1, fits_zero 16 _⟩

/-- A slide command changes its own unit. -/
theorem slideUnit_modifySlide_self (k : SlideKind) (t : TrackIx) (f : Slide → Slide) (s : State) :
    slideUnit k t (modifySlide k t f s) = f (slideUnit k t s) := by
  cases k <;> simp [slideUnit, modifySlide]

/-- A slide command leaves the units of every other kind as they were (42_slide.md R174). -/
theorem slideUnit_modifySlide_kind_ne {k k' : SlideKind} (t t' : TrackIx) (f : Slide → Slide) (s : State) (h : k' ≠ k) :
    slideUnit k' t' (modifySlide k t f s) = slideUnit k' t' s := by
  cases k <;> cases k' <;> first | (exact absurd rfl h) | rfl |
    (by_cases ht : t' = t
     · subst ht; simp [slideUnit, modifySlide]
     · have hv : t.val ≠ t'.val := fun e => ht (Fin.ext e.symm)
       simp [slideUnit, modifySlide, hv])

/-- A per-track slide command leaves the other tracks' units as they were. -/
theorem slideUnit_modifySlide_track_ne {k : SlideKind} {t t' : TrackIx} (f : Slide → Slide) (s : State)
    (hk : slideIsPerTrack k = true) (h : t' ≠ t) : slideUnit k t' (modifySlide k t f s) = slideUnit k t' s := by
  have hv : t.val ≠ t'.val := fun e => h (Fin.ext e.symm)
  cases k <;> simp_all [slideIsPerTrack, slideUnit, modifySlide]

/-- What a slide command can do: change its unit, or raise INDEX_RANGE for a track out of range. -/
theorem onSlide_cases (k : SlideKind) (op idx : BitVec 8) (f : Slide → Slide) (s : State) :
    (slideIsPerTrack k = false ∧ onSlide k op idx f s = .next (modifySlide k 0 f s)) ∨
    (slideIsPerTrack k = true ∧ ∃ t : TrackIx, NamesTrack s.params idx t ∧
      onSlide k op idx f s = .next (modifySlide k t f s)) ∨
    (slideIsPerTrack k = true ∧ s.params.numTracks.val ≤ idx.toNat ∧
      onSlide k op idx f s = .next (raised .indexRange op s)) := by
  cases hk : slideIsPerTrack k
  · exact .inl ⟨rfl, by simp [onSlide, hk]⟩
  · rcases withTrack_cases op idx s (fun t => .next (modifySlide k t f s)) with ⟨t, h, e⟩ | ⟨h, e⟩
    · exact .inr (.inl ⟨rfl, t, h, by simpa [onSlide, hk] using e⟩)
    · exact .inr (.inr ⟨rfl, h, by simpa [onSlide, hk] using e⟩)

end Sys2Proof.Machine
end

