-- ==== Sys2Proof/Laws/Timing.lean ====
section
/-! SUPPORT. What the shared operations of the timing commands can do (41_timing.md). -/

namespace Sys2Proof.Machine

/-- `crossings` in division form (R120). -/
theorem crossings_eq (f tc tempo : Nat) : crossings f tc tempo = (tc % 2 ^ f + tempo) / 2 ^ f := by
  simp only [crossings, Nat.shiftRight_eq_div_pow]

/-- The counter after BLOCK (R121, 10_state.md R28). -/
theorem advanceTime_toNat (s : State) : (advanceTime s).timeCounter.toNat =
    (s.timeCounter.toNat + s.tempo.value.toNat) % 2 ^ s.params.tcWidth.val := by
  have h : 2 ^ s.params.tcWidth.val ∣ 2 ^ 32 := Nat.pow_dvd_pow 2 (Nat.lt_succ_iff.mp s.params.tcWidth.isLt)
  rw [advanceTime, narrow_toNat, BitVec.toNat_add, Nat.mod_mod_of_dvd _ h]

/-- What `addTicks` can do: add without saturating, or saturate with the TICKS_SAT note (R121). -/
theorem addTicks_cases (op : BitVec 8) (n : Nat) (s : State) :
    (s.ticksPending.toNat + n ≤ 2 ^ s.params.tpWidth.val - 1 ∧
      addTicks op n s = { s with ticksPending := BitVec.ofNat 32 (s.ticksPending.toNat + n) }) ∨
    (2 ^ s.params.tpWidth.val - 1 < s.ticksPending.toNat + n ∧
      addTicks op n s =
        raised .ticksSat op { s with ticksPending := BitVec.ofNat 32 (2 ^ s.params.tpWidth.val - 1) }) := by
  by_cases h : 2 ^ s.params.tpWidth.val - 1 < s.ticksPending.toNat + n
  · exact .inr ⟨h, by rw [addTicks, if_pos h, note_eq_raised]⟩
  · exact .inl ⟨Nat.not_lt.mp h, by rw [addTicks, if_neg h]⟩

/-- An inactive track is untouched by a tick (R122). -/
theorem tickTrack_of_inactive (p : Config.Params) {tr : Track} (h : tr.active = false) : tickTrack p tr = tr := by
  simp [tickTrack, h]

/-- An active track counts down and steps its slides (R122). -/
theorem tickTrack_of_active (p : Config.Params) {tr : Track} (h : tr.active = true) :
    tickTrack p tr = stepTrackSlides p (countDown tr) := by
  simp [tickTrack, h]

/-- The finished track is idle (R125). -/
theorem finish_getElem_self (t : TrackIx) (s : State) : (finish t s).tracks[t] = finishedTrack s.tracks[t] := by
  simp [finish]

/-- `finish` leaves every other track as it was (R125). -/
theorem finish_getElem_ne {t u : TrackIx} (s : State) (h : u ≠ t) : (finish t s).tracks[u] = s.tracks[u] := by
  unfold finish
  rw [modifyTrack_getElem_ne _ _ h]
  simp

end Sys2Proof.Machine
end

