-- ==== Sys2Proof/Laws/Voices.lean ====
section
/-! SUPPORT. The voice bits after a bit is set or cleared, and the voices a bitset lists. -/

namespace Sys2Proof.Machine

/-- A voice number has 5 bits. -/
theorem voice_lt (v : Voice) : v.toNat < 32 := v.isLt

@[simp] theorem hasVoice_zero (v : Voice) : hasVoice 0#32 v = false := by
  simp [hasVoice]

theorem hasVoice_setVoice_self {w : Nat} (b : Word) {v : Voice} (h : v.toNat < w) :
    hasVoice (setVoice w b v) v = true := by
  simp [hasVoice, setVoice, voiceBit, voice_lt v, h]

/-- A bitset of `w` bits has no bit to set for a voice from `w` on. -/
theorem setVoice_of_ge {w : Nat} (b : Word) {v : Voice} (h : w ≤ v.toNat) : setVoice w b v = b := by
  simp [setVoice, voiceBit, Nat.not_lt.mpr h]

@[simp] theorem hasVoice_clearVoice_self (b : Word) (v : Voice) : hasVoice (clearVoice b v) v = false := by
  simp [hasVoice, clearVoice, BitVec.getLsbD_twoPow]

theorem hasVoice_setVoice_ne {n : Nat} {v w : Voice} (b : Word) (h : w ≠ v) :
    hasVoice (setVoice n b v) w = hasVoice b w := by
  have hn : v.toNat ≠ w.toNat := fun e => h (BitVec.eq_of_toNat_eq e.symm)
  by_cases hv : v.toNat < n
  · simp [hasVoice, setVoice, voiceBit, hv, BitVec.getLsbD_twoPow, hn]
  · rw [setVoice_of_ge b (Nat.not_lt.mp hv)]

theorem hasVoice_clearVoice_ne {v w : Voice} (b : Word) (h : w ≠ v) : hasVoice (clearVoice b v) w = hasVoice b w := by
  have hn : v.toNat ≠ w.toNat := fun e => h (BitVec.eq_of_toNat_eq e.symm)
  have hw : w.toNat < 32 := voice_lt w
  simp [hasVoice, clearVoice, hw, Ne.symm hn]

@[simp] theorem hasVoice_or (a b : Word) (v : Voice) : hasVoice (a ||| b) v = (hasVoice a v || hasVoice b v) := by
  simp [hasVoice]

@[simp] theorem hasVoice_not (b : Word) (v : Voice) : hasVoice (~~~b) v = !hasVoice b v := by
  have hv : v.toNat < 32 := voice_lt v
  simp [hasVoice, hv]

@[simp] theorem hasVoice_and (a b : Word) (v : Voice) : hasVoice (a &&& b) v = (hasVoice a v && hasVoice b v) := by
  simp [hasVoice]

/-- A bitset is its voices. -/
theorem bitset_ext {a b : Word} (h : ∀ v : Voice, hasVoice a v = hasVoice b v) : a = b := by
  ext i hi
  have := h (BitVec.ofNat 5 i)
  simpa [hasVoice, Nat.mod_eq_of_lt hi, ← BitVec.getLsbD_eq_getElem] using this

/-- A bitset is empty when no voice is in it. -/
theorem bitset_eq_zero_iff {a : Word} : a = 0 ↔ ∀ v : Voice, hasVoice a v = false :=
  ⟨fun h v => h ▸ hasVoice_zero v, fun h => bitset_ext fun v => by simp [h v]⟩

/-- `voicesOf` lists exactly the voices below `NUM_VOICES` of the bitset. -/
theorem mem_voicesOf {n : Nat} (hn : n ≤ 32) {b : Word} {v : Voice} :
    v ∈ voicesOf n b ↔ v.toNat < n ∧ hasVoice b v = true := by
  simp only [voicesOf, List.mem_filter, List.mem_map, List.mem_range]
  constructor
  · rintro ⟨⟨i, hi, rfl⟩, hb⟩
    have h : i % 32 = i := Nat.mod_eq_of_lt (by omega)
    exact ⟨by simpa [h] using hi, hb⟩
  · rintro ⟨hv, hb⟩
    exact ⟨⟨v.toNat, hv, by simp⟩, hb⟩

@[simp] theorem voicesOf_zero (n : Nat) : voicesOf n 0 = [] := by
  simp [voicesOf]

/-- `ascending` is what RESOLVE and SONG_INIT list. -/
theorem ascending_eq_voicesOf {n : Nat} (hn : n ≤ 32) (b : Word) : ascending n b = voicesOf n b := by
  simp only [ascending, voicesOf, List.filter_map]
  congr 1
  refine List.filter_congr fun i hi => ?_
  have h : i % 32 = i := Nat.mod_eq_of_lt (by have := List.mem_range.mp hi; omega)
  simp [hasVoice, h]

/-- VOICE_BIND finds a conflict exactly where another track has the voice as its primary (43_voice.md R203). -/
theorem heldByOther_iff {t : TrackIx} {v : Voice} {s : State} : heldByOther t v s = true ↔
    ∃ u : TrackIx, IsTrack s.params u ∧ u ≠ t ∧ s.tracks[u].primary = some v := by
  have hm : s.tracks.toList.length = 64 := by simp
  simp only [heldByOther, liveTracks, List.any_eq_true, Prod.exists, List.mem_zipIdx_iff_getElem?, Bool.and_eq_true,
    decide_eq_true_eq, List.getElem?_take, IsTrack]
  constructor
  · rintro ⟨tr, i, hi, hne, hp⟩
    split at hi
    · rename_i hlt
      obtain ⟨h, rfl⟩ := List.getElem?_eq_some_iff.mp hi
      exact ⟨⟨i, by omega⟩, hlt, fun e => hne (congrArg Fin.val e), by simpa using hp⟩
    · cases hi
  · rintro ⟨u, hu, hne, hp⟩
    exact ⟨s.tracks[u], u.val, by simp [hu], fun e => hne (Fin.ext e), hp⟩

/-- INV1 to INV4 by voices (10_state.md R33). -/
theorem voiceInv_iff (s : State) : VoiceInv s ↔ ∀ v : Voice,
    (hasVoice s.keyedVoices v = true → hasVoice s.activeVoices v = true) ∧
    (hasVoice s.keyOnVoices v = true → hasVoice s.keyOffVoices v = false) ∧
    (hasVoice s.keyOffVoices v = true → hasVoice s.keyedVoices v = true) ∧
    (hasVoice s.keyOnVoices v = true → hasVoice s.activeVoices v = true) := by
  simp only [VoiceInv, bitset_eq_zero_iff, hasVoice_not, hasVoice_and, Bool.and_eq_false_imp, Bool.not_eq_false',
    ← forall_and]

end Sys2Proof.Machine
end

