-- ==== Sys2Proof/Tests/Slice0.lean ====
section
/-! SUPPORT. Tests of the model, and witnesses that the hypotheses of the statements can be met. Expected values come from
the rules' own examples and from spec/95_test_vectors.md, whose ids are cited, or are worked out by hand from the rules. -/

namespace Sys2Proof.Tests

open Sys2Proof.Machine

/-! Helpers. -/

/-- The state an outcome holds. -/
def after (r : StepResult) : State :=
  match r with
  | .next s => s
  | .fault _ | .refused _ => State.reset

/-- Reset with track `t` changed by `f`. -/
def withTrackAt (t : TrackIx) (f : Track → Track) : State := modifyTrack t f State.reset

/-- The word decodes to the command, is what the encoder writes, and is what the command's table row reads as. -/
def isWordOf (w : CmdWord) (i : Instr) : Bool :=
  decide (decode w = .command i) && decide (encode i = w) && decide (decodeTableWord 64 w.toNat = some i)

/-- Reset of a block with other values of the parameters of 00_scope.md R7. -/
def small : State :=
  { State.reset with params := { Config.defaultParams with
      fracBits := 8, numVoices := 24, bitsetWidth := 24, numInstr := 8, numTracks := 2, tcWidth := 20, tpWidth := 4,
      deltaWidth := 8, slideValueWidth := 16, slideSlopeWidth := 16, slideLenWidth := 4, arW := 5, slW := 6, modeW := 1,
      pitchW := 12, volW := 8, addrW := 24, instrIdW := 2 } }

/-! WellFormed: an ill-formed term for each check (30_encoding.md R98), and the last index each check admits. -/

theorem test_wellFormed_track :
    (Instr.setDelta 56 1).wellFormed Config.defaultParams = false ∧
    (Instr.setDelta 55 1).wellFormed Config.defaultParams = true := by
  decide

theorem test_wellFormed_voice :
    (Instr.keyOn 32).wellFormed Config.defaultParams = false ∧ (Instr.keyOn 31).wellFormed Config.defaultParams = true := by decide

theorem test_wellFormed_immVoice :
    (Instr.voiceBind 0 40).wellFormed Config.defaultParams = false ∧
    (Instr.overlayOn 56 3).wellFormed Config.defaultParams = false ∧
    (Instr.voiceBind 0 31).wellFormed Config.defaultParams = true := by decide

theorem test_wellFormed_selector :
    (Instr.voicesQuery 8 0).wellFormed Config.defaultParams = false ∧
    (Instr.voicesQuery 7 0).wellFormed Config.defaultParams = true := by decide

theorem test_wellFormed_regIndex :
    (Instr.regRead 56 0x200).wellFormed Config.defaultParams = false ∧
    (Instr.regRead 1 0x003).wellFormed Config.defaultParams = false ∧
    (Instr.regRead 1 0x006).wellFormed Config.defaultParams = false ∧
    (Instr.regRead 55 0x200).wellFormed Config.defaultParams = true ∧
    (Instr.regRead 255 0x30B).wellFormed Config.defaultParams = true := by decide

/-- The entry check refuses no 8-bit index: `NUM_INSTR` is 256 (44_adsr.md R230). -/
theorem test_wellFormed_entry : (Instr.instrWrite 255 11 1).wellFormed Config.defaultParams = true := by decide

/-! Decoding: a word of every command, its fields placed by hand as 30_encoding.md R90 and R91 say, under the op byte of
R92. The index is 0x2B where it is a track or an entry, the short operand 0x81C7, the long operand 0x9234567F. -/

theorem test_decode_timing :
    isWordOf 0x0000000000000000 .nop ∧
    isWordOf 0x0100000000000000 .block ∧
    isWordOf 0x0200000000000000 .tick ∧
    isWordOf 0x032B81C700000000 (.setDelta 0x2B 0x81C7) ∧
    isWordOf 0x042B000000000000 (.trackStart 0x2B) ∧
    isWordOf 0x052B000000000000 (.trackFinish 0x2B) ∧
    isWordOf 0x060000009234567F (.timeSet 0x9234567F) ∧
    isWordOf 0x070000009234567F (.reverbTypeSet 0x9234567F) ∧
    isWordOf 0x082B000000000000 (.deviceFault 0x2B) := by decide

theorem test_decode_system :
    isWordOf 0x0C2B020A00000000 (.regRead 0x2B 0x020A) ∧
    isWordOf 0x0D0000009234567F (.statusClear 0x9234567F) ∧
    isWordOf 0x0E00000000000000 .songInit := by decide

theorem test_decode_slide_value :
    isWordOf 0x100000009234567F (.slideValueTempo 0x9234567F) ∧
    isWordOf 0x110000009234567F (.slideValueReverbDepth 0x9234567F) ∧
    isWordOf 0x122B00009234567F (.slideValueVolume 0x2B 0x9234567F) ∧
    isWordOf 0x132B00009234567F (.slideValuePan 0x2B 0x9234567F) ∧
    isWordOf 0x142B00009234567F (.slideValuePitchBend 0x2B 0x9234567F) ∧
    isWordOf 0x152B00009234567F (.slideValueVibratoDepth 0x2B 0x9234567F) ∧
    isWordOf 0x162B00009234567F (.slideValueTremoloDepth 0x2B 0x9234567F) ∧
    isWordOf 0x172B00009234567F (.slideValuePanLfoDepth 0x2B 0x9234567F) ∧
    isWordOf 0x182B00009234567F (.slideValueOverlayBalance 0x2B 0x9234567F) := by decide

theorem test_decode_slide_start :
    isWordOf 0x200081C79234567F (.slideStartTempo 0x81C7 0x9234567F) ∧
    isWordOf 0x210081C79234567F (.slideStartReverbDepth 0x81C7 0x9234567F) ∧
    isWordOf 0x222B81C79234567F (.slideStartVolume 0x2B 0x81C7 0x9234567F) ∧
    isWordOf 0x232B81C79234567F (.slideStartPan 0x2B 0x81C7 0x9234567F) ∧
    isWordOf 0x242B81C79234567F (.slideStartPitchBend 0x2B 0x81C7 0x9234567F) ∧
    isWordOf 0x252B81C79234567F (.slideStartVibratoDepth 0x2B 0x81C7 0x9234567F) ∧
    isWordOf 0x262B81C79234567F (.slideStartTremoloDepth 0x2B 0x81C7 0x9234567F) ∧
    isWordOf 0x272B81C79234567F (.slideStartPanLfoDepth 0x2B 0x81C7 0x9234567F) ∧
    isWordOf 0x282B81C79234567F (.slideStartOverlayBalance 0x2B 0x81C7 0x9234567F) := by decide

theorem test_decode_voice :
    isWordOf 0x301D000000000000 (.keyOn 0x1D) ∧
    isWordOf 0x311D000000000000 (.keyOff 0x1D) ∧
    isWordOf 0x3200000000000000 .resolve ∧
    isWordOf 0x3300000000000000 .saveActive ∧
    isWordOf 0x341D000000000000 (.noiseOn 0x1D) ∧
    isWordOf 0x351D000000000000 (.noiseOff 0x1D) ∧
    isWordOf 0x361D000000000000 (.reverbOn 0x1D) ∧
    isWordOf 0x371D000000000000 (.reverbOff 0x1D) ∧
    isWordOf 0x381D000000000000 (.plfoOn 0x1D) ∧
    isWordOf 0x391D000000000000 (.plfoOff 0x1D) ∧
    isWordOf 0x3A0500009234567F (.voicesQuery 0x05 0x9234567F) := by decide

theorem test_decode_binding :
    isWordOf 0x3B2B001D00000000 (.voiceBind 0x2B 0x001D) ∧
    isWordOf 0x3C2B000000000000 (.voiceUnbind 0x2B) ∧
    isWordOf 0x3D2B001D00000000 (.overlayOn 0x2B 0x001D) ∧
    isWordOf 0x3E2B001D00000000 (.alternateOn 0x2B 0x001D) ∧
    isWordOf 0x3F2B000000000000 (.secondaryOff 0x2B) := by decide

theorem test_decode_shadow :
    isWordOf 0x402B00099234567F (.instrWrite 0x2B 0x0009 0x9234567F) ∧
    isWordOf 0x412B81C700000000 (.loadInstr 0x2B 0x81C7) ∧
    isWordOf 0x422B81C700000000 (.setAttackRate 0x2B 0x81C7) ∧
    isWordOf 0x432B81C700000000 (.setDecayRate 0x2B 0x81C7) ∧
    isWordOf 0x442B81C700000000 (.setSustainRate 0x2B 0x81C7) ∧
    isWordOf 0x452B81C700000000 (.setReleaseRate 0x2B 0x81C7) ∧
    isWordOf 0x462B81C700000000 (.setSustainLevel 0x2B 0x81C7) ∧
    isWordOf 0x472B81C700000000 (.setAttackMode 0x2B 0x81C7) ∧
    isWordOf 0x482B81C700000000 (.setDecayMode 0x2B 0x81C7) ∧
    isWordOf 0x492B81C700000000 (.setReleaseMode 0x2B 0x81C7) ∧
    isWordOf 0x4A2B81C700000000 (.setPitch 0x2B 0x81C7) ∧
    isWordOf 0x4B2B00009234567F (.setVolume 0x2B 0x9234567F) ∧
    isWordOf 0x4C2B00009234567F (.setAddr 0x2B 0x9234567F) ∧
    isWordOf 0x4D2B00009234567F (.setLoopAddr 0x2B 0x9234567F) := by decide

/-- The bits a format does not use make no difference, and an encoder writes 0 there (R91, R96). -/
theorem test_decode_ignoresUnusedBits :
    decode 0x00FFFFFFFFFFFFFF = .command .nop ∧ decode 0x0403BEEF12345678 = .command (.trackStart 3) ∧
    decode 0x0600FFFF00008000 = .command (.timeSet 0x8000) ∧ decode 0x20FF000400004000 = .command (.slideStartTempo 4 0x4000) ∧
    decode 0x4B03FFFF20003FFF = .command (.setVolume 3 0x20003FFF) := by decide

/-- Vectors X1, X2: reserved op bytes (R94), at the ends of each gap. -/
theorem test_decode_reserved :
    decode 0x0900000000000000 = .reservedOpcode 0x09 ∧ decode 0x0B00000000000000 = .reservedOpcode 0x0B ∧
    decode 0x0F00000000000000 = .reservedOpcode 0x0F ∧ decode 0x1900000000000000 = .reservedOpcode 0x19 ∧
    decode 0x1F00000000000000 = .reservedOpcode 0x1F ∧ decode 0x2900000000000000 = .reservedOpcode 0x29 ∧
    decode 0x2F00000000000000 = .reservedOpcode 0x2F ∧ decode 0x4E00000000000000 = .reservedOpcode 0x4E ∧
    decode 0xFF00000000000000 = .reservedOpcode 0xFF := by decide

/-- A part-word is no command; a word's bytes move least significant first (20_memory.md R75, R76). -/
theorem test_decode_bytes :
    decodeBytes [0x05, 0, 0, 0, 0, 0, 0] = .error .partWord ∧
    decodeBytes [0x05, 0, 0, 0, 0x03, 0, 0x02, 0x22, 0xAA] = .ok (.slideStartVolume 2 3 5, [0xAA]) ∧
    resultBytes 0x01103820 = [0x20, 0x38, 0x10, 0x01] := by decide

/-! One step of each command. -/

/-- The example of R121 (vector T1): two boundaries crossed. -/
theorem test_block_crosses_two :
    let s := after (exec .block { State.reset with tempo := ⟨0x18000, 0, 0⟩, timeCounter := 0x8000 })
    s.timeCounter = 0x20000 ∧ s.ticksPending = 2 ∧ s.out = [] := by decide

/-- Vector T7: saturation is noted, the counter still advances. -/
theorem test_block_saturates :
    let s := after (exec .block { State.reset with tempo := ⟨0x10000, 0, 0⟩, ticksPending := 0xFFFFFFFF })
    s.ticksPending = 0xFFFFFFFF ∧ s.error = 0x200 ∧ s.out = [.diag .ticksSat 0x01] ∧ s.timeCounter = 0x10000 := by decide

/-- The example of R122 (vector T9): the track wakes. -/
theorem test_tick_wakes :
    let s := after (exec .tick { withTrackAt 3 (fun tr => { tr with active := true, delta := 1 }) with ticksPending := 1 })
    s.ticksPending = 0 ∧ s.tracks[3].delta = 0 ∧ s.tracks[3].wake = true := by decide

/-- Vector T8. -/
theorem test_tick_none_pending :
    let s := after (exec .tick State.reset)
    s.error = 0x10 ∧ s.out = [.diag .noTick 0x02] := by decide

/-- The example of R123 (vector T12). -/
theorem test_setDelta : (after (exec (.setDelta 3 48) State.reset)).tracks[3].delta = 48 := by decide

/-- Vector T14: the first track out of range. -/
theorem test_setDelta_out_of_range :
    let s := after (exec (.setDelta 56 1) State.reset)
    s.error = 0x02 ∧ s.out = [.diag .indexRange 0x03] := by decide

/-- The example of R124 (vector T15): `STATUS` is 0x09. -/
theorem test_trackStart :
    let s := after (exec (.trackStart 0) State.reset)
    s.tracks[0].active = true ∧ s.tracks[0].wake = true ∧ status s = 0x09 := by decide

/-- The example of R126 (vector T16): the keyed voice of the track is key-off-pending. -/
theorem test_trackFinish_keyed :
    let s := after (exec (.trackFinish 2) { withTrackAt 2 (fun tr => { tr with active := true, primary := some 4 }) with
      activeVoices := 0x10, keyedVoices := 0x10 })
    s.keyOffVoices = 0x10 ∧ s.tracks[2].primary = none ∧ s.tracks[2].active = false ∧ s.out = [] := by decide

/-- Vector T17: a voice that was never keyed goes straight to idle. -/
theorem test_trackFinish_not_keyed :
    let s := after (exec (.trackFinish 2) { withTrackAt 2 (fun tr => { tr with primary := some 4 }) with
      activeVoices := 0x10, keyOnVoices := 0x10 })
    s.keyOnVoices = 0 ∧ s.activeVoices = 0 ∧ s.keyOffVoices = 0 := by decide

/-- The example of R127. -/
theorem test_deviceFault :
    let s := after (exec (.deviceFault 1) (withTrackAt 1 fun tr => { tr with active := true }))
    s.error = 0x40 ∧ s.out = [.diag .deviceFault 0x08] ∧ s.tracks[1].active = false := by decide

/-- R128. -/
theorem test_timeSet : (after (exec (.timeSet 0xFFFF8000) State.reset)).timeCounter = 0xFFFF8000 := by decide

/-- The example of R129 (vector T20). -/
theorem test_reverbTypeSet : (after (exec (.reverbTypeSet 3) State.reset)).reverbType = 3 := by decide

/-- R25: `ID` with the default parameters. -/
theorem test_regRead_id : (after (exec (.regRead 0 0) State.reset)).result = 0x01103820 := by decide

/-- Vector X3: an unmapped number comes before an index out of range. -/
theorem test_regRead_unmapped :
    let s := after (exec (.regRead 56 0x999) { State.reset with result := 7 })
    s.result = 0 ∧ s.out = [.diag .badReg 0x0C] := by decide

/-- R262: only the bits of the mask are cleared. -/
theorem test_statusClear : (after (exec (.statusClear 0xFFFFFF0F) { State.reset with error := 0x3FF })).error = 0x0F0 := by
  decide

/-- The example of R263 (vector Y12). -/
theorem test_songInit :
    let s := after (exec .songInit { State.reset with
      activeVoices := 5, keyedVoices := 5, error := 0x80, featureDirty := 0, instrTable := [(16, 3)] })
    s.out = [.keyOff 0, .keyOff 2] ∧ s.error = 0x80 ∧ s.keyedVoices = 0 ∧ status s = 0x0C ∧ s.instrTable = [(16, 3)] := by
  decide

/-- R260. -/
theorem test_nop : (after (exec .nop { State.reset with result := 5 })).result = 5 := by decide

/-- R156: one tick a block. -/
theorem test_slideValueTempo :
    (after (exec (.slideValueTempo 0xFFFFFFFF) State.reset)).tempo = ⟨0xFFFFFFFF, 0, 0⟩ := by decide

theorem test_slideValueReverbDepth :
    (after (exec (.slideValueReverbDepth 0x80000000) { State.reset with reverbDepth := ⟨1, 2, 3⟩ })).reverbDepth =
      ⟨0x80000000, 2, 0⟩ := by decide

/-- Vector S8: the slide stops and keeps its slope. -/
theorem test_slideValueVolume :
    (after (exec (.slideValueVolume 2 100) (withTrackAt 2 fun tr => { tr with volume := ⟨0, 7, 5⟩ }))).tracks[2].volume =
      ⟨100, 7, 0⟩ := by decide

/-- Vector S11. -/
theorem test_slideValueVolume_out_of_range :
    let s := after (exec (.slideValueVolume 56 1) State.reset)
    s.error = 0x02 ∧ s.out = [.diag .indexRange 0x12] := by decide

theorem test_slideValuePan : (after (exec (.slideValuePan 0 7) State.reset)).tracks[0].pan = ⟨7, 0, 0⟩ := by decide

theorem test_slideValuePitchBend :
    (after (exec (.slideValuePitchBend 1 8) State.reset)).tracks[1].pitchBend = ⟨8, 0, 0⟩ := by decide

theorem test_slideValueVibratoDepth :
    (after (exec (.slideValueVibratoDepth 2 9) State.reset)).tracks[2].vibratoDepth = ⟨9, 0, 0⟩ := by decide

theorem test_slideValueTremoloDepth :
    (after (exec (.slideValueTremoloDepth 3 10) State.reset)).tracks[3].tremoloDepth = ⟨10, 0, 0⟩ := by decide

theorem test_slideValuePanLfoDepth :
    (after (exec (.slideValuePanLfoDepth 4 11) State.reset)).tracks[4].panLfoDepth = ⟨11, 0, 0⟩ := by decide

theorem test_slideValueOverlayBalance :
    (after (exec (.slideValueOverlayBalance 55 12) State.reset)).tracks[55].overlayBalance = ⟨12, 0, 0⟩ := by decide

theorem test_slideStartTempo :
    (after (exec (.slideStartTempo 4 0x4000) { State.reset with tempo := ⟨9, 8, 7⟩ })).tempo = ⟨9, 0x4000, 4⟩ := by decide

theorem test_slideStartReverbDepth :
    (after (exec (.slideStartReverbDepth 3 10) State.reset)).reverbDepth = ⟨0, 10, 3⟩ := by decide

/-- Vector S1: the value is kept. -/
theorem test_slideStartVolume :
    (after (exec (.slideStartVolume 2 4 0xFFFFFFE7) (withTrackAt 2 fun tr => { tr with volume := ⟨100, 0, 0⟩ }))).tracks[2].volume =
      ⟨100, 0xFFFFFFE7, 4⟩ := by decide

theorem test_slideStartPan : (after (exec (.slideStartPan 2 1000 0) State.reset)).tracks[2].pan = ⟨0, 0, 1000⟩ := by decide

theorem test_slideStartPitchBend :
    (after (exec (.slideStartPitchBend 1 2 3) State.reset)).tracks[1].pitchBend = ⟨0, 3, 2⟩ := by decide

theorem test_slideStartVibratoDepth :
    (after (exec (.slideStartVibratoDepth 1 2 3) State.reset)).tracks[1].vibratoDepth = ⟨0, 3, 2⟩ := by decide

theorem test_slideStartTremoloDepth :
    (after (exec (.slideStartTremoloDepth 1 2 3) State.reset)).tracks[1].tremoloDepth = ⟨0, 3, 2⟩ := by decide

theorem test_slideStartPanLfoDepth :
    (after (exec (.slideStartPanLfoDepth 1 2 3) State.reset)).tracks[1].panLfoDepth = ⟨0, 3, 2⟩ := by decide

theorem test_slideStartOverlayBalance :
    (after (exec (.slideStartOverlayBalance 1 2 3) State.reset)).tracks[1].overlayBalance = ⟨0, 3, 2⟩ := by decide

/-- Vectors S4, S5, S6: the step clamps at the kind's bounds. -/
theorem test_slideStep_clamps :
    slideStep Config.defaultParams .volume ⟨0x7FFFFFF0, 0x20, 2⟩ = ⟨0x7FFFFFFF, 0x20, 1⟩ ∧
    slideStep Config.defaultParams .pan ⟨0x80000010, 0xFFFFFFE0, 3⟩ = ⟨0x80000000, 0xFFFFFFE0, 2⟩ ∧
    slideStep Config.defaultParams .tempo ⟨0x4000, 0xFFFF8000, 1⟩ = ⟨0, 0xFFFF8000, 0⟩ := by decide

/-- The example of R191. -/
theorem test_keyOn :
    let s := after (exec (.keyOn 5) State.reset)
    s.activeVoices = 0x20 ∧ s.keyOnVoices = 0x20 ∧ s.out = [] := by decide

/-- Vector X4: the note does not suppress the effect. -/
theorem test_keyOn_keyed :
    let s := after (exec (.keyOn 4) { State.reset with activeVoices := 0x10, keyedVoices := 0x10 })
    s.keyOnVoices = 0x10 ∧ s.out = [.diag .keyonKeyed 0x30] ∧ s.error = 0x100 := by decide

/-- The example of R192. -/
theorem test_keyOff_keyed :
    let s := after (exec (.keyOff 5) { State.reset with activeVoices := 0x20, keyedVoices := 0x20, keyOnVoices := 0x20 })
    s.keyOffVoices = 0x20 ∧ s.keyOnVoices = 0 ∧ s.activeVoices = 0x20 ∧ s.out = [] := by decide

/-- Program P3, line 2. -/
theorem test_keyOff_idle :
    let s := after (exec (.keyOff 7) State.reset)
    s.error = 0x80 ∧ s.out = [.diag .keyoffNotKeyed 0x31] ∧ s.activeVoices = 0 := by decide

/-- The example of R193, with the key-offs first. -/
theorem test_resolve_keys :
    let s := after (exec .resolve { State.reset with
      activeVoices := 0x86, keyOnVoices := 0x84, keyedVoices := 0x02, keyOffVoices := 0x02, featureDirty := 0 })
    s.out = [.keyOff 1, .keyOn 2, .keyOn 7] ∧ s.keyedVoices = 0x84 ∧ s.activeVoices = 0x84 ∧ s.keyOnVoices = 0 := by decide

/-- The groups of R194 in order for the primary voice (program P2, line 18), then the feature words. -/
theorem test_resolve_groups :
    let s := after (exec .resolve (withTrackAt 3 fun tr => { tr with
      primary := some 5, update := 0b11111, addr := 0x1000, loopAddr := 0x1800, pitch := 0x1000, volumeLr := 0x20003FFF
      adsr := ⟨1, 3, 3, 0x7F, 0xA, 0x40, 0x1F, 0xF⟩ }))
    s.out = [.setAddr 5 0x1000, .setLoopAddr 5 0x1800, .setAdsr 5 ⟨1, 3, 3, 0x7F, 0xA, 0x40, 0x1F, 0xF⟩,
      .setPitch 5 0x1000, .setVolume 5 0x3FFF 0x2000, .noiseWord 0, .reverbWord 0, .pitchLfoWord 0] ∧
    s.tracks[3].update = 0 := by decide

/-- The example of R195. -/
theorem test_saveActive :
    (after (exec .saveActive { State.reset with activeVoices := 0x30 })).savedActiveVoices = 0x30 := by decide

theorem test_noiseOn :
    let s := after (exec (.noiseOn 3) { State.reset with featureDirty := 0 })
    s.noiseVoices = 0x8 ∧ s.featureDirty = 0b001 := by decide

theorem test_noiseOff :
    let s := after (exec (.noiseOff 3) { State.reset with noiseVoices := 0xF, featureDirty := 0 })
    s.noiseVoices = 0x7 ∧ s.featureDirty = 0b001 := by decide

theorem test_reverbOn :
    let s := after (exec (.reverbOn 31) { State.reset with featureDirty := 0 })
    s.reverbVoices = 0x80000000 ∧ s.featureDirty = 0b010 := by decide

theorem test_reverbOff :
    let s := after (exec (.reverbOff 0) { State.reset with reverbVoices := 0x11, featureDirty := 0 })
    s.reverbVoices = 0x10 ∧ s.featureDirty = 0b010 := by decide

theorem test_plfoOn :
    let s := after (exec (.plfoOn 1) { State.reset with featureDirty := 0 })
    s.pitchLfoVoices = 0x2 ∧ s.featureDirty = 0b100 := by decide

theorem test_plfoOff :
    let s := after (exec (.plfoOff 1) { State.reset with pitchLfoVoices := 0x2, featureDirty := 0 })
    s.pitchLfoVoices = 0 ∧ s.featureDirty = 0b100 := by decide

/-- The example of R202. -/
theorem test_voicesQuery :
    (after (exec (.voicesQuery 2 0x0F) { State.reset with keyedVoices := 0x84 })).result = 0x04 := by decide

/-- R202, a selector out of range. -/
theorem test_voicesQuery_out_of_range :
    let s := after (exec (.voicesQuery 8 0xFFFFFFFF) { State.reset with result := 9 })
    s.result = 0 ∧ s.out = [.diag .indexRange 0x3A] := by decide

/-- The example of R203: `BIND` is 0x0085. -/
theorem test_voiceBind :
    let s := after (exec (.voiceBind 3 5) State.reset)
    bindWord s.tracks[3] = 0x0085 ∧ s.tracks[3].update = 0x1F := by decide

/-- Program P4, line 4. -/
theorem test_voiceBind_conflict :
    let s := after (exec (.voiceBind 1 2) (withTrackAt 0 fun tr => { tr with primary := some 2 }))
    s.out = [.diag .bindConflict 0x3B] ∧ s.error = 0x08 ∧ s.tracks[1].primary = none := by decide

/-- The example of R204. -/
theorem test_voiceUnbind :
    let s := after (exec (.voiceUnbind 3) (withTrackAt 3 fun tr => { tr with primary := some 5, update := 1 }))
    bindWord s.tracks[3] = 0 ∧ s.tracks[3].update = 1 := by decide

/-- The example of R205: `BIND[15:8]` is 0x86. -/
theorem test_overlayOn : bindWord (after (exec (.overlayOn 3 6) State.reset)).tracks[3] = 0x8600 := by decide

/-- R206: kind 1 in `BIND[14]`. -/
theorem test_alternateOn : bindWord (after (exec (.alternateOn 3 6) State.reset)).tracks[3] = 0xC600 := by decide

theorem test_secondaryOff :
    bindWord (after (exec (.secondaryOff 0) (withTrackAt 0 fun tr => { tr with
      primary := some 2, secondary := some ⟨3, .overlay⟩ }))).tracks[0] = 0x0082 := by decide

/-- Program P2, line 7: bits above the field's width are dropped. -/
theorem test_instrWrite : (after (exec (.instrWrite 1 6 0xFF) State.reset)).instrTable = [(22, 0x7F)] := by decide

/-- R230: a field number above 11. -/
theorem test_instrWrite_bad_field :
    let s := after (exec (.instrWrite 1 12 1) State.reset)
    s.out = [.diag .badReg 0x40] ∧ s.instrTable = [] := by decide

/-- The example of R231. -/
theorem test_loadInstr :
    let s := after (exec (.loadInstr 3 17) { State.reset with instrTable := [(272, 0x1000), (283, 1)] })
    s.tracks[3].addr = 0x1000 ∧ s.tracks[3].instrId = 17 ∧ s.tracks[3].update = 0b01111 := by decide

/-- Program P3, line 4: an entry that is not valid. -/
theorem test_loadInstr_not_valid :
    let s := after (exec (.loadInstr 0 5) State.reset)
    s.out = [.diag .instrInvalid 0x41] ∧ s.tracks[0].instrId = 0 := by decide

/-- The examples and corner cases of R232 to R235: the operand is masked to the field. -/
theorem test_setAttackRate : (after (exec (.setAttackRate 0 0x80) State.reset)).tracks[0].adsr.attackRate = 0 := by decide

theorem test_setDecayRate :
    adsrRatesWord (after (exec (.setDecayRate 0 0x1A) State.reset)).tracks[0].adsr = 0xA00 := by decide

theorem test_setSustainRate :
    adsrRatesWord (after (exec (.setSustainRate 0 0xFFFF) State.reset)).tracks[0].adsr = 0x7F0000 := by decide

theorem test_setReleaseRate :
    adsrRatesWord (after (exec (.setReleaseRate 0 0x3F) State.reset)).tracks[0].adsr = 0x1F000000 := by decide

/-- R236: with `SL_SHIFT` = 4, 0xF0 stores 0xF. -/
theorem test_setSustainLevel :
    (after (exec (.setSustainLevel 0 0xF0) { State.reset with
      params := { Config.defaultParams with slShift := 4 } })).tracks[0].adsr.sustainLevel = 0xF := by decide

/-- R237: an operand of 5 stores 1; the ADSR group is dirty. -/
theorem test_setAttackMode :
    let s := after (exec (.setAttackMode 0 5) State.reset)
    adsrModesWord s.tracks[0].adsr = 0x01 ∧ s.tracks[0].update = 0b00100 := by decide

theorem test_setDecayMode :
    adsrModesWord (after (exec (.setDecayMode 0 3) State.reset)).tracks[0].adsr = 0x0C := by decide

theorem test_setReleaseMode :
    adsrModesWord (after (exec (.setReleaseMode 0 2) State.reset)).tracks[0].adsr = 0x20 := by decide

theorem test_setPitch :
    let s := after (exec (.setPitch 3 0x1200) State.reset)
    s.tracks[3].pitch = 0x1200 ∧ s.tracks[3].update = 0b01000 := by decide

/-- The example of R241. -/
theorem test_setVolume :
    let s := after (exec (.setVolume 3 0x20003FFF) State.reset)
    volL s.tracks[3].volumeLr = 0x3FFF ∧ volR s.tracks[3].volumeLr = 0x2000 ∧ s.tracks[3].update = 0b10000 := by decide

theorem test_setAddr :
    let s := after (exec (.setAddr 3 0x2000) State.reset)
    s.tracks[3].addr = 0x2000 ∧ s.tracks[3].update = 0b00001 := by decide

theorem test_setLoopAddr :
    let s := after (exec (.setLoopAddr 3 0x2400) State.reset)
    s.tracks[3].loopAddr = 0x2400 ∧ s.tracks[3].update = 0b00010 := by decide

/-- The example of R36 (vector Y11): track 55 is bit 23 of the HI words. -/
theorem test_trackViews :
    let s := withTrackAt 55 fun tr => { tr with active := true, wake := true }
    readReg .trackActiveLo 0 0 s = 0 ∧ readReg .trackActiveHi 0 0 s = 0x00800000 ∧ readReg .wakeHi 0 0 s = 0x00800000 := by
  decide

/-! The parameters (00_scope.md R7), on a block with other values of them: each result worked out from the rule. -/

/-- R25: `ID` = {0x01, `FRAC_BITS`, `NUM_TRACKS`, `NUM_VOICES`}. -/
theorem test_params_id : (after (exec (.regRead 0 0x000) small)).result = 0x01080218 := by decide

/-- R98: the operand ranges. -/
theorem test_params_ranges :
    (after (exec (.setDelta 2 1) small)).out = [.diag .indexRange 0x03] ∧
    (after (exec (.keyOn 24) small)).out = [.diag .indexRange 0x30] ∧
    (after (exec (.instrWrite 8 0 1) small)).out = [.diag .indexRange 0x40] ∧
    (after (exec (.loadInstr 0 8) small)).out = [.diag .instrInvalid 0x41] := by decide

/-- R121: 0xFFF00 + 0x200 is 0x100 modulo 2^20 and passes two multiples of 2^8; 14 ticks and 2 exceed 2^4-1. -/
theorem test_params_block :
    let s := after (exec .block { small with timeCounter := 0xFFF00, tempo := ⟨0x200, 0, 0⟩, ticksPending := 14 })
    s.timeCounter = 0x100 ∧ s.ticksPending = 15 ∧ s.out = [.diag .ticksSat 0x01] := by decide

/-- R71, R123, R155, R232, R236, R237, R240 to R242: a register keeps its own width of the operand. -/
theorem test_params_widths :
    (after (exec (.setDelta 1 0x1FF) small)).tracks[1].delta = 0xFF ∧
    (after (exec (.slideStartTempo 0x12 0x54321) small)).tempo = ⟨0, 0x4321, 2⟩ ∧
    (after (exec (.setAttackRate 0 0x7F) small)).tracks[0].adsr.attackRate = 0x1F ∧
    (after (exec (.setSustainLevel 0 0xFF) small)).tracks[0].adsr.sustainLevel = 0x3F ∧
    (after (exec (.setAttackMode 0 3) small)).tracks[0].adsr.attackMode = 1 ∧
    (after (exec (.setPitch 0 0xFFFF) small)).tracks[0].pitch = 0xFFF ∧
    (after (exec (.setVolume 0 0x12345678) small)).tracks[0].volumeLr = 0x00340078 ∧
    (after (exec (.setAddr 0 0x12345678) small)).tracks[0].addr = 0x345678 ∧
    (after (exec (.instrWrite 7 2 0xFFFF) small)).instrTable = [(16 * 7 + 2, 0xFFF)] := by decide

/-- R150: a 16-bit value and slope: -2 + 3 = 1. -/
theorem test_params_slide : slideStep small.params .pan ⟨0xFFFE, 3, 1⟩ = ⟨1, 3, 0⟩ := by decide

/-- Vector X1: a reserved op byte is refused by the block and the next input is taken. -/
theorem test_step_reserved :
    let s := after (step { State.reset with result := 7, input := [.command 0x4E00000000000000, .reset] })
    s.out = [.diag .illegalOp 0x4E] ∧ s.error = 0x01 ∧ s.result = 7 ∧ s.input = [.reset] := by decide

/-- R300: reset emits nothing, not even a KeyOff. -/
theorem test_step_reset :
    let s := after (step { State.reset with keyedVoices := 1, activeVoices := 1, error := 3, input := [.reset] })
    s.keyedVoices = 0 ∧ s.error = 0 ∧ s.out = [] ∧ s.featureDirty = 0b111 := by decide

/-- R75, R76: the eighth byte of `SET_DELTA t3, 48` completes the word and the command runs. -/
theorem test_step_byte :
    let s := after (step { State.reset with link := [0, 0, 0, 0, 0x30, 0, 0x03], input := [.byte 0x03] })
    s.tracks[3].delta = 48 ∧ s.link = [] := by decide

/-- The word that `withFetchWord` places runs next. -/
theorem test_withFetchWord :
    (after (step (State.reset.withFetchWord 64 0x0303003000000000))).tracks[3].delta = 48 := by decide

/-! The assembler (30_encoding.md R100 to R102). -/

theorem test_assemble_line :
    assembleLine Config.defaultParams "SLIDE_START.VOLUME t2, 4, -25 ; W4".toList =
      .ok [.slideStartVolume 2 4 0xFFFFFFE7] ∧
    assembleLine Config.defaultParams "VOICES_QUERY KEYED, 0x0F".toList = .ok [.voicesQuery 2 0x0F] ∧
    assembleLine Config.defaultParams "REG_READ t55, 0x200".toList = .ok [.regRead 55 0x200] ∧
    assembleLine Config.defaultParams "INSTR_WRITE e9, 6, 0x7F".toList = .ok [.instrWrite 9 6 0x7F] := by decide

theorem test_assemble_pseudo :
    assembleLine Config.defaultParams "NOTE_ON t3, v5".toList = .ok [.voiceBind 3 5, .keyOn 5] ∧
    assembleLine Config.defaultParams "CLEAR_ERRORS".toList = .ok [.statusClear 0xFFFFFFFF] := by decide

theorem test_assemble_refusals :
    assembleLine Config.defaultParams "KEY_ON v32".toList = .error .indexRange ∧
    assembleLine Config.defaultParams "SET_PITCH t0, 65536".toList = .error .immRange ∧
    assembleLine Config.defaultParams "TIME_SET 4294967296".toList = .error .dataRange ∧
    assembleLine Config.defaultParams "LOOP 3".toList = .error .unknownMnemonic ∧
    assembleLine Config.defaultParams "TICK 1".toList = .error .operands := by decide

/-! Witnesses: for every statement of Certificates/Slice0/Obligations.lean that has hypotheses, states and operands that
meet them, at the ends of the ranges of its clauses. -/

/-- A state with a command and a reset waiting, in which a voice is keyed and one is key-on-pending. -/
def busy (w : CmdWord) : State :=
  { State.reset with activeVoices := 0x30, keyedVoices := 0x10, keyOnVoices := 0x20, input := [.command w, .reset] }

/-- A state with a primary binding of track 0. -/
def bound : State := withTrackAt 0 fun tr => { tr with primary := some 31 }

/-- A state with one valid instrument, the last, and one entry whose field 0 is set without being valid. -/
def loaded : State := { State.reset with instrTable := [(0, 5), (16 * 255, 0x1000), (16 * 255 + 11, 1)] }

theorem test_witness_EncodeKeepsUsedBits : decode 0x0403BEEF12345678 = .command (.trackStart 3) := by decide

theorem test_witness_ReservedOpcodesRaiseIllegalOp :
    (busy 0x4E00000000000000).input = .command 0x4E00000000000000 :: [.reset] ∧
    (∀ op ∈ [0x09, 0x0B, 0x0F, 0x19, 0x1F, 0x29, 0x2F, 0x4E, 0xFF], reservedOp op = true) ∧
    (∀ op ∈ [0x00, 0x08, 0x0C, 0x0E, 0x10, 0x18, 0x20, 0x28, 0x30, 0x4D], reservedOp op = false) := by decide

theorem test_witness_StepRunsDecodedCommand :
    (busy 0x3005000000000000).input = .command 0x3005000000000000 :: [.reset] ∧
    decode 0x3005000000000000 = .command (.keyOn 5) ∧ State.reset.input = [] := by decide

theorem test_witness_SerialLinkRunsSameCommands : loaded.link = [] ∧ loaded.input = [] := by decide

theorem test_witness_PartWordIsNoCommand :
    let bs : List Byte := [1, 2, 3, 4, 5, 6, 7]
    let s : State := { loaded with input := bs.map PortInput.byte }
    bs.length < 8 ∧ s.link = [] ∧ s.input = bs.map PortInput.byte := by decide

theorem test_witness_ResetInputClearsState :
    ({ busy 0 with input := [.reset, .byte 1] } : State).input = .reset :: [.byte 1] := by decide

/-- A primary binding of one track is distinct. -/
theorem bound_primariesDistinct : PrimariesDistinct bound := by
  have h : ∀ t : TrackIx, bound.tracks[t].primary ≠ none → t = 0 := by
    intro t ht
    by_contra hn
    exact ht (by rw [bound, withTrackAt, modifyTrack_getElem_ne _ _ hn]; simp [State.reset, Track.reset])
  intro t u v _ _ ht hu
  rw [h t (by rw [ht]; exact Option.some_ne_none v), h u (by rw [hu]; exact Option.some_ne_none v)]

theorem test_witness_StepKeepsVoiceInvariants :
    let s : State := { bound with activeVoices := 0x30, keyedVoices := 0x10, keyOnVoices := 0x20,
                                  input := [.command 0x3105000000000000] }
    VoiceInv s ∧ PrimariesDistinct s ∧ (∃ t, exec (.keyOff 5) s = .next t) ∧ ∃ t, step s = .next t :=
  ⟨by decide, bound_primariesDistinct, ⟨_, rfl⟩, ⟨_, rfl⟩⟩

/-- Every register of `loaded` is within its width. -/
theorem loaded_registersFit : RegistersFit loaded := by
  simp [RegistersFit, TrackFits, SlideFits, AdsrFits, Fits, loaded, State.reset, Track.reset, Slide.reset, Adsr.reset,
    volL, volR]

theorem test_witness_StepKeepsTableAndWidths :
    let s : State := { loaded with input := [.command 0x40FF000B00000001] }
    TableCanonical s ∧ RegistersFit s ∧ ∃ t, step s = .next t :=
  ⟨by unfold TableCanonical; decide, loaded_registersFit, ⟨_, rfl⟩⟩

/-- A bit of each rate's place above the rate, for R7's widths 7, 4, 7 and 5. -/
theorem test_witness_PackedRegisterLayouts :
    AdsrFits Config.defaultParams ⟨3, 3, 3, 0x7F, 0xF, 0x7F, 0x1F, 0xF⟩ ∧
    (Config.defaultParams.arW.val ≤ 7 ∧ 7 < 8) ∧ (8 + Config.defaultParams.drW.val ≤ 12 ∧ 12 < 16) ∧
    (16 + Config.defaultParams.srW.val ≤ 23 ∧ 23 < 24) ∧ 24 + Config.defaultParams.rrW.val ≤ 29 := by
  unfold AdsrFits Fits
  decide

theorem test_witness_TrackSummariesViewTracks : (31 : Nat) < 32 ∧ 32 + 23 < 56 ∧ ¬ 32 + 24 < 56 := by decide

theorem test_witness_UnmappedNumbersRaiseBadReg :
    ∀ n ∈ [0x006, 0x00F, 0x019, 0x01F, 0x024, 0x0FF, 0x103, 0x10F, 0x18F, 0x190, 0x1FF, 0x20C, 0x2FF, 0x30C, 0xFFFF],
      unmappedNumber n = true := by decide

theorem test_witness_RegReadLatchesPlayerRegisters :
    (0x005, loaded.reverbType) ∈ playerRegisters loaded ∧ loaded.params = Config.defaultParams :=
  ⟨by simp [playerRegisters], rfl⟩

theorem test_witness_RegReadLatchesIndexedRegisters :
    NamesTrack State.reset.params 55 55 ∧ State.reset.params.numTracks.val ≤ (56#8).toNat ∧ 11 ≤ 11 ∧
    (255#8).toNat < State.reset.params.numInstr.val ∧ small.params.numInstr.val ≤ (8#8).toNat ∧
    (0x205, Track.reset.addr) ∈ trackRegisters Track.reset := by
  refine ⟨by unfold NamesTrack IsTrack; decide, by decide, by decide, by decide, by decide, by simp [trackRegisters]⟩

theorem test_witness_ReadsAreIdempotent :
    (∃ idx n, Instr.regRead 0x38 0x200 = .regRead idx n) ∧ ∃ sel m, Instr.voicesQuery 8 1 = .voicesQuery sel m :=
  ⟨⟨_, _, rfl⟩, ⟨_, _, rfl⟩⟩

theorem test_witness_VoicesQueryMasksBitset : (7#8).toNat < 8 ∧ 8 ≤ (8#8).toNat := by decide

theorem test_witness_StatusClearClearsMaskedBits : (9 : Nat) < 10 := by decide

theorem test_witness_BlockIntegratesTempo :
    let f (p : Word) : State := { State.reset with tempo := ⟨0x18000, 0, 0⟩, timeCounter := 0x8000, ticksPending := p }
    let n (s : State) := (s.timeCounter.toNat % 2 ^ s.params.fracBits.val + s.tempo.value.toNat) / 2 ^ s.params.fracBits.val
    (f 0xFFFFFFFD).ticksPending.toNat + n (f 0xFFFFFFFD) ≤ 2 ^ (f 0).params.tpWidth.val - 1 ∧
    2 ^ (f 0).params.tpWidth.val - 1 < (f 0xFFFFFFFE).ticksPending.toNat + n (f 0xFFFFFFFE) := by decide

theorem test_witness_BlocksLoseNoFraction :
    let s : State := { State.reset with tempo := ⟨0x8000, 0x8000, 2⟩, timeCounter := 0xFFFF8000 }
    blockTempos 3 s = [0x8000, 0x10000, 0x18000] ∧
    s.params.fracBits.val ≤ s.params.tcWidth.val ∧
    s.ticksPending.toNat + (s.timeCounter.toNat % 2 ^ s.params.fracBits.val + (blockTempos 3 s).sum) /
      2 ^ s.params.fracBits.val ≤ 2 ^ s.params.tpWidth.val - 1 := by decide

theorem test_witness_TimeSetWritesCounter :
    (0xFFFF#32).toNat % 2 ^ State.reset.params.fracBits.val =
      (0xABCDFFFF#32).toNat % 2 ^ State.reset.params.fracBits.val ∧
    (∀ idx : BitVec 8, Instr.regRead idx 0x003 ∉ [Instr.block, .regRead 0 0x004]) := by
  refine ⟨by decide, fun idx h => ?_⟩
  simp at h

theorem test_witness_TickAdvancesActiveTracks :
    let s : State := { withTrackAt 3 (fun tr => { tr with active := true, delta := 1 }) with ticksPending := 1 }
    State.reset.ticksPending = 0 ∧ s.ticksPending ≠ 0 ∧ IsTrack s.params 3 ∧ s.tracks[(3 : TrackIx)].active = true ∧
    s.tracks[(4 : TrackIx)].active = false ∧ ¬ IsTrack s.params 56 := by
  unfold IsTrack
  decide

theorem test_witness_TrackWakesOnItsDeltaTick :
    let s : State := { withTrackAt 3 (fun tr => { tr with active := true }) with ticksPending := 2 }
    IsTrack s.params 3 ∧ s.tracks[(3 : TrackIx)].active = true ∧ (2#16) ≠ 0 ∧
    (2#16).toNat < 2 ^ s.params.deltaWidth.val ∧
    (∀ i ∈ [Instr.tick, .setDelta 4 7, .tick, .tick], writesWait 3 i = false) ∧
    executedTicks [.tick, .setDelta 4 7, .tick, .tick] (after (exec (.setDelta 3 2) s)) = 2 := by
  unfold IsTrack
  decide

/-- The last track and the first number beyond it, for the statements about SET_DELTA, TRACK_START, TRACK_FINISH,
DEVICE_FAULT, VOICE_UNBIND and SECONDARY_OFF, the ADSR commands and the shadow writes. -/
theorem test_witness_track_operands :
    NamesTrack State.reset.params 55 55 ∧ State.reset.params.numTracks.val ≤ (56#8).toNat ∧
    NamesTrack small.params 1 1 ∧ small.params.numTracks.val ≤ (2#8).toNat ∧
    (State.reset.params.pitchW = 16 ∧ State.reset.params.volW = 16 ∧ State.reset.params.addrW = 32) := by
  unfold NamesTrack IsTrack
  decide

/-- The last voice and the first number beyond it, for the statements about KEY_ON, KEY_OFF and the feature commands. -/
theorem test_witness_voice_operands :
    (31#8).toNat < State.reset.params.numVoices.val ∧ State.reset.params.numVoices.val ≤ (32#8).toNat ∧
    (23#8).toNat < small.params.numVoices.val ∧ small.params.numVoices.val ≤ (24#8).toNat := by decide

theorem test_witness_SlideStepAddsAndClamps :
    (⟨1, 2, 0⟩ : Slide).remaining = 0 ∧ (⟨1, 2, 1⟩ : Slide).remaining ≠ 0 := by decide

theorem test_witness_SlideReachesTargetExactly :
    let p := Config.defaultParams
    let S := ((0xFFFFFFE7#32).setWidth p.slideSlopeWidth.val).toInt
    let N := (4#16).toNat % 2 ^ p.slideLenWidth.val
    (∀ k ∈ [SlideKind.tempo, .volume], (valueRange p k).lo ≤ (slideRange p k).lo ∧
      (slideRange p k).hi ≤ (valueRange p k).hi) ∧
    N = 4 ∧ ∀ i ∈ [0, 1, 2, 3, 4], (slideRange p .volume).lo ≤ slideData .volume 100 + (i : Nat) * S ∧
      slideData .volume 100 + (i : Nat) * S ≤ (slideRange p .volume).hi := by decide

theorem test_witness_RestingSlideKeepsValue :
    (⟨7, 5, 0⟩ : Slide).remaining = 0 ∧ (⟨7, 0, 9⟩ : Slide).slope = 0 ∧
    (7#32).toNat < 2 ^ Config.defaultParams.slideValueWidth.val ∧
    (slideRange Config.defaultParams .pan).lo ≤ slideNum Config.defaultParams .pan 7 ∧
    slideNum Config.defaultParams .pan 7 ≤ (slideRange Config.defaultParams .pan).hi := by decide

/-- For the statements about SLIDE_VALUE and SLIDE_START: a track operand names its track, a player's kind takes any. -/
theorem test_witness_slide_operands :
    (slideIsPerTrack .volume = true → NamesTrack State.reset.params 55 55) ∧
    (slideIsPerTrack .tempo = true → NamesTrack State.reset.params 200 0) ∧
    (slideIsPerTrack .overlayBalance = true ∧ State.reset.params.numTracks.val ≤ (56#8).toNat) ∧
    (SlideKind.pan ≠ .volume ∨ (slideIsPerTrack .volume = true ∧ (3 : TrackIx) ≠ 55)) := by
  unfold NamesTrack IsTrack
  decide

/-- The five voice states of R32, each in a state that has it. -/
theorem test_witness_VoiceTransitionTable :
    let f (a on k off : Word) : State :=
      { State.reset with activeVoices := a, keyOnVoices := on, keyedVoices := k, keyOffVoices := off }
    (31#5).toNat < State.reset.params.numVoices.val ∧ (31#5).toNat < State.reset.params.bitsetWidth.val ∧
    voiceState (f 0 0 0 0) 31 = some .idle ∧
    voiceState (f 0x80000000 0x80000000 0 0) 31 = some .keyOnPending ∧
    voiceState (f 0x80000000 0 0x80000000 0) 31 = some .keyed ∧
    voiceState (f 0x80000000 0x80000000 0x80000000 0) 31 = some .rekeyPending ∧
    voiceState (f 0x80000000 0 0x80000000 0x80000000) 31 = some .keyOffPending := by decide

theorem test_witness_VoiceBindBindsPrimary :
    NamesTrack State.reset.params 55 55 ∧ (31#16).toNat < State.reset.params.numVoices.val ∧
    State.reset.params.numTracks.val ≤ (56#8).toNat ∧ State.reset.params.numVoices.val ≤ (32#16).toNat ∧
    (∀ u : TrackIx, IsTrack State.reset.params u → u ≠ 55 →
      State.reset.tracks[u].primary ≠ some (BitVec.ofNat 5 (31#16).toNat)) ∧
    ∃ u : TrackIx, IsTrack bound.params u ∧ u ≠ 55 ∧ bound.tracks[u].primary = some (BitVec.ofNat 5 (31#16).toNat) :=
  ⟨⟨rfl, by unfold IsTrack; decide⟩, by decide, by decide, by decide,
    fun u _ _ => by simp [State.reset, Track.reset], ⟨0, by unfold IsTrack; decide, by decide, by decide⟩⟩

theorem test_witness_SecondaryCommandsBindSecondary :
    NamesTrack State.reset.params 55 55 ∧ (31#16).toNat < State.reset.params.numVoices.val ∧
    State.reset.params.numTracks.val ≤ (56#8).toNat ∧ State.reset.params.numVoices.val ≤ (32#16).toNat :=
  ⟨⟨rfl, by unfold IsTrack; decide⟩, by decide, by decide, by decide⟩

theorem test_witness_InstrWriteStoresField :
    (11#16).toNat ≤ 11 ∧ (255#8).toNat < loaded.params.numInstr.val ∧ small.params.numInstr.val ≤ (8#8).toNat ∧
    11 < (12#16).toNat ∧ Memory.wf loaded.params loaded.instrTable = true ∧ (0, 0) ≠ (255, 11) := by decide

theorem test_witness_LoadInstrCopiesEntry :
    Memory.wf loaded.params loaded.instrTable = true ∧ NamesTrack loaded.params 55 55 ∧
    loaded.params.numTracks.val ≤ (56#8).toNat ∧
    ((255#16).toNat < loaded.params.numInstr.val ∧ memRead loaded.instrTable (255#16).toNat 11 ≠ 0) ∧
    loaded.params.numInstr.val ≤ (256#16).toNat ∧ memRead loaded.instrTable (0#16).toNat 11 = 0 :=
  ⟨by decide, ⟨rfl, by unfold IsTrack; decide⟩, by decide, by decide, by decide, by decide⟩

theorem test_witness_ShadowCommandsArePure :
    let s2 : State := { loaded with result := 1, activeVoices := 2, instrTable := loaded.instrTable.drop 1 }
    shadowTrack (.loadInstr 55 255) = some 55 ∧ NamesTrack loaded.params 55 55 ∧ loaded.params = s2.params ∧
    (∀ f ∈ List.range 12, memRead loaded.instrTable 255 f = memRead s2.instrTable 255 f) ∧
    (∀ id : BitVec 16, Instr.loadInstr 55 255 = .loadInstr 55 id → id.toNat = 255) ∧
    shadowOf loaded.tracks[(55 : TrackIx)] = shadowOf s2.tracks[(55 : TrackIx)] ∧
    (∃ t1, exec (.loadInstr 55 255) loaded = .next t1) ∧ (∃ t2, exec (.loadInstr 55 255) s2 = .next t2) ∧
    loaded.params.numTracks.val ≤ (56#8).toNat :=
  ⟨by decide, ⟨rfl, by unfold IsTrack; decide⟩, rfl, by decide, fun _ h => by cases h; rfl, rfl, ⟨_, rfl⟩, ⟨_, rfl⟩,
    by decide⟩

/-- For the statements over every command that answers a next state: one that raises, one that notes, one that emits. -/
theorem test_witness_command_answers_next :
    (∃ t, exec (.keyOn 32) State.reset = .next t) ∧ (∃ t, exec (.keyOff 31) State.reset = .next t) ∧
    (∃ t, exec .songInit { State.reset with keyedVoices := 3, activeVoices := 3 } = .next t) ∧
    (∀ m : Word, Instr.keyOn 32 ≠ .statusClear m) :=
  ⟨⟨_, rfl⟩, ⟨_, rfl⟩, ⟨_, rfl⟩, fun _ => Instr.noConfusion⟩

theorem test_witness_OutIsAppendOnly :
    (∃ t, step (busy 0x3200000000000000) = .next t) ∧ (busy 0x3200000000000000).input.head? ≠ some .reset :=
  ⟨⟨_, rfl⟩, by decide⟩

/-- A command that is none of those each clause of `OnlyNamedCommandsWriteRegisters` names. -/
theorem test_witness_OnlyNamedCommandsWriteRegisters :
    (∃ t, exec (.setPitch 3 9) loaded = .next t) ∧ Instr.setPitch 3 9 ≠ .block ∧ Instr.setPitch 3 9 ≠ .tick ∧
    Instr.setPitch 3 9 ≠ .songInit ∧ Instr.setPitch 3 9 ≠ .resolve ∧ Instr.setPitch 3 9 ≠ .saveActive ∧
    (∀ v, Instr.setPitch 3 9 ≠ .noiseOn v) ∧ (∀ k n, Instr.setPitch 3 9 ≠ .regRead k n) :=
  ⟨⟨_, rfl⟩, by decide, by decide, by decide, by decide, by decide, fun _ => Instr.noConfusion,
    fun _ _ => Instr.noConfusion⟩

theorem test_witness_PlayersShareNothing :
    (1 : Fin Config.numPlayers) ≠ 0 ∧ (referenceReset.blocks[0]).out = [] := by decide

theorem test_witness_AssembledCommandsAreWellFormed :
    assembleLine Config.defaultParams "VOICE_BIND t55, v31".toList = .ok [.voiceBind 55 31] ∧
    Instr.voiceBind 55 31 ∈ [Instr.voiceBind 55 31] := by decide

end Sys2Proof.Tests
end

