-- ==== Sys2Proof/Proofs/StepInput.lean ====
section
/-! SUPPORT. What one step does with the inputs (00_scope.md R12, R15), an equation per case of what stands there. -/

namespace Sys2Proof.Machine

/-- An idle block holds its state (60_exceptions.md R293). -/
theorem step_of_input_nil {s : State} (h : s.input = []) : step s = .next s := by
  rw [step, stepInput, h]

theorem step_of_input_cons {s : State} {p : PortInput} {rest : List PortInput} (h : s.input = p :: rest) :
    step s = takeInput p { s with input := rest } := by
  rw [step, stepInput, h]

@[simp] theorem takeInput_command (w : CmdWord) (s : State) : takeInput (.command w) s = execWord w s := rfl

theorem execWord_of_decode_command {w : CmdWord} {i : Instr} (h : decode w = .command i) (s : State) :
    execWord w s = exec i s := by
  rw [execWord, h]

/-- Settles O5: the step hands the word to `execWord`, which runs what it decodes to. -/
theorem stepRunsDecodedCommand : Obligations.StepRunsDecodedCommand := by
  refine ⟨fun s w i rest hinput hdecode => ?command, fun s hinput => step_of_input_nil hinput⟩
  calc step s
      = takeInput (.command w) { s with input := rest } := step_of_input_cons hinput
    _ = execWord w { s with input := rest } := takeInput_command w _
    _ = exec i { s with input := rest } := execWord_of_decode_command hdecode _

end Sys2Proof.Machine
end

