-- ==== Sys2Proof/Proofs/RegisterWidths.lean ====
section
/-! SUPPORT. What keeps a track, and the registers of the block, within their widths (10_state.md R23): one rule for
each field a command writes and one for each shared operation. -/

namespace Sys2Proof.Machine

variable {p : Config.Params} {s : State} {tr : Track}

/-! Bits of parts and of voices. -/

/-- Dropping high bits keeps a value within its width. -/
theorem Fits.setWidth {n w : Nat} {x : BitVec n} (m : Nat) (h : Fits w x) : Fits w (x.setWidth m) := by
  rw [Fits, BitVec.toNat_setWidth]
  exact Nat.lt_of_le_of_lt (Nat.mod_le _ _) h

theorem setVoice_fits {w : Nat} {b : Word} (v : Voice) (h : Fits w b) : Fits w (setVoice w b v) :=
  h.or (voiceBit_fits w v)

theorem clearVoice_fits {w : Nat} {b : Word} (v : Voice) (h : Fits w b) : Fits w (clearVoice b v) :=
  h.and_left _

/-- A voice operand in `imm` below `NUM_VOICES` is the number of its voice. -/
theorem voice_toNat_of_lt {imm : BitVec 16} (h : imm.toNat < p.numVoices.val) :
    (imm.setWidth 5 : Voice).toNat = imm.toNat := by
  have hn : p.numVoices.val < 33 := p.numVoices.isLt
  rw [BitVec.toNat_setWidth, Nat.mod_eq_of_lt]
  omega

/-! Tracks. `active`, `wake` and `update` are as wide as their types, so a rule for another field is one for an update
that writes them too. -/

theorem slideFits_reset (p : Config.Params) : SlideFits p .reset :=
  ⟨fits_zero _ _, fits_zero _ _, fits_zero _ _⟩

theorem adsrFits_reset (p : Config.Params) : AdsrFits p .reset :=
  ⟨fits_zero _ _, fits_zero _ _, fits_zero _ _, fits_zero _ _, fits_zero _ _, fits_zero _ _, fits_zero _ _,
    fits_zero _ _⟩

theorem trackFits_reset (p : Config.Params) : TrackFits p .reset :=
  ⟨fits_zero _ _, fun _ h => (nomatch h), fun _ h => (nomatch h), fits_zero _ _, fits_zero _ _, fits_zero _ _,
    fits_zero _ _, fits_zero _ _, fits_zero _ _, adsrFits_reset p, slideFits_reset p, slideFits_reset p,
    slideFits_reset p, slideFits_reset p, slideFits_reset p, slideFits_reset p, slideFits_reset p⟩

theorem TrackFits.delta (h : TrackFits p tr) {d : BitVec 16} (hd : Fits p.deltaWidth.val d) :
    TrackFits p { tr with delta := d } :=
  ⟨hd, h.2⟩

theorem TrackFits.primary (h : TrackFits p tr) {v : Option Voice}
    (hv : ∀ w, v = some w → w.toNat < p.numVoices.val) : TrackFits p { tr with primary := v } := by
  simp_all [TrackFits]

theorem TrackFits.secondary (h : TrackFits p tr) {b : Option Secondary}
    (hb : ∀ c, b = some c → c.voice.toNat < p.numVoices.val) : TrackFits p { tr with secondary := b } := by
  simp_all [TrackFits]

theorem TrackFits.addr (h : TrackFits p tr) {a : Word} (ha : Fits p.addrW.val a) :
    TrackFits p { tr with addr := a } := by
  simp_all [TrackFits]

theorem TrackFits.loopAddr (h : TrackFits p tr) {a : Word} (ha : Fits p.addrW.val a) :
    TrackFits p { tr with loopAddr := a } := by
  simp_all [TrackFits]

theorem TrackFits.pitch (h : TrackFits p tr) {x : BitVec 16} (hx : Fits p.pitchW.val x) :
    TrackFits p { tr with pitch := x } := by
  simp_all [TrackFits]

theorem TrackFits.instrId (h : TrackFits p tr) {x : BitVec 16} (hx : Fits p.instrIdW.val x) :
    TrackFits p { tr with instrId := x } := by
  simp_all [TrackFits]

theorem TrackFits.volumeLr (h : TrackFits p tr) {x : Word} (hl : Fits p.volW.val (volL x))
    (hr : Fits p.volW.val (volR x)) : TrackFits p { tr with volumeLr := x } := by
  simp_all [TrackFits]

theorem TrackFits.adsr (h : TrackFits p tr) {a : Adsr} (ha : AdsrFits p tr.adsr → AdsrFits p a) :
    TrackFits p { tr with adsr := a } := by
  simp_all [TrackFits]

/-- One step, start or stop of each of a track's seven slides. -/
theorem TrackFits.slides (h : TrackFits p tr) {f : SlideKind → Slide → Slide}
    (hf : ∀ k u, SlideFits p u → SlideFits p (f k u)) :
    TrackFits p { tr with
      volume := f .volume tr.volume
      pan := f .pan tr.pan
      pitchBend := f .pitchBend tr.pitchBend
      vibratoDepth := f .vibratoDepth tr.vibratoDepth
      tremoloDepth := f .tremoloDepth tr.tremoloDepth
      panLfoDepth := f .panLfoDepth tr.panLfoDepth
      overlayBalance := f .overlayBalance tr.overlayBalance } := by
  simp_all [TrackFits]

/-- An entry of a canonical table holds ADSR fields of their widths (20_memory.md R71). -/
theorem entryAdsr_fits {m : Memory} (e : Nat) (hm : Memory.wf p m = true) : AdsrFits p (entryAdsr m e) := by
  have field (f : Nat) (hf : f < 16) : Fits (fieldWidth p f) (memRead m e f) := memRead_lt hm hf
  exact ⟨(field 3 (by decide)).setWidth 2, (field 4 (by decide)).setWidth 2, (field 5 (by decide)).setWidth 2,
    (field 6 (by decide)).setWidth 8, (field 7 (by decide)).setWidth 8, (field 8 (by decide)).setWidth 8,
    (field 9 (by decide)).setWidth 8, (field 10 (by decide)).setWidth 16⟩

/-- Loading an entry of a canonical table (44_adsr.md R231). -/
theorem TrackFits.loadEntry (h : TrackFits p tr) {m : Memory} (e : Nat) (id : BitVec 16) (hm : Memory.wf p m = true) :
    TrackFits p (loadEntry p m e id tr) := by
  have field (f : Nat) (hf : f < 16) : Fits (fieldWidth p f) (memRead m e f) := memRead_lt hm hf
  exact ((((h.addr (field 0 (by decide))).loopAddr (field 1 (by decide))).pitch
    ((field 2 (by decide)).setWidth 16)).adsr fun _ => entryAdsr_fits e hm).instrId (narrow_fits _ id)

/-- What `finish` leaves of a track (41_timing.md R125). -/
theorem TrackFits.finishedTrack (h : TrackFits p tr) : TrackFits p (finishedTrack tr) :=
  (((h.primary (v := none) fun _ h => (nomatch h)).secondary (b := none) fun _ h => (nomatch h)).delta
    (fits_zero 16 _)).slides (f := fun _ => slideStop) fun _ _ => slideStop_fits

/-- The counter of a track over one tick (R122). -/
theorem TrackFits.countDown (h : TrackFits p tr) : TrackFits p (countDown tr) := by
  unfold Machine.countDown
  split
  · exact h
  · rename_i hd
    exact h.delta (h.1.pred hd)

/-- A tick of a track (R122). -/
theorem TrackFits.tickTrack (h : TrackFits p tr) : TrackFits p (tickTrack p tr) := by
  cases hact : tr.active
  · rwa [tickTrack_of_inactive p hact]
  · rw [tickTrack_of_active p hact]
    exact h.countDown.slides fun k _ => slideStep_fits k

/-- Emission writes only `UPDATE` (43_voice.md R194). -/
theorem TrackFits.emittedTrack (h : TrackFits p tr) : TrackFits p (emittedTrack tr) := by
  unfold Machine.emittedTrack
  split <;> exact h

/-! The whole state. -/

/-- `RegistersFit` with the bitsets named one by one (10_state.md R31, R34). -/
theorem registersFit_iff (s : State) : RegistersFit s ↔
    Fits s.params.tcWidth.val s.timeCounter ∧ Fits s.params.tpWidth.val s.ticksPending ∧
    (Fits s.params.bitsetWidth.val s.activeVoices ∧ Fits s.params.bitsetWidth.val s.keyOnVoices ∧
      Fits s.params.bitsetWidth.val s.keyedVoices ∧ Fits s.params.bitsetWidth.val s.keyOffVoices ∧
      Fits s.params.bitsetWidth.val s.savedActiveVoices ∧ Fits s.params.bitsetWidth.val s.noiseVoices ∧
      Fits s.params.bitsetWidth.val s.reverbVoices ∧ Fits s.params.bitsetWidth.val s.pitchLfoVoices) ∧
    SlideFits s.params s.tempo ∧ SlideFits s.params s.reverbDepth ∧
    ∀ u : TrackIx, IsTrack s.params u → TrackFits s.params s.tracks[u] := by
  simp [RegistersFit]

@[simp] theorem resetInput_getElem (s : State) (u : TrackIx) : (resetInput s).tracks[u] = Track.reset := by
  simp [resetInput, State.reset]

/-- The reset input leaves every register 0, a value of every width (10_state.md R62). -/
theorem registersFit_resetInput (s : State) : RegistersFit (resetInput s) := by
  have h0 (w : Nat) : Fits w (0 : Word) := fits_zero _ w
  refine (registersFit_iff _).mpr ⟨h0 _, h0 _, ⟨h0 _, h0 _, h0 _, h0 _, h0 _, h0 _, h0 _, h0 _⟩, slideFits_reset _,
    slideFits_reset _, fun u _ => ?_⟩
  rw [resetInput_getElem]
  exact trackFits_reset _

/-- SONG_INIT re-initialises the registers as reset does, but for `ERROR` and `RESULT`, as wide as their types. -/
theorem registersFit_reinitialise (s : State) : RegistersFit (reinitialise s) := registersFit_resetInput s

theorem RegistersFit.modifyTrack (h : RegistersFit s) (k : TrackIx) {f : Track → Track}
    (hf : ∀ tr, TrackFits s.params tr → TrackFits s.params (f tr)) : RegistersFit (modifyTrack k f s) := by
  obtain ⟨htc, htp, hb, ht, hr, htracks⟩ := h
  refine ⟨htc, htp, hb, ht, hr, fun u hu => ?_⟩
  by_cases hk : u = k
  · subst hk
    rw [modifyTrack_getElem_self]
    exact hf _ (htracks u hu)
  · rw [modifyTrack_getElem_ne f s hk]
    exact htracks u hu

theorem RegistersFit.mapTracks (h : RegistersFit s) {f : Track → Track}
    (hf : ∀ tr, TrackFits s.params tr → TrackFits s.params (f tr)) :
    RegistersFit { s with tracks := mapTracks s.params.numTracks f s.tracks } := by
  obtain ⟨htc, htp, hb, ht, hr, htracks⟩ := h
  refine ⟨htc, htp, hb, ht, hr, fun u hu => ?_⟩
  rw [mapTracks_getElem_of_isTrack f s.tracks hu]
  exact hf _ (htracks u hu)

theorem RegistersFit.modifySlide (h : RegistersFit s) (k : SlideKind) (t : TrackIx) {f : Slide → Slide}
    (hf : ∀ u, SlideFits s.params u → SlideFits s.params (f u)) : RegistersFit (modifySlide k t f s) := by
  -- A track's slides after `f` at one kind: `f` there and the identity at the other six.
  have one (k k' : SlideKind) (u : Slide) (hu : SlideFits s.params u) :
      SlideFits s.params (if k' = k then f u else u) := by
    split
    · exact hf u hu
    · exact hu
  cases k with
  | tempo =>
    obtain ⟨htc, htp, hb, ht, hrest⟩ := h
    exact ⟨htc, htp, hb, hf _ ht, hrest⟩
  | reverbDepth =>
    obtain ⟨htc, htp, hb, ht, hr, htracks⟩ := h
    exact ⟨htc, htp, hb, ht, hf _ hr, htracks⟩
  | volume => exact h.modifyTrack t fun tr htr => htr.slides (one .volume)
  | pan => exact h.modifyTrack t fun tr htr => htr.slides (one .pan)
  | pitchBend => exact h.modifyTrack t fun tr htr => htr.slides (one .pitchBend)
  | vibratoDepth => exact h.modifyTrack t fun tr htr => htr.slides (one .vibratoDepth)
  | tremoloDepth => exact h.modifyTrack t fun tr htr => htr.slides (one .tremoloDepth)
  | panLfoDepth => exact h.modifyTrack t fun tr htr => htr.slides (one .panLfoDepth)
  | overlayBalance => exact h.modifyTrack t fun tr htr => htr.slides (one .overlayBalance)

theorem RegistersFit.release (h : RegistersFit s) (v : Voice) : RegistersFit (release v s) := by
  obtain ⟨htc, htp, ⟨ha, hon, hk, hoff, hbits⟩, hrest⟩ := (registersFit_iff s).mp h
  unfold Machine.release
  split
  · exact (registersFit_iff _).mpr
      ⟨htc, htp, ⟨ha, clearVoice_fits v hon, hk, setVoice_fits v hoff, hbits⟩, hrest⟩
  · exact (registersFit_iff _).mpr
      ⟨htc, htp, ⟨clearVoice_fits v ha, clearVoice_fits v hon, hk, hoff, hbits⟩, hrest⟩

theorem RegistersFit.releaseBound (h : RegistersFit s) (v : Option Voice) : RegistersFit (releaseBound v s) := by
  cases v with
  | none => exact h
  | some v => exact h.release v

theorem RegistersFit.finish (h : RegistersFit s) (t : TrackIx) : RegistersFit (finish t s) :=
  ((h.releaseBound _).releaseBound _).modifyTrack t fun _ htr => htr.finishedTrack

theorem RegistersFit.requestKeyOn (h : RegistersFit s) (v : Voice) : RegistersFit (requestKeyOn v s) := by
  obtain ⟨htc, htp, ⟨ha, hon, hk, hoff, hbits⟩, hrest⟩ := (registersFit_iff s).mp h
  exact (registersFit_iff _).mpr
    ⟨htc, htp, ⟨setVoice_fits v ha, setVoice_fits v hon, hk, clearVoice_fits v hoff, hbits⟩, hrest⟩

theorem RegistersFit.resolveTracks (h : RegistersFit s) : RegistersFit (resolveTracks s) :=
  h.mapTracks fun _ htr => htr.emittedTrack

theorem RegistersFit.resolveKeys (h : RegistersFit s) : RegistersFit (resolveKeys s) := by
  obtain ⟨htc, htp, ⟨ha, hon, hk, hoff, hbits⟩, hrest⟩ := (registersFit_iff s).mp h
  exact (registersFit_iff _).mpr
    ⟨htc, htp, ⟨ha.and_left _, fits_zero _ _, (hk.and_left _).or hon, fits_zero _ _, hbits⟩, hrest⟩

theorem RegistersFit.advanceTime (h : RegistersFit s) : RegistersFit (advanceTime s) :=
  ⟨narrow_fits _ _, h.2⟩

/-- `TICKS_PENDING` saturates at the largest value of its width (41_timing.md R121). -/
theorem RegistersFit.addTicks (h : RegistersFit s) (op : BitVec 8) (n : Nat) : RegistersFit (addTicks op n s) := by
  have hpos : 0 < 2 ^ s.params.tpWidth.val := Nat.two_pow_pos _
  have pending {x : Nat} (hx : x ≤ 2 ^ s.params.tpWidth.val - 1) :
      Fits s.params.tpWidth.val (BitVec.ofNat 32 x) := by
    rw [Fits, BitVec.toNat_ofNat]
    exact Nat.lt_of_le_of_lt (Nat.mod_le _ _) (by omega)
  obtain ⟨htc, -, hrest⟩ := h
  rcases addTicks_cases op n s with ⟨hx, e⟩ | ⟨-, e⟩
  · rw [e]
    exact ⟨htc, pending hx, hrest⟩
  · rw [e]
    exact ⟨htc, pending le_rfl, hrest⟩

theorem RegistersFit.stepTempo (h : RegistersFit s) : RegistersFit (stepTempo s) :=
  h.modifySlide .tempo 0 fun _ => slideStep_fits .tempo

end Sys2Proof.Machine
end

