-- ==== Sys2Proof/Proofs/CommandEffect.lean ====
section
/-! SUPPORT. Everything a command can do, said once: `exec_effect` inverts `exec`, and what holds of every command is
read off the cases of `CommandEffect`. -/

namespace Sys2Proof.Machine

/-- What command `i` may leave of state `s`. A track or a slide unit is changed by a function that keeps it within its
widths where the Instrument Table is canonical; the cases of the registers that 10_state.md R23 names writers for carry
the command. -/
inductive CommandEffect (s : State) : Instr → State → Prop
  | nop : CommandEffect s .nop s
  /-- `raise` (00_scope.md R11). -/
  | refused (i : Instr) (d : Diag) : CommandEffect s i (raised d (opcodeOf i) s)
  /-- A command on one track. -/
  | track (i : Instr) (k : TrackIx) (f : Track → Track)
      (hf : TableCanonical s → ∀ tr, TrackFits s.params tr → TrackFits s.params (f tr)) :
      CommandEffect s i (modifyTrack k f s)
  /-- A slide command (42_slide.md R154, R155). -/
  | slide (i : Instr) (k : SlideKind) (t : TrackIx) (f : Slide → Slide)
      (hf : ∀ u, SlideFits s.params u → SlideFits s.params (f u)) : CommandEffect s i (modifySlide k t f s)
  | block (n : Nat) : CommandEffect s .block (stepTempo (addTicks (opcodeOf .block) n (advanceTime s)))
  | tick (h : s.ticksPending ≠ 0) : CommandEffect s .tick { s with
      ticksPending := s.ticksPending - 1
      tracks := mapTracks s.params.numTracks (tickTrack s.params) s.tracks
      reverbDepth := slideStep s.params .reverbDepth s.reverbDepth }
  | trackFinish (idx : BitVec 8) (t : TrackIx) : CommandEffect s (.trackFinish idx) (finish t s)
  | deviceFault (idx : BitVec 8) (t : TrackIx) :
      CommandEffect s (.deviceFault idx) (finish t (raised .deviceFault (opcodeOf (.deviceFault idx)) s))
  | timeSet (v : Word) : CommandEffect s (.timeSet v) { s with timeCounter := narrow s.params.tcWidth v }
  | reverbTypeSet (v : Word) : CommandEffect s (.reverbTypeSet v) { s with reverbType := v }
  | statusClear (m : Word) : CommandEffect s (.statusClear m) { s with error := clearError s.error m }
  | songInit : CommandEffect s .songInit
      (reinitialise (emit ((voicesOf s.params.numVoices s.keyedVoices).map Event.keyOff) s))
  /-- A read that answers (10_state.md R52). -/
  | read (i : Instr) (v : Word) (hi : (∃ k n, i = .regRead k n) ∨ ∃ k m, i = .voicesQuery k m) :
      CommandEffect s i (latch v s)
  /-- A read that raises leaves `RESULT` 0 (45_system.md R261, 43_voice.md R202). -/
  | readRefused (i : Instr) (d : Diag) (hi : (∃ k n, i = .regRead k n) ∨ ∃ k m, i = .voicesQuery k m) :
      CommandEffect s i (raised d (opcodeOf i) (latch 0 s))
  | keyOn (idx : BitVec 8) (v : Voice) : CommandEffect s (.keyOn idx) (requestKeyOn v s)
  | keyOnKeyed (idx : BitVec 8) (v : Voice) :
      CommandEffect s (.keyOn idx) (requestKeyOn v (raised .keyonKeyed (opcodeOf (.keyOn idx)) s))
  | keyOff (idx : BitVec 8) (v : Voice) : CommandEffect s (.keyOff idx) (release v s)
  | keyOffNotKeyed (idx : BitVec 8) (v : Voice) :
      CommandEffect s (.keyOff idx) (release v (raised .keyoffNotKeyed (opcodeOf (.keyOff idx)) s))
  | resolve : CommandEffect s .resolve (resolveKeys (resolveFeatures (resolveTracks s)))
  | saveActive : CommandEffect s .saveActive { s with savedActiveVoices := s.activeVoices }
  | noise (i : Instr) (b : Word) (hi : (∃ v, i = .noiseOn v) ∨ ∃ v, i = .noiseOff v)
      (hb : Fits s.params.bitsetWidth.val s.noiseVoices → Fits s.params.bitsetWidth.val b) :
      CommandEffect s i { s with noiseVoices := b, featureDirty := s.featureDirty ||| dirtyNoise }
  | reverb (i : Instr) (b : Word) (hi : (∃ v, i = .reverbOn v) ∨ ∃ v, i = .reverbOff v)
      (hb : Fits s.params.bitsetWidth.val s.reverbVoices → Fits s.params.bitsetWidth.val b) :
      CommandEffect s i { s with reverbVoices := b, featureDirty := s.featureDirty ||| dirtyReverb }
  | pitchLfo (i : Instr) (b : Word) (hi : (∃ v, i = .plfoOn v) ∨ ∃ v, i = .plfoOff v)
      (hb : Fits s.params.bitsetWidth.val s.pitchLfoVoices → Fits s.params.bitsetWidth.val b) :
      CommandEffect s i { s with pitchLfoVoices := b, featureDirty := s.featureDirty ||| dirtyPitchLfo }
  | instrWrite (e : BitVec 8) (f : BitVec 16) (v : Word) (he : e.toNat < s.params.numInstr.val) (hf : f.toNat ≤ 11) :
      CommandEffect s (.instrWrite e f v)
        { s with instrTable := memWrite s.params s.instrTable e.toNat f.toNat v }

/-! One lemma per command shape: where every outcome of its action is an effect of the command, so is the command's. -/

variable {i : Instr} {s t : State} {idx : BitVec 8}

/-- A raise answers `raised`. -/
theorem raise_effect {d : Diag} (h : raise d (opcodeOf i) s = .next t) : CommandEffect s i t := by
  rw [raise_eq] at h
  cases h
  exact .refused i d

theorem withTrack_effect {act : TrackIx → StepResult} (h : withTrack (opcodeOf i) idx s act = .next t)
    (hact : ∀ k, act k = .next t → CommandEffect s i t) : CommandEffect s i t := by
  rcases withTrack_cases (opcodeOf i) idx s act with ⟨k, -, e⟩ | ⟨-, e⟩
  · exact hact k (e ▸ h)
  · rw [e] at h
    cases h
    exact .refused i .indexRange

theorem onTrack_effect {f : Track → Track} (h : onTrack (opcodeOf i) idx f s = .next t)
    (hf : TableCanonical s → ∀ tr, TrackFits s.params tr → TrackFits s.params (f tr)) : CommandEffect s i t :=
  withTrack_effect h fun k hk => by
    cases hk
    exact .track i k f hf

theorem withVoice_effect {act : Voice → StepResult} (h : withVoice (opcodeOf i) idx s act = .next t)
    (hact : ∀ v, act v = .next t → CommandEffect s i t) : CommandEffect s i t := by
  rcases withVoice_cases (opcodeOf i) idx s act with ⟨-, e⟩ | ⟨-, e⟩
  · exact hact _ (e ▸ h)
  · rw [e] at h
    cases h
    exact .refused i .indexRange

theorem withTrackVoice_effect {imm : BitVec 16} {act : TrackIx → Voice → StepResult}
    (h : withTrackVoice (opcodeOf i) idx imm s act = .next t)
    (hact : ∀ k (v : Voice), v.toNat < s.params.numVoices.val → act k v = .next t → CommandEffect s i t) :
    CommandEffect s i t := by
  rcases withTrackVoice_cases (opcodeOf i) idx imm s act with ⟨k, -, himm, e⟩ | ⟨-, e⟩
  · exact hact k _ ((voice_toNat_of_lt himm).symm ▸ himm) (e ▸ h)
  · rw [e] at h
    cases h
    exact .refused i .indexRange

/-- OVERLAY_ON and ALTERNATE_ON (43_voice.md R205, R206). -/
theorem bindSecondary_effect {imm : BitVec 16} (kind : SecondaryKind)
    (h : withTrackVoice (opcodeOf i) idx imm s (fun k v => .next (modifyTrack k (bindSecondary v kind) s)) = .next t) :
    CommandEffect s i t :=
  withTrackVoice_effect h fun k v hv hk => by
    cases hk
    exact .track i k _ fun _ tr htr => htr.secondary fun c hc => by
      cases hc
      exact hv

theorem onSlide_effect {k : SlideKind} {f : Slide → Slide} (h : onSlide k (opcodeOf i) idx f s = .next t)
    (hf : ∀ u, SlideFits s.params u → SlideFits s.params (f u)) : CommandEffect s i t := by
  rcases onSlide_cases k (opcodeOf i) idx f s with ⟨-, e⟩ | ⟨-, k', -, e⟩ | ⟨-, -, e⟩ <;> rw [e] at h <;> cases h
  · exact .slide i k 0 f hf
  · exact .slide i k k' f hf
  · exact .refused i .indexRange

/-- SLIDE_VALUE.k is one command over the kinds; the player's kinds ignore `idx` (42_slide.md R154). -/
theorem exec_slideValueInstr (k : SlideKind) (idx : BitVec 8) (v : Word) (s : State) :
    exec (slideValueInstr k idx v) s =
      onSlide k (opcodeOf (slideValueInstr k idx v)) idx (slideSetValue s.params k v) s := by
  cases k <;> rfl

/-- SLIDE_START.k is one command over the kinds; the player's kinds ignore `idx` (R155). -/
theorem exec_slideStartInstr (k : SlideKind) (idx : BitVec 8) (n : BitVec 16) (v : Word) (s : State) :
    exec (slideStartInstr k idx n v) s =
      onSlide k (opcodeOf (slideStartInstr k idx n v)) idx (slideSetSlope s.params n v) s := by
  cases k <;> rfl

theorem slideValueInstr_effect {v : Word} (k : SlideKind) (idx : BitVec 8)
    (h : exec (slideValueInstr k idx v) s = .next t) : CommandEffect s (slideValueInstr k idx v) t :=
  onSlide_effect (exec_slideValueInstr k idx v s ▸ h) fun _ => slideSetValue_fits k v

theorem slideStartInstr_effect {n : BitVec 16} {v : Word} (k : SlideKind) (idx : BitVec 8)
    (h : exec (slideStartInstr k idx n v) s = .next t) : CommandEffect s (slideStartInstr k idx n v) t :=
  onSlide_effect (exec_slideStartInstr k idx n v s ▸ h) fun _ => slideSetSlope_fits n v

/-! The commands with a shape of their own. -/

theorem execTick_effect (h : execTick s = .next t) : CommandEffect s .tick t := by
  unfold execTick at h
  split at h
  · exact raise_effect h
  · rename_i hp
    cases h
    exact .tick hp

theorem execDeviceFault_effect (h : execDeviceFault idx s = .next t) : CommandEffect s (.deviceFault idx) t :=
  withTrack_effect h fun k hk => by
    rw [note_eq_raised] at hk
    cases hk
    exact .deviceFault idx k

/-- A read's raise comes after `RESULT` is cleared. -/
theorem readRaise_effect {d : Diag} (hi : (∃ k n, i = .regRead k n) ∨ ∃ k m, i = .voicesQuery k m)
    (h : raise d (opcodeOf i) (latch 0 s) = .next t) : CommandEffect s i t := by
  rw [raise_eq] at h
  cases h
  exact .readRefused i d hi

theorem execRegRead_effect {n : BitVec 16} (h : execRegRead idx n s = .next t) :
    CommandEffect s (.regRead idx n) t := by
  have hi : (∃ k m, Instr.regRead idx n = .regRead k m) ∨ ∃ k m, Instr.regRead idx n = .voicesQuery k m :=
    .inl ⟨idx, n, rfl⟩
  unfold execRegRead at h
  split at h
  · exact readRaise_effect hi h
  · split at h
    · cases h
      exact .read _ _ hi
    · rcases withTrack_cases (opcodeOf (.regRead idx n)) idx (latch 0 s) _ with ⟨k, -, e⟩ | ⟨-, e⟩
      · rw [e] at h
        cases h
        exact .read _ _ hi
      · rw [e] at h
        cases h
        exact .readRefused _ .indexRange hi
    · split at h
      · exact readRaise_effect hi h
      · cases h
        exact .read _ _ hi

theorem execVoicesQuery_effect {m : Word} (h : execVoicesQuery idx m s = .next t) :
    CommandEffect s (.voicesQuery idx m) t := by
  have hi : (∃ k n, Instr.voicesQuery idx m = .regRead k n) ∨ ∃ k n, Instr.voicesQuery idx m = .voicesQuery k n :=
    .inr ⟨idx, m, rfl⟩
  unfold execVoicesQuery at h
  split at h
  · exact readRaise_effect hi h
  · cases h
    exact .read _ _ hi

theorem execKeyOn_effect (h : execKeyOn idx s = .next t) : CommandEffect s (.keyOn idx) t :=
  withVoice_effect h fun v hv => by
    split at hv
    · rw [note_eq_raised] at hv
      cases hv
      exact .keyOnKeyed idx v
    · cases hv
      exact .keyOn idx v

theorem execKeyOff_effect (h : execKeyOff idx s = .next t) : CommandEffect s (.keyOff idx) t :=
  withVoice_effect h fun v hv => by
    split at hv
    · rw [note_eq_raised] at hv
      cases hv
      exact .keyOffNotKeyed idx v
    · cases hv
      exact .keyOff idx v

theorem execVoiceBind_effect {imm : BitVec 16} (h : execVoiceBind idx imm s = .next t) :
    CommandEffect s (.voiceBind idx imm) t :=
  withTrackVoice_effect h fun k v hv hk => by
    split at hk
    · exact raise_effect hk
    · cases hk
      exact .track _ k _ fun _ tr htr => htr.primary fun w hw => by
        cases hw
        exact hv

theorem execInstrWrite_effect {f : BitVec 16} {v : Word} (h : execInstrWrite idx f v s = .next t) :
    CommandEffect s (.instrWrite idx f v) t := by
  unfold execInstrWrite at h
  split at h
  · exact raise_effect h
  · rename_i hf
    unfold entryOperand at h
    split_ifs at h with he
    · cases h
      exact .instrWrite idx f v he (Nat.not_lt.mp hf)
    · exact raise_effect h

theorem execLoadInstr_effect {imm : BitVec 16} (h : execLoadInstr idx imm s = .next t) :
    CommandEffect s (.loadInstr idx imm) t :=
  withTrack_effect h fun k hk => by
    split at hk
    · exact raise_effect hk
    · rename_i e _
      split at hk
      · cases hk
        exact .track _ k _ fun hm tr htr => htr.loadEntry e imm hm
      · exact raise_effect hk

/-- Every command does one of the things `CommandEffect` lists. -/
theorem exec_effect (h : exec i s = .next t) : CommandEffect s i t := by
  cases i with
  | nop =>
    cases h
    exact .nop
  | block =>
    cases h
    exact .block _
  | tick => exact execTick_effect h
  | setDelta idx n => exact onTrack_effect h fun _ tr htr => htr.delta (narrow_fits _ n)
  | trackStart idx => exact onTrack_effect h fun _ tr htr => htr.delta (fits_zero 16 _)
  | trackFinish idx =>
    exact withTrack_effect h fun k hk => by
      cases hk
      exact .trackFinish idx k
  | timeSet v =>
    cases h
    exact .timeSet v
  | reverbTypeSet v =>
    cases h
    exact .reverbTypeSet v
  | deviceFault idx => exact execDeviceFault_effect h
  | regRead idx n => exact execRegRead_effect h
  | statusClear m =>
    cases h
    exact .statusClear m
  | songInit =>
    cases h
    exact .songInit
  | slideValueTempo v => exact slideValueInstr_effect .tempo 0 h
  | slideValueReverbDepth v => exact slideValueInstr_effect .reverbDepth 0 h
  | slideValueVolume idx v => exact slideValueInstr_effect .volume idx h
  | slideValuePan idx v => exact slideValueInstr_effect .pan idx h
  | slideValuePitchBend idx v => exact slideValueInstr_effect .pitchBend idx h
  | slideValueVibratoDepth idx v => exact slideValueInstr_effect .vibratoDepth idx h
  | slideValueTremoloDepth idx v => exact slideValueInstr_effect .tremoloDepth idx h
  | slideValuePanLfoDepth idx v => exact slideValueInstr_effect .panLfoDepth idx h
  | slideValueOverlayBalance idx v => exact slideValueInstr_effect .overlayBalance idx h
  | slideStartTempo n v => exact slideStartInstr_effect .tempo 0 h
  | slideStartReverbDepth n v => exact slideStartInstr_effect .reverbDepth 0 h
  | slideStartVolume idx n v => exact slideStartInstr_effect .volume idx h
  | slideStartPan idx n v => exact slideStartInstr_effect .pan idx h
  | slideStartPitchBend idx n v => exact slideStartInstr_effect .pitchBend idx h
  | slideStartVibratoDepth idx n v => exact slideStartInstr_effect .vibratoDepth idx h
  | slideStartTremoloDepth idx n v => exact slideStartInstr_effect .tremoloDepth idx h
  | slideStartPanLfoDepth idx n v => exact slideStartInstr_effect .panLfoDepth idx h
  | slideStartOverlayBalance idx n v => exact slideStartInstr_effect .overlayBalance idx h
  | keyOn idx => exact execKeyOn_effect h
  | keyOff idx => exact execKeyOff_effect h
  | resolve =>
    cases h
    exact .resolve
  | saveActive =>
    cases h
    exact .saveActive
  | noiseOn idx =>
    exact withVoice_effect h fun v hv => by
      cases hv
      exact .noise _ _ (.inl ⟨idx, rfl⟩) (setVoice_fits v)
  | noiseOff idx =>
    exact withVoice_effect h fun v hv => by
      cases hv
      exact .noise _ _ (.inr ⟨idx, rfl⟩) (clearVoice_fits v)
  | reverbOn idx =>
    exact withVoice_effect h fun v hv => by
      cases hv
      exact .reverb _ _ (.inl ⟨idx, rfl⟩) (setVoice_fits v)
  | reverbOff idx =>
    exact withVoice_effect h fun v hv => by
      cases hv
      exact .reverb _ _ (.inr ⟨idx, rfl⟩) (clearVoice_fits v)
  | plfoOn idx =>
    exact withVoice_effect h fun v hv => by
      cases hv
      exact .pitchLfo _ _ (.inl ⟨idx, rfl⟩) (setVoice_fits v)
  | plfoOff idx =>
    exact withVoice_effect h fun v hv => by
      cases hv
      exact .pitchLfo _ _ (.inr ⟨idx, rfl⟩) (clearVoice_fits v)
  | voicesQuery idx m => exact execVoicesQuery_effect h
  | voiceBind idx imm => exact execVoiceBind_effect h
  | voiceUnbind idx => exact onTrack_effect h fun _ tr htr => htr.primary fun _ hv => nomatch hv
  | overlayOn idx imm => exact bindSecondary_effect .overlay h
  | alternateOn idx imm => exact bindSecondary_effect .alternate h
  | secondaryOff idx => exact onTrack_effect h fun _ tr htr => htr.secondary fun _ hv => nomatch hv
  | instrWrite e f v => exact execInstrWrite_effect h
  | loadInstr idx imm => exact execLoadInstr_effect h
  | setAttackRate idx x =>
    exact onTrack_effect h fun _ tr htr => htr.adsr fun ⟨ham, hdm, hrm, _, hrest⟩ =>
      ⟨ham, hdm, hrm, narrow_fits _ _, hrest⟩
  | setDecayRate idx x =>
    exact onTrack_effect h fun _ tr htr => htr.adsr fun ⟨ham, hdm, hrm, har, _, hrest⟩ =>
      ⟨ham, hdm, hrm, har, narrow_fits _ _, hrest⟩
  | setSustainRate idx x =>
    exact onTrack_effect h fun _ tr htr => htr.adsr fun ⟨ham, hdm, hrm, har, hdr, _, hrest⟩ =>
      ⟨ham, hdm, hrm, har, hdr, narrow_fits _ _, hrest⟩
  | setReleaseRate idx x =>
    exact onTrack_effect h fun _ tr htr => htr.adsr fun ⟨ham, hdm, hrm, har, hdr, hsr, _, hsl⟩ =>
      ⟨ham, hdm, hrm, har, hdr, hsr, narrow_fits _ _, hsl⟩
  | setSustainLevel idx x =>
    exact onTrack_effect h fun _ tr htr => htr.adsr fun ⟨ham, hdm, hrm, har, hdr, hsr, hrr, _⟩ =>
      ⟨ham, hdm, hrm, har, hdr, hsr, hrr, narrow_fits _ _⟩
  | setAttackMode idx x =>
    exact onTrack_effect h fun _ tr htr => htr.adsr fun ⟨_, hrest⟩ =>
      ⟨narrow_fits _ _, hrest⟩
  | setDecayMode idx x =>
    exact onTrack_effect h fun _ tr htr => htr.adsr fun ⟨ham, _, hrest⟩ =>
      ⟨ham, narrow_fits _ _, hrest⟩
  | setReleaseMode idx x =>
    exact onTrack_effect h fun _ tr htr => htr.adsr fun ⟨ham, hdm, _, hrest⟩ =>
      ⟨ham, hdm, narrow_fits _ _, hrest⟩
  | setPitch idx x => exact onTrack_effect h fun _ tr htr => htr.pitch (narrow_fits _ x)
  | setVolume idx x =>
    exact onTrack_effect h fun _ tr htr => htr.volumeLr (by simpa using narrow_fits _ (volL x))
      (by simpa using narrow_fits _ (volR x))
  | setAddr idx x => exact onTrack_effect h fun _ tr htr => htr.addr (narrow_fits _ x)
  | setLoopAddr idx x => exact onTrack_effect h fun _ tr htr => htr.loopAddr (narrow_fits _ x)

end Sys2Proof.Machine
end

