-- ==== Sys2Proof/Proofs/StepEffect.lean ====
section
/-! SUPPORT. What every command and every step keeps: the widths of the registers, the canonical form of the Instrument
Table, the events of `OUT` and the registers that 10_state.md R23 names writers for. Each is read off the cases of
`CommandEffect` and `StepEffect`. -/

namespace Sys2Proof.Machine

/-- What a step may leave of state `s`: with `link` and `input` taken from, no more; the raise of a reserved op byte
(30_encoding.md R94); what a command leaves; or reset, where the reset input stood first. -/
inductive StepEffect (s : State) : State → Prop
  | portsOnly (l : List Byte) (ps : List PortInput) : StepEffect s { s with link := l, input := ps }
  | reserved (l : List Byte) (ps : List PortInput) (op : BitVec 8) :
      StepEffect s (raised .illegalOp op { s with link := l, input := ps })
  | command (l : List Byte) (ps : List PortInput) (i : Instr) (t : State)
      (h : CommandEffect { s with link := l, input := ps } i t) : StepEffect s t
  | reset (ps : List PortInput) (h : s.input.head? = some .reset) : StepEffect s (resetInput { s with input := ps })

theorem execWord_effect {w : CmdWord} {l : List Byte} {ps : List PortInput} {s t : State}
    (h : execWord w { s with link := l, input := ps } = .next t) : StepEffect s t := by
  unfold execWord at h
  split at h
  · exact .command l ps _ t (exec_effect h)
  · rw [raise_eq] at h
    cases h
    exact .reserved l ps _

/-- Every step does one of the things `StepEffect` lists. -/
theorem step_effect {s t : State} (h : step s = .next t) : StepEffect s t := by
  rcases hin : s.input with _ | ⟨p, rest⟩
  · rw [step_of_input_nil hin] at h
    cases h
    exact .portsOnly s.link s.input
  · rw [step_of_input_cons hin] at h
    cases p with
    | command w => exact execWord_effect h
    | byte b =>
      change receiveByte b { s with input := rest } = .next t at h
      unfold receiveByte at h
      split at h
      · cases h
        exact .portsOnly _ rest
      · exact execWord_effect h
    | reset =>
      cases h
      exact .reset rest (by rw [hin]; rfl)

/-! The Instrument Table and the widths. -/

theorem CommandEffect.params_eq {s t : State} {i : Instr} (h : CommandEffect s i t) : t.params = s.params := by
  cases h <;> simp

/-- Only INSTR_WRITE writes the Instrument Table (20_memory.md R72). -/
theorem CommandEffect.instrTable_eq {s t : State} {i : Instr} (h : CommandEffect s i t)
    (hi : ∀ e f v, i ≠ .instrWrite e f v) : t.instrTable = s.instrTable := by
  cases h with
  | instrWrite e f v => exact absurd rfl (hi e f v)
  | _ => simp

theorem CommandEffect.tableCanonical {s t : State} {i : Instr} (h : CommandEffect s i t) (hs : TableCanonical s) :
    TableCanonical t := by
  cases h with
  | instrWrite e f v he hf => exact memWrite_wf v he hf hs
  | _ => simpa [TableCanonical] using hs

theorem StepEffect.tableCanonical {s t : State} (h : StepEffect s t) (hs : TableCanonical s) : TableCanonical t := by
  cases h with
  | portsOnly l ps => exact hs
  | reserved l ps op => exact hs
  | command l ps i t h => exact h.tableCanonical hs
  | reset ps _ => rfl

theorem CommandEffect.registersFit {s t : State} {i : Instr} (h : CommandEffect s i t) (hm : TableCanonical s)
    (hs : RegistersFit s) : RegistersFit t := by
  obtain ⟨htc, htp, ⟨ha, hon, hk, hoff, hsaved, hn, hr, hp⟩, hrest⟩ := (registersFit_iff s).mp hs
  cases h with
  | nop => exact hs
  | refused i d => exact hs
  | track i k f hf => exact hs.modifyTrack k (hf hm)
  | slide i k t f hf => exact hs.modifySlide k t hf
  | block n => exact (hs.advanceTime.addTicks _ n).stepTempo
  | tick h =>
    obtain ⟨htc, htp, hbits, ht, hr, htracks⟩ := hs.mapTracks fun tr htr => htr.tickTrack
    exact ⟨htc, htp.pred h, hbits, ht, slideStep_fits .reverbDepth hr, htracks⟩
  | trackFinish idx t => exact hs.finish t
  | deviceFault idx t => exact RegistersFit.finish (s := raised _ _ s) hs t
  | timeSet v => exact ⟨narrow_fits _ v, hs.2⟩
  | reverbTypeSet v => exact hs
  | statusClear m => exact hs
  | songInit => exact registersFit_reinitialise _
  | read i v _ => exact hs
  | readRefused i d _ => exact hs
  | keyOn idx v => exact hs.requestKeyOn v
  | keyOnKeyed idx v => exact RegistersFit.requestKeyOn (s := raised _ _ s) hs v
  | keyOff idx v => exact hs.release v
  | keyOffNotKeyed idx v => exact RegistersFit.release (s := raised _ _ s) hs v
  | resolve => exact RegistersFit.resolveKeys (s := resolveFeatures _) hs.resolveTracks
  | saveActive => exact (registersFit_iff _).mpr ⟨htc, htp, ⟨ha, hon, hk, hoff, ha, hn, hr, hp⟩, hrest⟩
  | noise i b _ hb => exact (registersFit_iff _).mpr ⟨htc, htp, ⟨ha, hon, hk, hoff, hsaved, hb hn, hr, hp⟩, hrest⟩
  | reverb i b _ hb => exact (registersFit_iff _).mpr ⟨htc, htp, ⟨ha, hon, hk, hoff, hsaved, hn, hb hr, hp⟩, hrest⟩
  | pitchLfo i b _ hb => exact (registersFit_iff _).mpr ⟨htc, htp, ⟨ha, hon, hk, hoff, hsaved, hn, hr, hb hp⟩, hrest⟩
  | instrWrite e f v _ _ => exact hs

theorem StepEffect.registersFit {s t : State} (h : StepEffect s t) (hm : TableCanonical s) (hs : RegistersFit s) :
    RegistersFit t := by
  cases h with
  | portsOnly l ps => exact hs
  | reserved l ps op => exact hs
  | command l ps i t h => exact h.registersFit hm hs
  | reset ps _ => exact registersFit_resetInput _

/-- Settles O11: each case of a step's effect keeps both. -/
theorem stepKeepsTableAndWidths : Obligations.StepKeepsTableAndWidths :=
  ⟨fun _ _ hm h => (step_effect h).tableCanonical hm, fun _ _ hm hs h => (step_effect h).registersFit hm hs⟩

/-! `ERROR` and `OUT`. -/

theorem groupEvents_noDiag (tr : Track) (v : Voice) (vol : BitVec 16 × BitVec 16) :
    ∀ e ∈ groupEvents tr v vol, isDiag e = false := by
  simp [groupEvents, or_imp, forall_and, isDiag]

theorem trackEvents_noDiag (p : Config.Params) (tr : Track) : ∀ e ∈ trackEvents p tr, isDiag e = false := by
  intro e he
  unfold trackEvents at he
  rcases List.mem_append.mp he with he | he <;> split at he
  · cases he
  · exact groupEvents_noDiag _ _ _ e he
  · cases he
  · exact groupEvents_noDiag _ _ _ e he

theorem featureEvents_noDiag (s : State) : ∀ e ∈ featureEvents s, isDiag e = false := by
  simp [featureEvents, or_imp, forall_and, isDiag]

/-- What RESOLVE appends to `OUT`, the three steps in order (43_voice.md R193). -/
def resolveEvents (s : State) : List Event :=
  (liveTracks s).flatMap (trackEvents s.params) ++ featureEvents s ++
    ((voicesOf s.params.numVoices s.keyOffVoices).map Event.keyOff ++
      (voicesOf s.params.numVoices s.keyOnVoices).map Event.keyOn)

theorem resolve_out (s : State) :
    (resolveKeys (resolveFeatures (resolveTracks s))).out = s.out ++ resolveEvents s := by
  simp [resolveEvents, featureEvents]

theorem resolveEvents_noDiag (s : State) : ∀ e ∈ resolveEvents s, isDiag e = false := by
  intro e he
  simp only [resolveEvents, List.mem_append, List.mem_flatMap, List.mem_map] at he
  rcases he with (⟨tr, -, htr⟩ | hf) | ⟨v, -, rfl⟩ | ⟨v, -, rfl⟩
  · exact trackEvents_noDiag _ _ e htr
  · exact featureEvents_noDiag s e hf
  · rfl
  · rfl

/-- What a command does to `OUT` and `ERROR` together (00_scope.md R11, 60_exceptions.md R284). -/
inductive OutErrorEffect (s t : State) (i : Instr) : Prop
  /-- No diagnostic is emitted and no `ERROR` bit set. -/
  | quiet (es : List Event) (hes : ∀ e ∈ es, isDiag e = false) (hout : t.out = s.out ++ es) (herr : t.error = s.error)
  /-- One diagnostic is emitted, and nothing else, and its bit set. -/
  | diag (d : Diag) (hout : t.out = s.out ++ [.diag d (opcodeOf i)])
      (herr : t.error = s.error ||| (1#10 <<< diagCode d))
  | cleared (m : Word) (hi : i = .statusClear m) (hout : t.out = s.out)

/-- A command that touches neither is a quiet one. -/
theorem OutErrorEffect.unchanged {s t : State} {i : Instr} (hout : t.out = s.out) (herr : t.error = s.error) :
    OutErrorEffect s t i :=
  .quiet [] (fun _ he => nomatch he) (by rw [hout, List.append_nil]) herr

theorem CommandEffect.outError {s t : State} {i : Instr} (h : CommandEffect s i t) : OutErrorEffect s t i := by
  cases h with
  | refused i d => exact .diag d rfl rfl
  | readRefused i d _ => exact .diag d rfl rfl
  | deviceFault idx t => exact .diag .deviceFault (finish_out t _) (finish_error t _)
  | keyOnKeyed idx v => exact .diag .keyonKeyed rfl rfl
  | keyOffNotKeyed idx v => exact .diag .keyoffNotKeyed (release_out v _) (release_error v _)
  | block n =>
    rcases addTicks_cases (opcodeOf .block) n (advanceTime s) with ⟨-, e⟩ | ⟨-, e⟩ <;> rw [e]
    · exact .unchanged rfl rfl
    · exact .diag .ticksSat rfl rfl
  | statusClear m => exact .cleared m rfl rfl
  | songInit =>
    refine .quiet _ (fun e he => ?_) rfl rfl
    obtain ⟨v, -, rfl⟩ := List.mem_map.mp he
    rfl
  | resolve => exact .quiet (resolveEvents s) (resolveEvents_noDiag s) (resolve_out s) rfl
  | _ => exact .unchanged (by simp) (by simp)

/-- The `ERROR` bit of one diagnostic is no other's (10_state.md R27). -/
theorem getLsbD_diagMask (d d' : Diag) : (1#10 <<< diagCode d).getLsbD (diagCode d') = decide (d' = d) := by
  cases d <;> cases d' <;> rfl

/-- Settles O56: the diagnostic a command emits and the bit it sets are the same. -/
theorem errorSummarisesDiagnostics : Obligations.ErrorSummarisesDiagnostics := by
  intro i s t hi h
  cases (exec_effect h).outError with
  | quiet es hes hout herr =>
    refine ⟨es, hout, fun d => ?_⟩
    have hno : ¬ ∃ op, Event.diag d op ∈ es := fun ⟨op, hop⟩ => absurd (hes _ hop) (by simp [isDiag])
    rw [herr, or_iff_left hno]
  | diag d hout herr =>
    refine ⟨_, hout, fun d' => ?_⟩
    rw [herr, BitVec.getLsbD_or, getLsbD_diagMask]
    simp
  | cleared m hm _ => exact absurd hm (hi m)

theorem CommandEffect.out_prefix {s t : State} {i : Instr} (h : CommandEffect s i t) : s.out <+: t.out := by
  cases h.outError with
  | quiet es _ hout _ => exact ⟨es, hout.symm⟩
  | diag d hout _ => exact ⟨_, hout.symm⟩
  | cleared m _ hout => exact ⟨[], by rw [hout, List.append_nil]⟩

/-- Settles O57: of the cases of a step's effect only reset does not append. -/
theorem outIsAppendOnly : Obligations.OutIsAppendOnly := by
  intro s t h hreset
  cases step_effect h with
  | portsOnly l ps => exact List.prefix_rfl
  | reserved l ps op => exact List.prefix_append _ _
  | command l ps i t h => exact h.out_prefix
  | reset ps hr => exact absurd hr hreset

/-! Who writes which register (10_state.md R22, R23). -/

section
variable {s t : State} {i : Instr}

theorem CommandEffect.timeCounter_eq (h : CommandEffect s i t) (hb : i ≠ .block) (ht : ∀ v, i ≠ .timeSet v)
    (hs : i ≠ .songInit) : t.timeCounter = s.timeCounter := by
  cases h with
  | block n => exact absurd rfl hb
  | timeSet v => exact absurd rfl (ht v)
  | songInit => exact absurd rfl hs
  | _ => simp

theorem CommandEffect.ticksPending_eq (h : CommandEffect s i t) (hb : i ≠ .block) (ht : i ≠ .tick)
    (hs : i ≠ .songInit) : t.ticksPending = s.ticksPending := by
  cases h with
  | block n => exact absurd rfl hb
  | tick _ => exact absurd rfl ht
  | songInit => exact absurd rfl hs
  | _ => simp

theorem CommandEffect.reverbType_eq (h : CommandEffect s i t) (hr : ∀ v, i ≠ .reverbTypeSet v) (hs : i ≠ .songInit) :
    t.reverbType = s.reverbType := by
  cases h with
  | reverbTypeSet v => exact absurd rfl (hr v)
  | songInit => exact absurd rfl hs
  | _ => simp

theorem CommandEffect.keyedVoices_eq (h : CommandEffect s i t) (hr : i ≠ .resolve) (hs : i ≠ .songInit) :
    t.keyedVoices = s.keyedVoices := by
  cases h with
  | resolve => exact absurd rfl hr
  | songInit => exact absurd rfl hs
  | _ => simp

theorem CommandEffect.savedActiveVoices_eq (h : CommandEffect s i t) (ha : i ≠ .saveActive) (hs : i ≠ .songInit) :
    t.savedActiveVoices = s.savedActiveVoices := by
  cases h with
  | saveActive => exact absurd rfl ha
  | songInit => exact absurd rfl hs
  | _ => simp

theorem CommandEffect.noiseVoices_eq (h : CommandEffect s i t) (hon : ∀ v, i ≠ .noiseOn v) (hoff : ∀ v, i ≠ .noiseOff v)
    (hs : i ≠ .songInit) : t.noiseVoices = s.noiseVoices := by
  cases h with
  | noise i b hi _ => exact hi.elim (fun ⟨v, hv⟩ => absurd hv (hon v)) (fun ⟨v, hv⟩ => absurd hv (hoff v))
  | songInit => exact absurd rfl hs
  | _ => simp

theorem CommandEffect.reverbVoices_eq (h : CommandEffect s i t) (hon : ∀ v, i ≠ .reverbOn v)
    (hoff : ∀ v, i ≠ .reverbOff v) (hs : i ≠ .songInit) : t.reverbVoices = s.reverbVoices := by
  cases h with
  | reverb i b hi _ => exact hi.elim (fun ⟨v, hv⟩ => absurd hv (hon v)) (fun ⟨v, hv⟩ => absurd hv (hoff v))
  | songInit => exact absurd rfl hs
  | _ => simp

theorem CommandEffect.pitchLfoVoices_eq (h : CommandEffect s i t) (hon : ∀ v, i ≠ .plfoOn v)
    (hoff : ∀ v, i ≠ .plfoOff v) (hs : i ≠ .songInit) : t.pitchLfoVoices = s.pitchLfoVoices := by
  cases h with
  | pitchLfo i b hi _ => exact hi.elim (fun ⟨v, hv⟩ => absurd hv (hon v)) (fun ⟨v, hv⟩ => absurd hv (hoff v))
  | songInit => exact absurd rfl hs
  | _ => simp

theorem CommandEffect.result_eq (h : CommandEffect s i t) (hr : ∀ k n, i ≠ .regRead k n)
    (hq : ∀ k m, i ≠ .voicesQuery k m) : t.result = s.result := by
  have hno : ¬ ((∃ k n, i = .regRead k n) ∨ ∃ k m, i = .voicesQuery k m) := by
    rintro (⟨k, n, hi⟩ | ⟨k, m, hi⟩)
    · exact hr k n hi
    · exact hq k m hi
  cases h with
  | read i v hi => exact absurd hi hno
  | readRefused i d hi => exact absurd hi hno
  | _ => simp

end

/-- Settles O58: one lemma above for each register. -/
theorem onlyNamedCommandsWriteRegisters : Obligations.OnlyNamedCommandsWriteRegisters := by
  intro i s t h
  have he := exec_effect h
  exact ⟨he.timeCounter_eq, he.ticksPending_eq, he.reverbType_eq, he.keyedVoices_eq, he.savedActiveVoices_eq,
    he.noiseVoices_eq, he.reverbVoices_eq, he.pitchLfoVoices_eq, fun hi e f => by rw [he.instrTable_eq hi],
    he.result_eq, he.params_eq⟩

end Sys2Proof.Machine
end

