-- ==== Sys2Proof/Proofs/Reset.lean ====
section
/-! SUPPORT. The state that the reset input leaves (10_state.md R62, 70_reset_and_hazards.md R300). -/

namespace Sys2Proof.Machine

theorem step_of_input_reset {s : State} {rest : List PortInput} (h : s.input = .reset :: rest) :
    step s = .next (resetInput { s with input := rest }) :=
  step_of_input_cons h

/-- Every slide unit rests at 0 after reset. -/
theorem slideUnit_resetInput (k : SlideKind) (u : TrackIx) (s : State) :
    slideUnit k u (resetInput s) = Slide.reset := by
  cases k with
  | tempo => rfl
  | reverbDepth => rfl
  | _ =>
    rw [slideUnit, resetInput_getElem]
    rfl

/-- Settles O8: the step answers `resetInput`, whose fields are the reset values. -/
theorem resetInputClearsState : Obligations.ResetInputClearsState := by
  intro s rest h
  refine ⟨_, step_of_input_reset h, rfl, rfl, rfl, rfl, rfl, rfl, rfl, rfl, rfl, rfl, rfl, rfl, rfl, rfl, rfl,
    fun k u => slideUnit_resetInput k u _, fun u => ?tracks, memRead_nil, rfl⟩
  case tracks =>
    rw [resetInput_getElem]
    exact ⟨rfl, rfl, rfl, rfl, rfl, rfl⟩

/-- Settles O9: reset binds no voice, sets no bit, and leaves every register 0 and the table empty. -/
theorem invariantsHoldAtReset : Obligations.InvariantsHoldAtReset := by
  refine ⟨by decide, fun t u v _ _ ht _ => ?distinct, registersFit_resetInput State.reset, Memory.wf_reset⟩
  case distinct =>
    have hnone : State.reset.tracks[t].primary = none := congrArg Track.primary (resetInput_getElem State.reset t)
    rw [hnone] at ht
    cases ht

end Sys2Proof.Machine
end

