-- ==== Sys2Proof/Proofs/Summaries.lean ====
section
/-! SUPPORT. The registers that summarise other state: `STATUS` (10_state.md R26) and the four views of the tracks
(R36). -/

namespace Sys2Proof.Machine

theorem any_liveTracks_iff (s : State) (f : Track → Bool) :
    (liveTracks s).any f = true ↔ ∃ t : TrackIx, IsTrack s.params t ∧ f s.tracks[t] = true := by
  simp only [List.any_eq_true, mem_liveTracks]
  constructor
  · rintro ⟨_, ⟨u, hu, rfl⟩, h⟩
    exact ⟨u, hu, h⟩
  · rintro ⟨u, hu, h⟩
    exact ⟨_, ⟨u, hu, rfl⟩, h⟩

theorem wakeAny_iff (s : State) : wakeAny s = true ↔
    ∃ t : TrackIx, IsTrack s.params t ∧ s.tracks[t].active = true ∧ s.tracks[t].wake = true := by
  simp only [wakeAny, any_liveTracks_iff, Bool.and_eq_true]

theorem trackBound_iff (tr : Track) : trackBound tr = true ↔ tr.primary ≠ none ∨ tr.secondary ≠ none := by
  simp [trackBound, Option.isSome_iff_ne_none]

theorem updatePendingAny_iff (s : State) : updatePendingAny s = true ↔
    ∃ t : TrackIx, IsTrack s.params t ∧ s.tracks[t].update ≠ 0 ∧
      (s.tracks[t].primary ≠ none ∨ s.tracks[t].secondary ≠ none) := by
  simp only [updatePendingAny, any_liveTracks_iff, Bool.and_eq_true, bne_iff_ne, trackBound_iff]

/-- The bits of six bits joined, the last the lowest. -/
theorem joinedBits_getLsbD : ∀ a b c d e f : Bool,
    let w : BitVec 6 := BitVec.ofBool f ++ (BitVec.ofBool e ++ (BitVec.ofBool d ++ (BitVec.ofBool c ++
      (BitVec.ofBool b ++ BitVec.ofBool a))))
    w.getLsbD 0 = a ∧ w.getLsbD 1 = b ∧ w.getLsbD 2 = c ∧ w.getLsbD 3 = d ∧ w.getLsbD 4 = e ∧ w.getLsbD 5 = f := by
  decide

/-- The six bits of `STATUS`, from bit 0 up (R26). -/
theorem status_getLsbD (s : State) :
    (status s).getLsbD 0 = wakeAny s ∧ (status s).getLsbD 1 = ticksAny s ∧ (status s).getLsbD 2 = errAny s ∧
    (status s).getLsbD 3 = featureDirtyAny s ∧ (status s).getLsbD 4 = keyPendingAny s ∧
    (status s).getLsbD 5 = updatePendingAny s :=
  joinedBits_getLsbD _ _ _ _ _ _

/-- Settles O12: each bit is its summary, and each summary says what R26 says. -/
theorem statusBitsSummariseState : Obligations.StatusBitsSummariseState := by
  intro s
  obtain ⟨h0, h1, h2, h3, h4, h5⟩ := status_getLsbD s
  rw [h0, h1, h2, h3, h4, h5]
  refine ⟨wakeAny_iff s, bne_iff_ne, bne_iff_ne, bne_iff_ne, bne_iff_ne, updatePendingAny_iff s, fun n hn => ?high,
    fun n hn => ?low, rfl, rfl⟩
  case high =>
    rw [readReg, BitVec.getLsbD_setWidth, BitVec.getLsbD_of_ge _ _ hn, Bool.and_false]
  case low =>
    have h32 : n < 32 := by omega
    rw [readReg, BitVec.getLsbD_setWidth, decide_eq_true h32, Bool.true_and]

/-- Bit `i` of a packed list is its item `i` (R36). -/
theorem packBits_getLsbD (bs : List Bool) {i : Nat} (hi : i < 32) : (packBits bs).getLsbD i = bs.getD i false := by
  induction bs generalizing i with
  | nil => simp [packBits]
  | cons b bs ih =>
    cases i with
    | zero => simp [packBits]
    | succ i =>
      have hrest : (packBits bs).getLsbD i = bs.getD i false := ih (by omega)
      simpa [packBits, hi, BitVec.getLsbD_eq_getElem (show i < 32 by omega)] using hrest

/-- The item of a view of the tracks at the place of track `u`: 0 where there is no such track. -/
theorem liveTracks_map_getD (f : Track → Bool) (s : State) (u : TrackIx) :
    ((liveTracks s).map f).getD u.val false = (decide (u.val < s.params.numTracks.val) && f s.tracks[u]) := by
  by_cases h : u.val < s.params.numTracks.val <;> simp [liveTracks, List.getD_eq_getElem?_getD, h]

theorem trackBitsLo_getLsbD (f : Track → Bool) (s : State) (u : TrackIx) (hu : u.val < 32) :
    (trackBitsLo f s).getLsbD u.val = (decide (u.val < s.params.numTracks.val) && f s.tracks[u]) := by
  rw [trackBitsLo, packBits_getLsbD _ hu, ← liveTracks_map_getD]
  simp [List.getD_eq_getElem?_getD, hu]

theorem trackBitsHi_getLsbD (f : Track → Bool) (s : State) (u : TrackIx) {i : Nat} (hi : i < 32)
    (hu : u.val = 32 + i) :
    (trackBitsHi f s).getLsbD i = (decide (u.val < s.params.numTracks.val) && f s.tracks[u]) := by
  rw [trackBitsHi, packBits_getLsbD _ hi, ← liveTracks_map_getD, hu]
  simp [List.getD_eq_getElem?_getD]

/-- Settles O13: `T_ACTIVE` and `WAKE`, each seen through both views. -/
theorem trackSummariesViewTracks : Obligations.TrackSummariesViewTracks := by
  intro s i _ _ lo hi
  exact ⟨trackBitsLo_getLsbD Track.active s lo i.isLt, trackBitsHi_getLsbD Track.active s hi i.isLt rfl,
    trackBitsLo_getLsbD Track.wake s lo i.isLt, trackBitsHi_getLsbD Track.wake s hi i.isLt rfl⟩

end Sys2Proof.Machine
end

