-- ==== Sys2Proof/Proofs/PackedRegisters.lean ====
section
/-! SUPPORT. Where the packed track registers place their fields (10_state.md R39, R41, R48, R49). -/

namespace Sys2Proof.Machine

/-- Bits that are all 0 make a field that is 0. -/
theorem extractLsb'_eq_zero_of_getLsbD {n : Nat} {x : BitVec n} {a k : Nat}
    (h : ∀ i, i < k → x.getLsbD (a + i) = false) : x.extractLsb' a k = 0 := by
  ext i hi
  simpa using h i hi

/-- Above its width a value has no bit. -/
theorem Fits.getLsbD_of_ge {n w : Nat} {x : BitVec n} (h : Fits w x) {i : Nat} (hi : w ≤ i) : x.getLsbD i = false := by
  rw [← BitVec.testBit_toNat]
  exact Nat.testBit_lt_two_pow (Nat.lt_of_lt_of_le h (Nat.pow_le_pow_right (by decide) hi))

/-! `TRACK_CTRL` (R39) and `BIND` (R41). -/

theorem trackCtrlWord_fields (tr : Track) :
    (trackCtrlWord tr).getLsbD 0 = tr.active ∧ (trackCtrlWord tr).getLsbD 1 = tr.wake ∧
    (trackCtrlWord tr).extractLsb' 2 30 = 0 := by
  unfold trackCtrlWord
  cases tr.active <;> cases tr.wake <;> decide

theorem primaryByte_fields (v : Option Voice) :
    (primaryByte v).extractLsb' 0 5 = v.getD 0 ∧ (primaryByte v).extractLsb' 5 2 = 0 ∧
    (primaryByte v).getLsbD 7 = v.isSome := by
  cases v with
  | none => decide
  | some v =>
    revert v
    decide

theorem secondaryByte_fields (b : Option Secondary) :
    (secondaryByte b).extractLsb' 0 5 = (b.map Secondary.voice).getD 0 ∧ (secondaryByte b).getLsbD 5 = false ∧
    (secondaryByte b).getLsbD 6 = decide (b.map Secondary.kind = some .alternate) ∧
    (secondaryByte b).getLsbD 7 = b.isSome := by
  cases b with
  | none => decide
  | some b =>
    obtain ⟨v, k⟩ := b
    revert v
    cases k <;> decide

/-- The low half of `BIND` is the primary's byte and then the secondary's; the high half is 0. -/
theorem bindWord_getLsbD (tr : Track) {i : Nat} (hi : i < 32) : (bindWord tr).getLsbD i =
    if i < 8 then (primaryByte tr.primary).getLsbD i else (secondaryByte tr.secondary).getLsbD (i - 8) := by
  simp only [bindWord, BitVec.getLsbD_setWidth, BitVec.getLsbD_append, hi, decide_true, Bool.true_and]

theorem bindWord_extractLsb'_low (tr : Track) {a k : Nat} (h : a + k ≤ 8) :
    (bindWord tr).extractLsb' a k = (primaryByte tr.primary).extractLsb' a k := by
  rw [bindWord, BitVec.extractLsb'_setWidth_of_le (by omega), BitVec.extractLsb'_append_eq_of_add_le h]

theorem bindWord_extractLsb'_high (tr : Track) {a k : Nat} (h : a + k ≤ 8) :
    (bindWord tr).extractLsb' (8 + a) k = (secondaryByte tr.secondary).extractLsb' a k := by
  rw [bindWord, BitVec.extractLsb'_setWidth_of_le (by omega), BitVec.extractLsb'_append_eq_of_le (by omega),
    Nat.add_sub_cancel_left]

theorem bindWord_fields (tr : Track) :
    (bindWord tr).extractLsb' 0 5 = tr.primary.getD 0 ∧ (bindWord tr).extractLsb' 5 2 = 0 ∧
    (bindWord tr).getLsbD 7 = tr.primary.isSome ∧
    (bindWord tr).extractLsb' 8 5 = (tr.secondary.map Secondary.voice).getD 0 ∧ (bindWord tr).getLsbD 13 = false ∧
    (bindWord tr).getLsbD 14 = decide (tr.secondary.map Secondary.kind = some .alternate) ∧
    (bindWord tr).getLsbD 15 = tr.secondary.isSome ∧ (bindWord tr).extractLsb' 16 16 = 0 := by
  obtain ⟨hpv, hp0, hpb⟩ := primaryByte_fields tr.primary
  obtain ⟨hsv, hs0, hsk, hsb⟩ := secondaryByte_fields tr.secondary
  refine ⟨(bindWord_extractLsb'_low tr (by decide)).trans hpv, (bindWord_extractLsb'_low tr (by decide)).trans hp0,
    (bindWord_getLsbD tr (by decide)).trans hpb, (bindWord_extractLsb'_high tr (a := 0) (by decide)).trans hsv,
    (bindWord_getLsbD tr (by decide)).trans hs0, (bindWord_getLsbD tr (by decide)).trans hsk,
    (bindWord_getLsbD tr (by decide)).trans hsb, extractLsb'_eq_zero_of_getLsbD fun i hi => ?high⟩
  case high =>
    rw [bindWord_getLsbD tr (by omega), if_neg (by omega), BitVec.getLsbD_of_ge _ _ (by omega)]

/-! `ADSR_MODES` (R48) and `ADSR_RATES` (R49). -/

theorem adsrModesWord_fields (a : Adsr) :
    (adsrModesWord a).extractLsb' 0 2 = a.attackMode ∧ (adsrModesWord a).extractLsb' 2 2 = a.decayMode ∧
    (adsrModesWord a).extractLsb' 4 2 = a.releaseMode ∧ (adsrModesWord a).extractLsb' 6 26 = 0 := by
  unfold adsrModesWord
  generalize a.attackMode = x, a.decayMode = y, a.releaseMode = z
  revert x y z
  decide

/-- The bits of `ADSR_RATES`: eight for each rate. -/
theorem adsrRatesWord_getLsbD (a : Adsr) (i : Nat) : (adsrRatesWord a).getLsbD i =
    if i < 8 then a.attackRate.getLsbD i else if i < 16 then a.decayRate.getLsbD (i - 8)
    else if i < 24 then a.sustainRate.getLsbD (i - 16) else a.releaseRate.getLsbD (i - 24) := by
  simp only [adsrRatesWord, BitVec.getLsbD_append]
  grind

theorem adsrRatesWord_fields (a : Adsr) :
    (adsrRatesWord a).extractLsb' 0 8 = a.attackRate ∧ (adsrRatesWord a).extractLsb' 8 8 = a.decayRate ∧
    (adsrRatesWord a).extractLsb' 16 8 = a.sustainRate ∧ (adsrRatesWord a).extractLsb' 24 8 = a.releaseRate := by
  unfold adsrRatesWord
  refine ⟨?attack, ?decay, ?sustain, ?release⟩
  case attack =>
    rw [BitVec.extractLsb'_append_eq_of_add_le (by decide), BitVec.extractLsb'_append_eq_of_add_le (by decide),
      BitVec.extractLsb'_append_eq_right]
  case decay =>
    rw [BitVec.extractLsb'_append_eq_of_add_le (by decide), BitVec.extractLsb'_append_eq_of_add_le (by decide),
      BitVec.extractLsb'_append_eq_left]
  case sustain =>
    rw [BitVec.extractLsb'_append_eq_of_add_le (by decide), BitVec.extractLsb'_append_eq_left]
  case release => rw [BitVec.extractLsb'_append_eq_left]

/-- Between a rate within its width and the next rate the bits of `ADSR_RATES` are 0 (R49). -/
theorem adsrRatesWord_getLsbD_gap {p : Config.Params} {a : Adsr} {n : Nat} (h : AdsrFits p a)
    (hn : p.arW.val ≤ n ∧ n < 8 ∨ 8 + p.drW.val ≤ n ∧ n < 16 ∨ 16 + p.srW.val ≤ n ∧ n < 24 ∨ 24 + p.rrW.val ≤ n) :
    (adsrRatesWord a).getLsbD n = false := by
  obtain ⟨-, -, -, har, hdr, hsr, hrr, -⟩ := h
  rw [adsrRatesWord_getLsbD]
  split_ifs with h8 h16 h24
  · exact har.getLsbD_of_ge (by omega)
  · exact hdr.getLsbD_of_ge (by omega)
  · exact hsr.getLsbD_of_ge (by omega)
  · exact hrr.getLsbD_of_ge (by omega)

/-- A field of eight bits that holds a value of `w` bits holds it in its low `w` bits. -/
theorem extractLsb'_toNat_of_fits {x : Word} {y : BitVec 8} {a w : Nat} (hx : x.extractLsb' a 8 = y) (hw : w ≤ 8)
    (hy : Fits w y) : (x.extractLsb' a w).toNat = y.toNat := by
  rw [← BitVec.setWidth_extractLsb'_of_le hw, hx, BitVec.toNat_setWidth, Nat.mod_eq_of_lt hy]

/-- With R7's widths the rates stand at R49's bits, the bits between them 0. -/
theorem adsrRatesWord_default {a : Adsr} (h : AdsrFits Config.defaultParams a) :
    ((adsrRatesWord a).extractLsb' 0 7).toNat = a.attackRate.toNat ∧
    ((adsrRatesWord a).extractLsb' 8 4).toNat = a.decayRate.toNat ∧
    ((adsrRatesWord a).extractLsb' 16 7).toNat = a.sustainRate.toNat ∧
    ((adsrRatesWord a).extractLsb' 24 5).toNat = a.releaseRate.toNat ∧
    (adsrRatesWord a).getLsbD 7 = false ∧ (adsrRatesWord a).extractLsb' 12 4 = 0 ∧
    (adsrRatesWord a).getLsbD 23 = false ∧ (adsrRatesWord a).extractLsb' 29 3 = 0 := by
  obtain ⟨hka, hkd, hks, hkr⟩ := adsrRatesWord_fields a
  have gap {n : Nat} (hn : n = 7 ∨ 12 ≤ n ∧ n < 16 ∨ n = 23 ∨ 29 ≤ n) : (adsrRatesWord a).getLsbD n = false := by
    refine adsrRatesWord_getLsbD_gap h ?_
    have widths : Config.defaultParams.arW.val = 7 ∧ Config.defaultParams.drW.val = 4 ∧
      Config.defaultParams.srW.val = 7 ∧ Config.defaultParams.rrW.val = 5 := by decide
    omega
  obtain ⟨-, -, -, har, hdr, hsr, hrr, -⟩ := h
  exact ⟨extractLsb'_toNat_of_fits hka (by decide) har, extractLsb'_toNat_of_fits hkd (by decide) hdr,
    extractLsb'_toNat_of_fits hks (by decide) hsr, extractLsb'_toNat_of_fits hkr (by decide) hrr, gap (by decide),
    extractLsb'_eq_zero_of_getLsbD fun i hi => gap (by omega), gap (by decide),
    extractLsb'_eq_zero_of_getLsbD fun i hi => gap (by omega)⟩

/-- Settles O14: the layouts of the four registers, the last for any widths and for R7's. -/
theorem packedRegisterLayouts : Obligations.PackedRegisterLayouts :=
  ⟨fun tr => ⟨trackCtrlWord_fields tr, bindWord_fields tr, adsrModesWord_fields tr.adsr, adsrRatesWord_fields tr.adsr⟩,
    fun _ _ _ h hn => adsrRatesWord_getLsbD_gap h hn, fun _ h => adsrRatesWord_default h⟩

end Sys2Proof.Machine
end

