-- ==== Sys2Proof/Proofs/RegRead.lean ====
section
/-! SUPPORT. REG_READ (45_system.md R261) by the kind of register its number names: one lemma for each outcome, and the
register of each number of the map of 10_state.md R23. -/

namespace Sys2Proof.Machine

/-! What REG_READ answers. -/

section
variable {idx : BitVec 8} {n : BitVec 16} {s : State} {r : Reg}

theorem exec_regRead_unmapped (h : regOfNumber n.toNat = none) :
    exec (.regRead idx n) s = .next (raised .badReg 0x0C { s with result := 0 }) := by
  rw [← raise_eq]
  simp only [exec, execRegRead, h]
  rfl

theorem exec_regRead_player (h : regOfNumber n.toNat = some r) (hr : regIndex r = .none) :
    exec (.regRead idx n) s = .next { s with result := readReg r 0 0 s } := by
  simp only [exec, execRegRead, h, hr, latch]

theorem exec_regRead_track {k : TrackIx} (h : regOfNumber n.toNat = some r) (hr : regIndex r = .track)
    (hk : NamesTrack s.params idx k) : exec (.regRead idx n) s = .next { s with result := readReg r k 0 s } := by
  simp only [exec, execRegRead, h, hr, withTrack, latch, trackOperand_of_names hk]

theorem exec_regRead_no_track (h : regOfNumber n.toNat = some r) (hr : regIndex r = .track)
    (hk : s.params.numTracks.val ≤ idx.toNat) :
    exec (.regRead idx n) s = .next (raised .indexRange 0x0C { s with result := 0 }) := by
  rw [← raise_eq]
  simp only [exec, execRegRead, h, hr, withTrack, latch, trackOperand_of_ge hk]
  rfl

theorem exec_regRead_entry (h : regOfNumber n.toNat = some r) (hr : regIndex r = .entry)
    (he : idx.toNat < s.params.numInstr.val) :
    exec (.regRead idx n) s = .next { s with result := readReg r 0 idx.toNat s } := by
  simp only [exec, execRegRead, h, hr, latch, entryOperand_of_lt he]

/-- An entry operand from `NUM_INSTR` on names no entry. -/
theorem entryOperand_of_ge {p : Config.Params} (h : p.numInstr.val ≤ idx.toNat) : entryOperand p idx = none := by
  simp [entryOperand, Nat.not_lt.mpr h]

theorem exec_regRead_no_entry (h : regOfNumber n.toNat = some r) (hr : regIndex r = .entry)
    (he : s.params.numInstr.val ≤ idx.toNat) :
    exec (.regRead idx n) s = .next (raised .indexRange 0x0C { s with result := 0 }) := by
  rw [← raise_eq]
  simp only [exec, execRegRead, h, hr, entryOperand_of_ge he]
  rfl

end

/-! The map by numbers (R23, R53). -/

theorem slideOfNumber_eq_none_iff (k : Nat) : slideOfNumber k = none ↔ 9 ≤ k := by
  unfold slideOfNumber
  split
  case h_10 => grind
  all_goals simp

theorem slideReg_eq_none_iff (k j : Nat) : slideReg k j = none ↔ 9 ≤ k ∨ 3 ≤ j := by
  rw [← slideOfNumber_eq_none_iff]
  unfold slideReg
  cases slideOfNumber k with
  | none => simp
  | some kind =>
    match j with
    | 0 | 1 | 2 => simp
    | j + 3 => simp

theorem plainReg_eq_none_iff (n : Nat) : plainReg n = none ↔
    6 ≤ n ∧ n ≤ 0x00F ∨ 0x019 ≤ n ∧ n ≤ 0x01F ∨ 0x024 ≤ n ∧ n ≤ 0x1FF ∨ 0x20C ≤ n := by
  unfold plainReg
  split
  case h_32 => grind
  all_goals simp

/-- The unmapped numbers are those that name no register (R53). -/
theorem regOfNumber_eq_none_iff (n : Nat) : regOfNumber n = none ↔ unmappedNumber n = true := by
  simp only [unmappedNumber, Bool.or_eq_true, Bool.and_eq_true, decide_eq_true_eq]
  unfold regOfNumber
  split_ifs with hslide hinstr
  · rw [slideReg_eq_none_iff]
    omega
  · simp
    omega
  · rw [plainReg_eq_none_iff]
    omega

/-- Settles O15: the list of R53 is the complement of the map, and such a read is a BAD_REG raise. -/
theorem unmappedNumbersRaiseBadReg : Obligations.UnmappedNumbersRaiseBadReg := fun _ n _ =>
  ⟨(regOfNumber_eq_none_iff n.toNat).symm, fun h => exec_regRead_unmapped ((regOfNumber_eq_none_iff n.toNat).mpr h)⟩

/-! The registers of the map, each with what it reads as (R23). -/

/-- The number `p.1` names a register without index, which reads as `p.2`. -/
def ReadsPlayer (s : State) (p : BitVec 16 × Word) : Prop :=
  ∃ r, regOfNumber p.1.toNat = some r ∧ regIndex r = .none ∧ readReg r 0 0 s = p.2

/-- The number `p.1` names a register indexed by track, which reads as `p.2` for a track `tr`. -/
def ReadsTrack (tr : Track) (p : BitVec 16 × Word) : Prop :=
  ∃ r, regOfNumber p.1.toNat = some r ∧ regIndex r = .track ∧
    ∀ (s : State) (k : TrackIx), s.tracks[k] = tr → readReg r k 0 s = p.2

/-- Joining two fields adds the low one to the high one moved up. -/
theorem toNat_append_eq_add {n m : Nat} (x : BitVec n) (y : BitVec m) :
    (x ++ y).toNat = x.toNat * 2 ^ m + y.toNat := by
  rw [BitVec.toNat_append, ← Nat.shiftLeft_add_eq_or_of_lt y.isLt, Nat.shiftLeft_eq]

/-- `ID` as the sum of its fields at their places (R25). -/
theorem idWord_eq_sum (p : Config.Params) : idWord p =
    BitVec.ofNat 32 (0x01000000 + 0x10000 * p.fracBits.val + 0x100 * p.numTracks.val + p.numVoices.val) := by
  have hf : p.fracBits.val < 33 := p.fracBits.isLt
  have ht : p.numTracks.val < 65 := p.numTracks.isLt
  have hv : p.numVoices.val < 33 := p.numVoices.isLt
  apply BitVec.eq_of_toNat_eq
  simp only [idWord, Config.specRevision, toNat_append_eq_add, BitVec.toNat_ofNat]
  omega

/-- The numbers of the three registers of a slide kind (R38). -/
theorem regOfNumber_slide (k : SlideKind) :
    regOfNumber (0x100 + 0x10 * slideNumber k) = some (.slideValue k) ∧
    regOfNumber (0x100 + 0x10 * slideNumber k + 1) = some (.slideSlope k) ∧
    regOfNumber (0x100 + 0x10 * slideNumber k + 2) = some (.slideRemaining k) := by
  cases k <;> decide

theorem readsPlayer_of_mem (s : State) : ∀ p ∈ playerRegisters s, ReadsPlayer s p := by
  obtain ⟨htv, hts, htr⟩ := regOfNumber_slide .tempo
  obtain ⟨hrv, hrs, hrr⟩ := regOfNumber_slide .reverbDepth
  simp only [playerRegisters, List.forall_mem_cons, List.not_mem_nil, IsEmpty.forall_iff, implies_true, and_true]
  exact ⟨⟨.id, rfl, rfl, idWord_eq_sum _⟩, ⟨.status, rfl, rfl, rfl⟩, ⟨.error, rfl, rfl, rfl⟩,
    ⟨.timeCounter, rfl, rfl, rfl⟩, ⟨.ticksPending, rfl, rfl, rfl⟩, ⟨.reverbType, rfl, rfl, rfl⟩,
    ⟨.activeVoices, rfl, rfl, rfl⟩, ⟨.keyOnVoices, rfl, rfl, rfl⟩, ⟨.keyedVoices, rfl, rfl, rfl⟩,
    ⟨.keyOffVoices, rfl, rfl, rfl⟩, ⟨.savedActiveVoices, rfl, rfl, rfl⟩, ⟨.noiseVoices, rfl, rfl, rfl⟩,
    ⟨.reverbVoices, rfl, rfl, rfl⟩, ⟨.pitchLfoVoices, rfl, rfl, rfl⟩, ⟨.featureDirty, rfl, rfl, rfl⟩,
    ⟨.trackActiveLo, rfl, rfl, rfl⟩, ⟨.trackActiveHi, rfl, rfl, rfl⟩, ⟨.wakeLo, rfl, rfl, rfl⟩,
    ⟨.wakeHi, rfl, rfl, rfl⟩, ⟨.slideValue .tempo, htv, rfl, rfl⟩, ⟨.slideSlope .tempo, hts, rfl, rfl⟩,
    ⟨.slideRemaining .tempo, htr, rfl, rfl⟩, ⟨.slideValue .reverbDepth, hrv, rfl, rfl⟩,
    ⟨.slideSlope .reverbDepth, hrs, rfl, rfl⟩, ⟨.slideRemaining .reverbDepth, hrr, rfl, rfl⟩⟩

/-- The three registers of a per-track slide kind `k` whose numbers begin at `n` (R38). -/
theorem readsTrack_of_mem_slideRegisters {tr : Track} {u : Slide} (n : BitVec 16) (k : SlideKind)
    (hindex : slideIsPerTrack k = true) (hn : n.toNat = 0x100 + 0x10 * slideNumber k)
    (hu : ∀ (s : State) (t : TrackIx), s.tracks[t] = tr → slideUnit k t s = u) :
    ∀ p ∈ slideRegisters n u, ReadsTrack tr p := by
  obtain ⟨hvalue, hslope, hremaining⟩ := regOfNumber_slide k
  have hk : slideNumber k ≤ 8 := by cases k <;> decide
  have h1 : (n + 1).toNat = 0x100 + 0x10 * slideNumber k + 1 := by
    rw [BitVec.toNat_add, hn]
    exact Nat.mod_eq_of_lt (by simp; omega)
  have h2 : (n + 2).toNat = 0x100 + 0x10 * slideNumber k + 2 := by
    rw [BitVec.toNat_add, hn]
    exact Nat.mod_eq_of_lt (by simp; omega)
  simp only [slideRegisters, List.forall_mem_cons, List.not_mem_nil, IsEmpty.forall_iff, implies_true, and_true]
  exact ⟨⟨.slideValue k, hn ▸ hvalue, if_pos hindex, fun s t ht => congrArg Slide.value (hu s t ht)⟩,
    ⟨.slideSlope k, h1 ▸ hslope, if_pos hindex, fun s t ht => congrArg Slide.slope (hu s t ht)⟩,
    ⟨.slideRemaining k, h2 ▸ hremaining, if_pos hindex,
      fun s t ht => congrArg (fun x => x.remaining.setWidth 32) (hu s t ht)⟩⟩

theorem readsTrack_of_mem (tr : Track) : ∀ p ∈ trackRegisters tr, ReadsTrack tr p := by
  simp only [trackRegisters, List.forall_mem_append]
  refine ⟨⟨⟨⟨⟨⟨⟨?volume, ?pan⟩, ?pitchBend⟩, ?vibratoDepth⟩, ?tremoloDepth⟩, ?panLfoDepth⟩, ?overlayBalance⟩, ?plain⟩
  case volume =>
    exact readsTrack_of_mem_slideRegisters 0x120 .volume rfl rfl fun _ _ ht => congrArg Track.volume ht
  case pan => exact readsTrack_of_mem_slideRegisters 0x130 .pan rfl rfl fun _ _ ht => congrArg Track.pan ht
  case pitchBend =>
    exact readsTrack_of_mem_slideRegisters 0x140 .pitchBend rfl rfl fun _ _ ht => congrArg Track.pitchBend ht
  case vibratoDepth =>
    exact readsTrack_of_mem_slideRegisters 0x150 .vibratoDepth rfl rfl fun _ _ ht =>
      congrArg Track.vibratoDepth ht
  case tremoloDepth =>
    exact readsTrack_of_mem_slideRegisters 0x160 .tremoloDepth rfl rfl fun _ _ ht =>
      congrArg Track.tremoloDepth ht
  case panLfoDepth =>
    exact readsTrack_of_mem_slideRegisters 0x170 .panLfoDepth rfl rfl fun _ _ ht =>
      congrArg Track.panLfoDepth ht
  case overlayBalance =>
    exact readsTrack_of_mem_slideRegisters 0x180 .overlayBalance rfl rfl fun _ _ ht =>
      congrArg Track.overlayBalance ht
  case plain =>
    simp only [List.forall_mem_cons, List.not_mem_nil, IsEmpty.forall_iff, implies_true, and_true]
    exact ⟨⟨.trackCtrl, rfl, rfl, fun _ _ ht => ht ▸ rfl⟩, ⟨.delta, rfl, rfl, fun _ _ ht => ht ▸ rfl⟩,
      ⟨.bind, rfl, rfl, fun _ _ ht => ht ▸ rfl⟩, ⟨.update, rfl, rfl, fun _ _ ht => ht ▸ rfl⟩,
      ⟨.instrId, rfl, rfl, fun _ _ ht => ht ▸ rfl⟩, ⟨.addr, rfl, rfl, fun _ _ ht => ht ▸ rfl⟩,
      ⟨.loopAddr, rfl, rfl, fun _ _ ht => ht ▸ rfl⟩, ⟨.pitch, rfl, rfl, fun _ _ ht => ht ▸ rfl⟩,
      ⟨.volumeLr, rfl, rfl, fun _ _ ht => ht ▸ rfl⟩, ⟨.adsrModes, rfl, rfl, fun _ _ ht => ht ▸ rfl⟩,
      ⟨.adsrRates, rfl, rfl, fun _ _ ht => ht ▸ rfl⟩, ⟨.sustainLevel, rfl, rfl, fun _ _ ht => ht ▸ rfl⟩⟩

/-- The numbers of the twelve fields of an entry (R51). -/
theorem regOfNumber_instrField {f : Nat} (hf : f ≤ 11) :
    regOfNumber (BitVec.ofNat 16 (0x300 + f)).toNat = some (.instrField f) := by
  have hn : (BitVec.ofNat 16 (0x300 + f)).toNat = 0x300 + f := by
    rw [BitVec.toNat_ofNat]
    omega
  rw [hn, regOfNumber, if_neg (by omega), if_pos (by omega), Nat.add_sub_cancel_left]

/-- Settles O16: each number of the list names the register with its value. -/
theorem regReadLatchesPlayerRegisters : Obligations.RegReadLatchesPlayerRegisters := by
  refine ⟨fun idx s p hp => ?latch, fun idx s hparams => ?id⟩
  case latch =>
    obtain ⟨r, hr, hindex, hvalue⟩ := readsPlayer_of_mem s p hp
    rw [exec_regRead_player hr hindex, hvalue]
  case id =>
    have hid : idWord s.params = 0x01103820 := by
      rw [hparams]
      decide
    rw [exec_regRead_player (r := .id) rfl rfl, readReg, hid]

/-- Settles O17: the track and the entry in range and out of range. -/
theorem regReadLatchesIndexedRegisters : Obligations.RegReadLatchesIndexedRegisters := by
  refine ⟨fun idx s k hk p hp => ?track, fun idx s tr hk p hp => ?noTrack, fun idx s f hf => ⟨fun he => ?entry,
    fun he => ?noEntry⟩⟩
  case track =>
    obtain ⟨r, hr, hindex, hvalue⟩ := readsTrack_of_mem _ p hp
    rw [exec_regRead_track hr hindex hk, hvalue s k rfl]
  case noTrack =>
    obtain ⟨r, hr, hindex, -⟩ := readsTrack_of_mem tr p hp
    exact exec_regRead_no_track hr hindex hk
  case entry => exact exec_regRead_entry (regOfNumber_instrField hf) rfl he
  case noEntry => exact exec_regRead_no_entry (regOfNumber_instrField hf) rfl he

end Sys2Proof.Machine
end

