-- ==== Sys2Proof/Proofs/Reads.lean ====
section
/-! SUPPORT. The two reads, REG_READ and VOICES_QUERY (20_memory.md R78): each either latches a value that neither
`RESULT` nor the ports enter, or raises for its operands and the parameters alone. -/

namespace Sys2Proof.Machine

/-- `s` with `l` held on the link and `ps` still to be taken. -/
def onPorts (l : List Byte) (ps : List PortInput) (s : State) : State := { s with link := l, input := ps }

/-- `i` latches `v` in `s`, whatever `RESULT` is and stands on the ports. -/
def ReadAnswers (i : Instr) (s : State) (v : Word) : Prop :=
  ∀ x l ps, exec i (onPorts l ps (latch x s)) = .next (onPorts l ps (latch v s))

/-- `i` raises `d` in every state with the parameters of `s`, `RESULT` cleared first (45_system.md R261, 43_voice.md
R202). -/
def ReadRefuses (i : Instr) (s : State) (d : Diag) : Prop :=
  ∀ t : State, t.params = s.params → exec i t = .next (raised d (opcodeOf i) (latch 0 t))

/-- No register is a view of `RESULT` or of the ports (10_state.md R23). -/
theorem readReg_onPorts_latch (r : Reg) (k : TrackIx) (e : Nat) (l : List Byte) (ps : List PortInput) (x : Word)
    (s : State) : readReg r k e (onPorts l ps (latch x s)) = readReg r k e s := by
  cases r <;> rfl

/-- A read of one register, in every state with the same parameters. -/
theorem readAnswers_of_latches {i : Instr} {s : State} {r : Reg} {k : TrackIx} {e : Nat}
    (h : ∀ t : State, t.params = s.params → exec i t = .next (latch (readReg r k e t) t)) :
    ReadAnswers i s (readReg r k e s) := by
  intro x l ps
  rw [h (onPorts l ps (latch x s)) rfl, readReg_onPorts_latch]
  rfl

theorem regRead_cases (idx : BitVec 8) (n : BitVec 16) (s : State) :
    (∃ v, ReadAnswers (.regRead idx n) s v) ∨ ∃ d, ReadRefuses (.regRead idx n) s d := by
  cases hr : regOfNumber n.toNat with
  | none => exact .inr ⟨.badReg, fun t _ => exec_regRead_unmapped hr⟩
  | some r =>
    cases hi : regIndex r with
    | none => exact .inl ⟨_, readAnswers_of_latches fun t _ => exec_regRead_player hr hi⟩
    | track =>
      by_cases h : idx.toNat < s.params.numTracks.val
      · obtain ⟨k, hk⟩ := names_of_lt h
        exact .inl ⟨_, readAnswers_of_latches fun t ht => exec_regRead_track hr hi (ht ▸ hk)⟩
      · exact .inr ⟨.indexRange, fun t ht => exec_regRead_no_track hr hi (ht ▸ Nat.not_lt.mp h)⟩
    | entry =>
      by_cases h : idx.toNat < s.params.numInstr.val
      · exact .inl ⟨_, readAnswers_of_latches fun t ht => exec_regRead_entry hr hi (ht ▸ h)⟩
      · exact .inr ⟨.indexRange, fun t ht => exec_regRead_no_entry hr hi (ht ▸ Nat.not_lt.mp h)⟩

/-- The selectors of 30_encoding.md R99 are 0 to 7, in every state. -/
theorem selectBitset_eq_none_iff (s : State) (sel : BitVec 8) : selectBitset s sel = none ↔ 8 ≤ sel.toNat := by
  unfold selectBitset
  split
  case h_9 => grind
  all_goals simp [*]

theorem selectBitset_onPorts_latch (sel : BitVec 8) (l : List Byte) (ps : List PortInput) (x : Word) (s : State) :
    selectBitset (onPorts l ps (latch x s)) sel = selectBitset s sel := rfl

theorem voicesQuery_cases (sel : BitVec 8) (m : Word) (s : State) :
    (∃ v, ReadAnswers (.voicesQuery sel m) s v) ∨ ∃ d, ReadRefuses (.voicesQuery sel m) s d := by
  cases hb : selectBitset s sel with
  | none =>
    refine .inr ⟨.indexRange, fun t _ => ?_⟩
    have ht : selectBitset t sel = none := (selectBitset_eq_none_iff t sel).mpr ((selectBitset_eq_none_iff s sel).mp hb)
    rw [← raise_eq, exec, execVoicesQuery, ht]
    rfl
  | some b =>
    refine .inl ⟨b &&& m, fun x l ps => ?_⟩
    rw [exec, execVoicesQuery, selectBitset_onPorts_latch, hb]
    rfl

/-- Raising the same diagnostic again appends its event again and changes nothing else. -/
theorem raised_raised (d : Diag) (op : BitVec 8) (s : State) :
    raised d op (raised d op s) = { raised d op s with out := (raised d op (raised d op s)).out } := by
  simp [raised, BitVec.or_assoc]

/-- Settles O18: an answer is latched again, and a raise is raised again, its `ERROR` bit set already. -/
theorem readsAreIdempotent : Obligations.ReadsAreIdempotent := by
  intro i s hi
  have hcases : (∃ v, ReadAnswers i s v) ∨ ∃ d, ReadRefuses i s d := by
    rcases hi with ⟨idx, n, rfl⟩ | ⟨sel, m, rfl⟩
    · exact regRead_cases idx n s
    · exact voicesQuery_cases sel m s
  rcases hcases with ⟨v, hv⟩ | ⟨d, hd⟩
  · exact ⟨latch v s, latch v s, hv s.result s.link s.input, hv v s.link s.input, rfl, rfl⟩
  · have hfirst : exec i s = .next (raised d (opcodeOf i) (latch 0 s)) := hd s rfl
    have hagain : exec i (raised d (opcodeOf i) (latch 0 s)) =
        .next (raised d (opcodeOf i) (raised d (opcodeOf i) (latch 0 s))) := hd _ rfl
    exact ⟨_, _, hfirst, hagain, rfl, raised_raised d (opcodeOf i) (latch 0 s)⟩

end Sys2Proof.Machine
end

