-- ==== Sys2Proof/Proofs/Ports.lean ====
section
/-! SUPPORT. No command reads or writes what stands on the block's inputs: `exec_ignoresPorts` gives, for every command,
one next state that is the answer whatever the link holds and the host has still to send (60_exceptions.md R280). -/

namespace Sys2Proof.Machine

/-- `act` goes on from `s` whatever stands on the ports, to one next state on those same ports. -/
def IgnoresPorts (s : State) (act : State → StepResult) : Prop :=
  ∃ t, ∀ l ps, act (onPorts l ps s) = .next (onPorts l ps t)

variable {s : State} {op idx : BitVec 8}

/-- An action that agrees with `b` on `s`, whatever stands on the ports. -/
theorem IgnoresPorts.congr {a b : State → StepResult} (hb : IgnoresPorts s b)
    (h : ∀ l ps, a (onPorts l ps s) = b (onPorts l ps s)) : IgnoresPorts s a := by
  obtain ⟨t, ht⟩ := hb
  exact ⟨t, fun l ps => (h l ps).trans (ht l ps)⟩

/-! The shared operations leave the ports alone. -/

theorem release_onPorts (l : List Byte) (ps : List PortInput) (v : Voice) (s : State) :
    release v (onPorts l ps s) = onPorts l ps (release v s) := by
  by_cases h : hasVoice s.keyedVoices v <;> simp [release, onPorts, h]

theorem releaseBound_onPorts (l : List Byte) (ps : List PortInput) (v : Option Voice) (s : State) :
    releaseBound v (onPorts l ps s) = onPorts l ps (releaseBound v s) := by
  cases v with
  | none => rfl
  | some v => exact release_onPorts l ps v s

theorem finish_onPorts (l : List Byte) (ps : List PortInput) (k : TrackIx) (s : State) :
    finish k (onPorts l ps s) = onPorts l ps (finish k s) := by
  have htracks : (onPorts l ps s).tracks = s.tracks := rfl
  rw [finish, htracks, releaseBound_onPorts, releaseBound_onPorts]
  rfl

theorem modifySlide_onPorts (l : List Byte) (ps : List PortInput) (k : SlideKind) (t : TrackIx) (f : Slide → Slide)
    (s : State) : modifySlide k t f (onPorts l ps s) = onPorts l ps (modifySlide k t f s) := by
  cases k <;> rfl

theorem addTicks_onPorts (l : List Byte) (ps : List PortInput) (op : BitVec 8) (n : Nat) (s : State) :
    addTicks op n (onPorts l ps s) = onPorts l ps (addTicks op n s) := by
  by_cases h : 2 ^ s.params.tpWidth.val - 1 < s.ticksPending.toNat + n <;> simp [addTicks, onPorts, note, emit, h]

/-! One rule per shape of a command. -/

/-- An answer `g s`, where `g` neither reads nor writes the ports. -/
theorem next_ignoresPorts {g : State → State} (h : ∀ l ps, g (onPorts l ps s) = onPorts l ps (g s)) :
    IgnoresPorts s fun s => .next (g s) :=
  ⟨g s, fun l ps => congrArg _ (h l ps)⟩

theorem raise_ignoresPorts (d : Diag) (op : BitVec 8) : IgnoresPorts s (raise d op) :=
  next_ignoresPorts fun _ _ => rfl

theorem ite_ignoresPorts {c : State → Prop} [∀ s, Decidable (c s)] {a b : State → StepResult}
    (hc : ∀ l ps, c (onPorts l ps s) ↔ c s) (ha : IgnoresPorts s a) (hb : IgnoresPorts s b) :
    IgnoresPorts s fun s => if c s then a s else b s := by
  by_cases h : c s
  · obtain ⟨t, ht⟩ := ha
    exact ⟨t, fun l ps => (if_pos ((hc l ps).mpr h)).trans (ht l ps)⟩
  · obtain ⟨t, ht⟩ := hb
    exact ⟨t, fun l ps => (if_neg (mt (hc l ps).mp h)).trans (ht l ps)⟩

theorem withTrack_ignoresPorts {act : State → TrackIx → StepResult} (h : ∀ k, IgnoresPorts s fun s => act s k) :
    IgnoresPorts s fun s => withTrack op idx s (act s) := by
  cases hk : trackOperand s.params idx with
  | none => exact (raise_ignoresPorts .indexRange op).congr fun l ps => by simp only [withTrack, onPorts, hk]
  | some k => exact (h k).congr fun l ps => by simp only [withTrack, onPorts, hk]

theorem withVoice_ignoresPorts {act : State → Voice → StepResult} (h : ∀ v, IgnoresPorts s fun s => act s v) :
    IgnoresPorts s fun s => withVoice op idx s (act s) := by
  cases hv : voiceOperand s.params idx with
  | none => exact (raise_ignoresPorts .indexRange op).congr fun l ps => by simp only [withVoice, onPorts, hv]
  | some v => exact (h v).congr fun l ps => by simp only [withVoice, onPorts, hv]

theorem withTrackVoice_ignoresPorts {imm : BitVec 16} {act : State → TrackIx → Voice → StepResult}
    (h : ∀ k v, IgnoresPorts s fun s => act s k v) :
    IgnoresPorts s fun s => withTrackVoice op idx imm s (act s) := by
  cases hk : trackOperand s.params idx with
  | none => exact (raise_ignoresPorts .indexRange op).congr fun l ps => by simp only [withTrackVoice, onPorts, hk]
  | some k =>
    cases hv : immVoiceOperand s.params imm with
    | none => exact (raise_ignoresPorts .indexRange op).congr fun l ps => by simp only [withTrackVoice, onPorts, hk, hv]
    | some v => exact (h k v).congr fun l ps => by simp only [withTrackVoice, onPorts, hk, hv]

theorem onTrack_ignoresPorts {f : State → Track → Track} (hf : ∀ l ps, f (onPorts l ps s) = f s) :
    IgnoresPorts s fun s => onTrack op idx (f s) s :=
  withTrack_ignoresPorts fun k => next_ignoresPorts fun l ps => by
    rw [hf]
    rfl

theorem onSlide_ignoresPorts {k : SlideKind} {f : State → Slide → Slide} (hf : ∀ l ps, f (onPorts l ps s) = f s) :
    IgnoresPorts s fun s => onSlide k op idx (f s) s := by
  have hnext (t : TrackIx) : IgnoresPorts s fun s => .next (modifySlide k t (f s) s) :=
    next_ignoresPorts fun l ps => by rw [hf, modifySlide_onPorts]
  exact ite_ignoresPorts (fun _ _ => .rfl) (withTrack_ignoresPorts hnext) (hnext 0)

/-! The commands with a shape of their own. -/

/-- REG_READ and VOICES_QUERY, by what a read can do. -/
theorem read_ignoresPorts {i : Instr} (h : (∃ v, ReadAnswers i s v) ∨ ∃ d, ReadRefuses i s d) :
    IgnoresPorts s (exec i) := by
  rcases h with ⟨v, hv⟩ | ⟨d, hd⟩
  · exact ⟨latch v s, fun l ps => hv s.result l ps⟩
  · exact ⟨raised d (opcodeOf i) (latch 0 s), fun l ps => hd (onPorts l ps s) rfl⟩

theorem execBlock_ignoresPorts : IgnoresPorts s execBlock :=
  next_ignoresPorts fun l ps => congrArg stepTempo (addTicks_onPorts l ps _ _ (advanceTime s))

theorem execTick_ignoresPorts : IgnoresPorts s execTick :=
  ite_ignoresPorts (fun _ _ => .rfl) (raise_ignoresPorts .noTick _) (next_ignoresPorts fun _ _ => rfl)

theorem execKeyOn_ignoresPorts : IgnoresPorts s (execKeyOn idx) :=
  withVoice_ignoresPorts fun _ => ite_ignoresPorts (fun _ _ => .rfl) (next_ignoresPorts fun _ _ => rfl)
    (next_ignoresPorts fun _ _ => rfl)

theorem execKeyOff_ignoresPorts : IgnoresPorts s (execKeyOff idx) :=
  withVoice_ignoresPorts fun v => ite_ignoresPorts (fun _ _ => .rfl)
    (next_ignoresPorts fun l ps => release_onPorts l ps v (note .keyoffNotKeyed _ s))
    (next_ignoresPorts fun l ps => release_onPorts l ps v s)

theorem execVoiceBind_ignoresPorts (imm : BitVec 16) : IgnoresPorts s (execVoiceBind idx imm) :=
  withTrackVoice_ignoresPorts fun _ _ => ite_ignoresPorts (fun _ _ => .rfl) (raise_ignoresPorts .bindConflict _)
    (next_ignoresPorts fun _ _ => rfl)

theorem execInstrWrite_ignoresPorts (f : BitVec 16) (v : Word) : IgnoresPorts s (execInstrWrite idx f v) := by
  have hwrite (e : Nat) : IgnoresPorts s fun s =>
      .next { s with instrTable := memWrite s.params s.instrTable e f.toNat v } := next_ignoresPorts fun _ _ => rfl
  have hraise (d : Diag) : IgnoresPorts s (raise d (opcodeOf (.instrWrite idx f v))) := raise_ignoresPorts d _
  refine ite_ignoresPorts (fun _ _ => .rfl) (hraise .badReg) ?_
  cases he : entryOperand s.params idx with
  | none => exact (hraise .indexRange).congr fun l ps => by simp only [onPorts, he]
  | some e => exact (hwrite e).congr fun l ps => by simp only [onPorts, he]

theorem execLoadInstr_ignoresPorts (imm : BitVec 16) : IgnoresPorts s (execLoadInstr idx imm) := by
  have hraise : IgnoresPorts s (raise .instrInvalid (opcodeOf (.loadInstr idx imm))) := raise_ignoresPorts _ _
  have hload (k : TrackIx) (e : Nat) : IgnoresPorts s fun s =>
      if entryValid s.instrTable e then .next (modifyTrack k (loadEntry s.params s.instrTable e imm) s)
      else raise .instrInvalid (opcodeOf (.loadInstr idx imm)) s :=
    ite_ignoresPorts (fun _ _ => .rfl) (next_ignoresPorts fun _ _ => rfl) hraise
  refine withTrack_ignoresPorts fun k => ?_
  cases he : instrOperand s.params imm with
  | none => exact hraise.congr fun l ps => by simp only [onPorts, he]
  | some e => exact (hload k e).congr fun l ps => by simp only [onPorts, he]

theorem slideValueInstr_ignoresPorts (k : SlideKind) (idx : BitVec 8) (v : Word) :
    IgnoresPorts s (exec (slideValueInstr k idx v)) :=
  (onSlide_ignoresPorts (f := fun s => slideSetValue s.params k v) fun _ _ => rfl).congr fun l ps =>
    exec_slideValueInstr k idx v (onPorts l ps s)

theorem slideStartInstr_ignoresPorts (k : SlideKind) (idx : BitVec 8) (n : BitVec 16) (v : Word) :
    IgnoresPorts s (exec (slideStartInstr k idx n v)) :=
  (onSlide_ignoresPorts (f := fun s => slideSetSlope s.params n v) fun _ _ => rfl).congr fun l ps =>
    exec_slideStartInstr k idx n v (onPorts l ps s)

/-- Every command goes on, whatever stands on the ports, to the same state (60_exceptions.md R280). -/
theorem exec_ignoresPorts (i : Instr) (s : State) : IgnoresPorts s (exec i) := by
  cases i with
  | nop | timeSet | reverbTypeSet | statusClear | songInit | resolve | saveActive =>
    exact next_ignoresPorts fun _ _ => rfl
  | block => exact execBlock_ignoresPorts
  | tick => exact execTick_ignoresPorts
  | trackFinish => exact withTrack_ignoresPorts fun k => next_ignoresPorts fun l ps => finish_onPorts l ps k s
  | deviceFault =>
    exact withTrack_ignoresPorts fun k => next_ignoresPorts fun l ps => finish_onPorts l ps k (note .deviceFault _ s)
  | regRead idx n => exact read_ignoresPorts (regRead_cases idx n s)
  | slideValueTempo v => exact slideValueInstr_ignoresPorts .tempo 0 v
  | slideValueReverbDepth v => exact slideValueInstr_ignoresPorts .reverbDepth 0 v
  | slideValueVolume idx v => exact slideValueInstr_ignoresPorts .volume idx v
  | slideValuePan idx v => exact slideValueInstr_ignoresPorts .pan idx v
  | slideValuePitchBend idx v => exact slideValueInstr_ignoresPorts .pitchBend idx v
  | slideValueVibratoDepth idx v => exact slideValueInstr_ignoresPorts .vibratoDepth idx v
  | slideValueTremoloDepth idx v => exact slideValueInstr_ignoresPorts .tremoloDepth idx v
  | slideValuePanLfoDepth idx v => exact slideValueInstr_ignoresPorts .panLfoDepth idx v
  | slideValueOverlayBalance idx v => exact slideValueInstr_ignoresPorts .overlayBalance idx v
  | slideStartTempo n v => exact slideStartInstr_ignoresPorts .tempo 0 n v
  | slideStartReverbDepth n v => exact slideStartInstr_ignoresPorts .reverbDepth 0 n v
  | slideStartVolume idx n v => exact slideStartInstr_ignoresPorts .volume idx n v
  | slideStartPan idx n v => exact slideStartInstr_ignoresPorts .pan idx n v
  | slideStartPitchBend idx n v => exact slideStartInstr_ignoresPorts .pitchBend idx n v
  | slideStartVibratoDepth idx n v => exact slideStartInstr_ignoresPorts .vibratoDepth idx n v
  | slideStartTremoloDepth idx n v => exact slideStartInstr_ignoresPorts .tremoloDepth idx n v
  | slideStartPanLfoDepth idx n v => exact slideStartInstr_ignoresPorts .panLfoDepth idx n v
  | slideStartOverlayBalance idx n v => exact slideStartInstr_ignoresPorts .overlayBalance idx n v
  | keyOn => exact execKeyOn_ignoresPorts
  | keyOff => exact execKeyOff_ignoresPorts
  | noiseOn | noiseOff | reverbOn | reverbOff | plfoOn | plfoOff =>
    exact withVoice_ignoresPorts fun _ => next_ignoresPorts fun _ _ => rfl
  | voicesQuery idx m => exact read_ignoresPorts (voicesQuery_cases idx m s)
  | voiceBind idx imm => exact execVoiceBind_ignoresPorts imm
  | overlayOn | alternateOn => exact withTrackVoice_ignoresPorts fun _ _ => next_ignoresPorts fun _ _ => rfl
  | instrWrite e f v => exact execInstrWrite_ignoresPorts f v
  | loadInstr idx imm => exact execLoadInstr_ignoresPorts imm
  | setDelta | trackStart | voiceUnbind | secondaryOff | setAttackRate | setDecayRate | setSustainRate
  | setReleaseRate | setSustainLevel | setAttackMode | setDecayMode | setReleaseMode | setPitch | setVolume
  | setAddr | setLoopAddr => exact onTrack_ignoresPorts fun _ _ => rfl

/-- So does every command word, a reserved op byte with it (30_encoding.md R94). -/
theorem execWord_ignoresPorts (w : CmdWord) (s : State) : IgnoresPorts s (execWord w) := by
  cases hw : decode w with
  | command i => exact (exec_ignoresPorts i s).congr fun l ps => execWord_of_decode_command hw (onPorts l ps s)
  | reservedOpcode op => exact (raise_ignoresPorts .illegalOp op).congr fun l ps => by rw [execWord, hw]

end Sys2Proof.Machine
end

