-- ==== Sys2Proof/Proofs/SerialLink.lean ====
section
/-! SUPPORT. Command words that arrive byte by byte (20_memory.md R75, R76): bytes that complete no word are held, and
the byte that completes one runs it. -/

namespace Sys2Proof.Machine

/-! Runs of any machine. -/

theorem run_succ_of_step {M : Host.Core} {s t : M.State} (h : M.step s = .next t) (n : Nat) :
    M.run (n + 1) s = M.run n t := by
  simp only [Host.Core.run, h]

theorem run_add {M : Host.Core} {s t : M.State} {m : Nat} (h : M.run m s = .next t) (n : Nat) :
    M.run (m + n) s = M.run n t := by
  induction m generalizing s with
  | zero =>
    cases h
    rw [Nat.zero_add]
  | succ m ih =>
    cases hs : M.step s with
    | next u =>
      rw [run_succ_of_step hs] at h
      rw [Nat.succ_add, run_succ_of_step hs, ih h]
    | fault r => simp [Host.Core.run, hs] at h
    | refused r => simp [Host.Core.run, hs] at h

/-! One input. -/

theorem step_onPorts (p : PortInput) (l : List Byte) (ps : List PortInput) (s : State) :
    step (onPorts l (p :: ps) s) = takeInput p (onPorts l ps s) :=
  step_of_input_cons (s := onPorts l (p :: ps) s) rfl

theorem step_command (w : CmdWord) (l : List Byte) (ps : List PortInput) (s : State) :
    step (onPorts l (.command w :: ps) s) = execWord w (onPorts l ps s) :=
  step_onPorts (.command w) l ps s

theorem receiveByte_of_part {b : Byte} {s : State} (h : (s.link ++ [b]).length < 8) :
    receiveByte b s = .next { s with link := s.link ++ [b] } := by
  rw [receiveByte, takeWord_eq_none h]

theorem receiveByte_of_word {b : Byte} {s : State} {w : CmdWord} (h : s.link ++ [b] = wordBytes w) :
    receiveByte b s = execWord w { s with link := [] } := by
  have hword : takeWord (wordBytes w) = some (w, []) := takeWord_wordBytes w []
  rw [receiveByte, h, hword]

theorem step_byte_of_part {l : List Byte} {b : Byte} (h : (l ++ [b]).length < 8) (ps : List PortInput) (s : State) :
    step (onPorts l (.byte b :: ps) s) = .next (onPorts (l ++ [b]) ps s) :=
  (step_onPorts (.byte b) l ps s).trans (receiveByte_of_part (s := onPorts l ps s) h)

theorem step_byte_of_word {l : List Byte} {b : Byte} {w : CmdWord} (h : l ++ [b] = wordBytes w) (ps : List PortInput)
    (s : State) : step (onPorts l (.byte b :: ps) s) = execWord w (onPorts [] ps s) :=
  (step_onPorts (.byte b) l ps s).trans (receiveByte_of_word (s := onPorts l ps s) h)

/-! Runs over bytes. -/

/-- Bytes that do not complete a word with the part-word held only join it (R76). -/
theorem run_part_word (bs l : List Byte) (ps : List PortInput) (s : State) (h : (l ++ bs).length < 8) :
    Host.Core.run core bs.length (onPorts l (bs.map .byte ++ ps) s) = .next (onPorts (l ++ bs) ps s) := by
  induction bs generalizing l with
  | nil =>
    rw [List.append_nil]
    rfl
  | cons b bs ih =>
    have hpart : (l ++ [b]).length < 8 := by
      simp at h ⊢
      omega
    rw [List.append_cons] at h ⊢
    exact (run_succ_of_step (step_byte_of_part hpart _ s) _).trans (ih _ h)

/-- Settles O7: the run over bytes that complete no word, from an empty link. -/
theorem partWordIsNoCommand : Obligations.PartWordIsNoCommand := by
  intro bs s hlen hlink hinput
  have hs : s = onPorts [] (bs.map .byte ++ []) s := by
    rw [List.append_nil, onPorts, ← hlink, ← hinput]
  exact (congrArg (Host.Core.run core bs.length) hs).trans (run_part_word bs [] [] s hlen)

/-- The 8 bytes of a word run it: 7 are held, and the last completes it. -/
theorem run_wordBytes {w : CmdWord} {s t : State} (ps : List PortInput)
    (h : execWord w (onPorts [] ps s) = .next t) :
    Host.Core.run core 8 (onPorts [] ((wordBytes w).map .byte ++ ps) s) = .next t := by
  have hword : (List.range 7).map (wordByte w) ++ [wordByte w 7] = wordBytes w := rfl
  have hheld : Host.Core.run core 7 (onPorts [] ((wordBytes w).map .byte ++ ps) s) =
      .next (onPorts ((List.range 7).map (wordByte w)) (.byte (wordByte w 7) :: ps) s) :=
    run_part_word ((List.range 7).map (wordByte w)) [] (.byte (wordByte w 7) :: ps) s (by simp)
  exact (run_add hheld 1).trans (run_succ_of_step ((step_byte_of_word hword ps s).trans h) 0)

theorem run_command {w : CmdWord} {s t : State} (ps : List PortInput) (h : execWord w (onPorts [] ps s) = .next t) :
    Host.Core.run core 1 (onPorts [] (.command w :: ps) s) = .next t :=
  run_succ_of_step ((step_command w [] ps s).trans h) 0

/-- Word by word: the ports differ between the two runs, and what a word does is the same on both (R75). -/
theorem run_serial_eq_run_whole (ws : List CmdWord) (s : State) : ∃ t : State,
    Host.Core.run core (8 * ws.length) (onPorts [] ((ws.flatMap wordBytes).map .byte) s) = .next t ∧
    Host.Core.run core ws.length (onPorts [] (ws.map .command) s) = .next t := by
  induction ws generalizing s with
  | nil => exact ⟨_, rfl, rfl⟩
  | cons w ws ih =>
    obtain ⟨t, ht⟩ := execWord_ignoresPorts w s
    obtain ⟨u, hserial, hwhole⟩ := ih t
    refine ⟨u, ?serial, ?whole⟩
    case serial =>
      have hfirst := run_wordBytes _ (ht [] ((ws.flatMap wordBytes).map .byte))
      rw [List.flatMap_cons, List.map_append, List.length_cons, Nat.mul_succ, Nat.add_comm]
      exact (run_add hfirst _).trans hserial
    case whole =>
      have hfirst := run_command _ (ht [] (ws.map .command))
      rw [List.map_cons, List.length_cons, Nat.add_comm]
      exact (run_add hfirst _).trans hwhole

/-- Settles O6: both runs start with nothing held on the link. -/
theorem serialLinkRunsSameCommands : Obligations.SerialLinkRunsSameCommands := by
  intro ws s hlink _
  have hs (ps : List PortInput) : { s with input := ps } = onPorts [] ps s := by
    rw [onPorts, ← hlink]
  rw [hs, hs]
  exact run_serial_eq_run_whole ws s

end Sys2Proof.Machine
end

