-- ==== Sys2Proof/Proofs/Players.lean ====
section
/-! SUPPORT. The players of the reference system share nothing (20_memory.md R86), and none of them ever stops
(60_exceptions.md R280). -/

namespace Sys2Proof.Machine

theorem IgnoresPorts.answers {s : State} {act : State → StepResult} (h : IgnoresPorts s act) :
    ∃ t, act s = .next t := by
  obtain ⟨t, ht⟩ := h
  exact ⟨_, ht s.link s.input⟩

/-- Every step has a next state: no input stops the block. -/
theorem step_answers (s : State) : ∃ t, step s = .next t := by
  rcases hin : s.input with _ | ⟨p, rest⟩
  · exact ⟨s, step_of_input_nil hin⟩
  · rw [step_of_input_cons hin]
    cases p with
    | command w => exact (execWord_ignoresPorts w _).answers
    | byte b =>
      change ∃ t, receiveByte b { s with input := rest } = .next t
      unfold receiveByte
      split
      · exact ⟨_, rfl⟩
      · exact (execWord_ignoresPorts _ _).answers
    | reset => exact ⟨_, rfl⟩

theorem stepPlayer_of_step {n : Nat} {p : Fin n} {ps : Players n} {t : State} (h : step ps.blocks[p] = .next t) :
    stepPlayer p ps = .next { ps with blocks := ps.blocks.set p t } := by
  rw [stepPlayer, h]

/-- Settles O59: a step of a player has a next state, and that state alone is put back. -/
theorem playersShareNothing : Obligations.PlayersShareNothing := by
  intro n p q ps
  obtain ⟨t, ht⟩ := step_answers ps.blocks[p]
  refine ⟨_, t, stepPlayer_of_step ht, ht, Vector.getElem_set_self p.isLt, fun hq => ?_⟩
  have hval : p.val ≠ q.val := fun h => hq (Fin.ext h.symm)
  exact Vector.getElem_set_ne p.isLt q.isLt hval

end Sys2Proof.Machine
end

