-- ==== Sys2Proof/Proofs/Decoder.lean ====
section
/-! SUPPORT. The decoder against the encoder (30_encoding.md R90 to R96): what the four fields of a word select, and
which of its bits the selected command keeps. -/

namespace Sys2Proof.Machine

/-! From a command to its word and back. -/

/-- The decoder looks at the four fields of a word and at nothing else (R90). -/
theorem decode_packWord (op idx : BitVec 8) (imm : BitVec 16) (data : Word) :
    decode (packWord op idx imm data) = decodeFields op idx imm data := by
  rw [decode, opField_packWord, idxField_packWord, immField_packWord, dataField_packWord]

/-- Row by row of the opcode map (R92), the fields a command is written with select it again. -/
theorem decodeFields_operands (i : Instr) :
    decodeFields (opcodeOf i) (idxOf i) (immOf i) (dataOf i) = .command i := by
  cases i <;> rfl

theorem decode_encode (i : Instr) : decode (encode i) = .command i :=
  (decode_packWord _ _ _ _).trans (decodeFields_operands i)

/-- Settles O2: the word of a command packs its four fields, and these select the command. -/
theorem decodeEncodeRoundTrip : Obligations.DecodeEncodeRoundTrip := decode_encode

/-- Settles O1, by running the decoder on the nine words. -/
theorem sampleWordsDecode : Obligations.SampleWordsDecode := by
  unfold Obligations.SampleWordsDecode
  decide

/-! From a word to its command: the op byte alone tells a command from a reserved word (R92, R94). -/

theorem reservedOp_opcodeOf (i : Instr) : reservedOp (opcodeOf i) = false := by
  cases i <;> rfl

/-- What an op byte can select: a command that has it as its own, or nothing when it is reserved. -/
theorem decodeFields_cases (op idx : BitVec 8) (imm : BitVec 16) (data : Word) :
    (∃ i, decodeFields op idx imm data = .command i ∧ op = opcodeOf i) ∨
    (reservedOp op = true ∧ decodeFields op idx imm data = .reservedOpcode op) := by
  unfold decodeFields
  split
  case h_61 =>
    refine .inr ⟨?_, rfl⟩
    simp only [reservedOp, Bool.or_eq_true, Bool.and_eq_true, decide_eq_true_eq]
    grind
  all_goals exact .inl ⟨_, rfl, BitVec.eq_of_toNat_eq ‹_›⟩

theorem decode_cases (w : CmdWord) :
    (∃ i, decode w = .command i ∧ opField w = opcodeOf i) ∨
    (reservedOp (opField w) = true ∧ decode w = .reservedOpcode (opField w)) :=
  decodeFields_cases _ _ _ _

theorem opField_of_decode_command {w : CmdWord} {i : Instr} (h : decode w = .command i) : opField w = opcodeOf i := by
  rcases decode_cases w with ⟨j, hj, hop⟩ | ⟨_, hreserved⟩
  · cases hj.symm.trans h
    exact hop
  · cases hreserved.symm.trans h

theorem decode_of_reservedOp {w : CmdWord} (h : reservedOp (opField w) = true) :
    decode w = .reservedOpcode (opField w) := by
  rcases decode_cases w with ⟨i, _, hop⟩ | ⟨_, hreserved⟩
  · rw [hop, reservedOp_opcodeOf] at h
    cases h
  · exact hreserved

theorem exists_command_of_not_reservedOp {w : CmdWord} (h : reservedOp (opField w) = false) :
    ∃ i, decode w = .command i := by
  rcases decode_cases w with ⟨i, hi, _⟩ | ⟨hreserved, _⟩
  · exact ⟨i, hi⟩
  · cases hreserved.symm.trans h

theorem execWord_of_decode_reserved {w : CmdWord} {op : BitVec 8} (h : decode w = .reservedOpcode op) (s : State) :
    execWord w s = .next (raised .illegalOp op s) := by
  rw [execWord, h]
  exact raise_eq .illegalOp op s

/-- Settles O4: the step hands the word to `execWord`, which raises on a reserved op byte; the others are decoded. -/
theorem reservedOpcodesRaiseIllegalOp : Obligations.ReservedOpcodesRaiseIllegalOp := by
  refine fun w => ⟨fun hop s rest hinput => ?reserved, exists_command_of_not_reservedOp⟩
  calc step s
      = execWord w { s with input := rest } := step_of_input_cons hinput
    _ = .next (raised .illegalOp (opField w) { s with input := rest }) :=
      execWord_of_decode_reserved (decode_of_reservedOp hop) _

/-! The bits of a word that its format uses (R91). -/

/-- A mask cuts a word field by field. -/
theorem and_eq_packWord (w m : CmdWord) : w &&& m =
    packWord (opField w &&& opField m) (idxField w &&& idxField m) (immField w &&& immField m)
      (dataField w &&& dataField m) := by
  conv_lhs => rw [← packWord_fields w, ← packWord_fields m]
  unfold packWord
  exact BitVec.and_append.trans (congrArg _ (BitVec.and_append.trans (congrArg _ BitVec.and_append)))

/-- Every format uses the whole op byte. -/
theorem opField_usedMask (i : Instr) : opField (usedMask i) = BitVec.allOnes 8 := by
  cases i <;> rw [usedMask] <;> rfl

/-- Format by format (R91), a command has the fields its format uses as its operands, and 0 in the others. -/
theorem operands_of_decodeFields {i : Instr} {idx : BitVec 8} {imm : BitVec 16} {data : Word}
    (h : decodeFields (opcodeOf i) idx imm data = .command i) :
    idxOf i = idx &&& idxField (usedMask i) ∧ immOf i = imm &&& immField (usedMask i) ∧
    dataOf i = data &&& dataField (usedMask i) := by
  have idxAll : idx = idx &&& 0xFF := BitVec.and_allOnes.symm
  have immAll : imm = imm &&& 0xFFFF := BitVec.and_allOnes.symm
  have dataAll : data = data &&& 0xFFFFFFFF := BitVec.and_allOnes.symm
  have idxNone : 0 = idx &&& 0 := BitVec.and_zero.symm
  have immNone : 0 = imm &&& 0 := BitVec.and_zero.symm
  have dataNone : 0 = data &&& 0 := BitVec.and_zero.symm
  cases i
  all_goals
    cases h
    rw [usedMask]
  case nop | block | tick | songInit | resolve | saveActive => exact ⟨idxNone, immNone, dataNone⟩
  case trackStart | trackFinish | deviceFault | keyOn | keyOff | noiseOn | noiseOff | reverbOn | reverbOff | plfoOn
      | plfoOff | voiceUnbind | secondaryOff => exact ⟨idxAll, immNone, dataNone⟩
  case timeSet | reverbTypeSet | statusClear | slideValueTempo | slideValueReverbDepth =>
    exact ⟨idxNone, immNone, dataAll⟩
  case slideStartTempo | slideStartReverbDepth => exact ⟨idxNone, immAll, dataAll⟩
  case slideValueVolume | slideValuePan | slideValuePitchBend | slideValueVibratoDepth | slideValueTremoloDepth
      | slideValuePanLfoDepth | slideValueOverlayBalance | voicesQuery | setVolume | setAddr | setLoopAddr =>
    exact ⟨idxAll, immNone, dataAll⟩
  case slideStartVolume | slideStartPan | slideStartPitchBend | slideStartVibratoDepth | slideStartTremoloDepth
      | slideStartPanLfoDepth | slideStartOverlayBalance | instrWrite =>
    exact ⟨idxAll, immAll, dataAll⟩
  case setDelta | regRead | voiceBind | overlayOn | alternateOn | loadInstr | setAttackRate | setDecayRate
      | setSustainRate | setReleaseRate | setSustainLevel | setAttackMode | setDecayMode | setReleaseMode | setPitch =>
    exact ⟨idxAll, immAll, dataNone⟩

theorem encode_of_decode {w : CmdWord} {i : Instr} (h : decode w = .command i) : encode i = w &&& usedMask i := by
  have hop := opField_of_decode_command h
  obtain ⟨hidx, himm, hdata⟩ : idxOf i = idxField w &&& idxField (usedMask i) ∧
      immOf i = immField w &&& immField (usedMask i) ∧ dataOf i = dataField w &&& dataField (usedMask i) := by
    rw [decode, hop] at h
    exact operands_of_decodeFields h
  rw [encode, and_eq_packWord, opField_usedMask, BitVec.and_allOnes, hop, hidx, himm, hdata]

/-- Settles O3: the used bits are the word of the command, which decodes back to it. -/
theorem encodeKeepsUsedBits : Obligations.EncodeKeepsUsedBits := by
  intro w i h
  have hword := encode_of_decode h
  exact ⟨hword, hword ▸ decode_encode i⟩

end Sys2Proof.Machine
end

