-- ==== Sys2Proof/Proofs/Assembler.lean ====
section
/-! SUPPORT. What the assembler writes (30_encoding.md R98, R100 to R102): an operand that it accepts as an index is in
its range, so that every row of its table gives commands whose indices are in range. -/

namespace Sys2Proof.Machine

/-! Operands: one that is not refused is in its range (R98). -/

/-- An accepted index is below its bound, whether the bound has room in the field or not. -/
theorem toNat_lt_of_idxOperand {bound n : Nat} {idx : BitVec 8} (h : idxOperand bound n = .ok idx) :
    idx.toNat < bound := by
  unfold idxOperand at h
  split at h
  next hn =>
    cases h
    exact Nat.lt_of_le_of_lt (BitVec.toNat_ofNat n 8 ▸ Nat.mod_le n _) hn
  next => cases h

section

variable {p : Config.Params}

theorem immVoiceInRange_of_immVoice {n : Nat} {v : BitVec 16} (h : immVoice p n = .ok v) :
    immVoiceInRange p v = true := by
  unfold immVoice at h
  split at h
  next hn =>
    cases h
    exact decide_eq_true (Nat.lt_of_le_of_lt (BitVec.toNat_ofNat n 16 ▸ Nat.mod_le n _) hn)
  next => cases h

theorem trackInRange_of_idxOperand {n : Nat} {t : BitVec 8} (h : idxOperand p.numTracks n = .ok t) :
    trackInRange p t = true := decide_eq_true (toNat_lt_of_idxOperand h)

theorem voiceInRange_of_idxOperand {n : Nat} {v : BitVec 8} (h : idxOperand p.numVoices n = .ok v) :
    voiceInRange p v = true := decide_eq_true (toNat_lt_of_idxOperand h)

theorem entryInRange_of_idxOperand {n : Nat} {e : BitVec 8} (h : idxOperand p.numInstr n = .ok e) :
    entryInRange p e = true := decide_eq_true (toNat_lt_of_idxOperand h)

theorem selectorInRange_of_selectorOperand {cs : List Char} {sel : BitVec 8} (h : selectorOperand cs = .ok sel) :
    selectorInRange sel = true := decide_eq_true (toNat_lt_of_idxOperand h)

/-- The range of REG_READ's index is the range of what the assembler takes its register to be indexed by (R24). -/
theorem regIndexInRange_eq (idx : BitVec 8) (n : BitVec 16) : regIndexInRange p idx n =
    match numberIndex n with
    | .track => trackInRange p idx
    | .entry => entryInRange p idx
    | .none => decide (idx = 0) := by
  unfold regIndexInRange numberIndex
  rcases (regOfNumber n.toNat).map regIndex with _ | (_ | _ | _) <;> rfl

/-! What the assembler gives, along the shapes its formats are built in. -/

/-- If the line is not refused, the commands it gives are well-formed. -/
def AllWellFormed (p : Config.Params) (r : AsmResult) : Prop := ∀ is, r = .ok is → ∀ i ∈ is, i.wellFormed p = true

/-- The same of a row of the assembler's table, whatever operands it is given. -/
def RowWellFormed (p : Config.Params) (asm : List Token → AsmResult) : Prop := ∀ ts, AllWellFormed p (asm ts)

theorem AllWellFormed.error {e : AsmRefusal} : AllWellFormed p (.error e) := by
  intro is h
  cases h

theorem AllWellFormed.ok {is : List Instr} (h : ∀ i ∈ is, i.wellFormed p = true) : AllWellFormed p (.ok is) := by
  intro js hjs
  cases hjs
  exact h

theorem AllWellFormed.single {i : Instr} (h : i.wellFormed p = true) : AllWellFormed p (.ok [i]) :=
  .ok (List.forall_mem_singleton.mpr h)

/-- After an operand is read, only what follows from its being accepted is needed. -/
theorem AllWellFormed.bind {α : Type} {x : Except AsmRefusal α} {f : α → AsmResult}
    (h : ∀ a, x = .ok a → AllWellFormed p (f a)) : AllWellFormed p (x >>= f) := by
  cases x with
  | error e => exact .error
  | ok a => exact h a rfl

theorem AllWellFormed.map {α : Type} {x : Except AsmRefusal α} {f : α → List Instr}
    (h : ∀ a, x = .ok a → AllWellFormed p (.ok (f a))) : AllWellFormed p (x.map f) := by
  cases x with
  | error e => exact .error
  | ok a => exact h a rfl

/-! The formats (R100): what a format gives is well-formed when the command it builds of operands in range is. -/

theorem asmZ_wellFormed {i : Instr} (h : i.wellFormed p = true) : RowWellFormed p (asmZ i) := by
  intro ts
  unfold asmZ
  split
  · exact .single h
  · exact .error

theorem asmT_wellFormed {f : BitVec 8 → Instr} (h : ∀ t, trackInRange p t = true → (f t).wellFormed p = true) :
    RowWellFormed p (asmT p f) := by
  intro ts
  unfold asmT
  split
  · exact .map fun t ht => .single (h t (trackInRange_of_idxOperand ht))
  · exact .error

theorem asmV_wellFormed {f : BitVec 8 → Instr} (h : ∀ v, voiceInRange p v = true → (f v).wellFormed p = true) :
    RowWellFormed p (asmV p f) := by
  intro ts
  unfold asmV
  split
  · exact .map fun v hv => .single (h v (voiceInRange_of_idxOperand hv))
  · exact .error

theorem asmTI_wellFormed {f : BitVec 8 → BitVec 16 → Instr}
    (h : ∀ t n, trackInRange p t = true → (f t n).wellFormed p = true) : RowWellFormed p (asmTI p f) := by
  intro ts
  unfold asmTI
  split
  · exact .bind fun t ht => .bind fun n _ => .single (h t n (trackInRange_of_idxOperand ht))
  · exact .error

theorem asmTV_wellFormed {f : BitVec 8 → BitVec 16 → Instr}
    (h : ∀ t v, trackInRange p t = true → immVoiceInRange p v = true → (f t v).wellFormed p = true) :
    RowWellFormed p (asmTV p f) := by
  intro ts
  unfold asmTV
  split
  · exact .bind fun t ht => .bind fun v hv =>
      .single (h t v (trackInRange_of_idxOperand ht) (immVoiceInRange_of_immVoice hv))
  · exact .error

theorem asmTD_wellFormed {f : BitVec 8 → Word → Instr}
    (h : ∀ t x, trackInRange p t = true → (f t x).wellFormed p = true) : RowWellFormed p (asmTD p f) := by
  intro ts
  unfold asmTD
  split
  · exact .bind fun t ht => .bind fun x _ => .single (h t x (trackInRange_of_idxOperand ht))
  · exact .error

theorem asmD_wellFormed {f : Word → Instr} (h : ∀ x, (f x).wellFormed p = true) : RowWellFormed p (asmD f) := by
  intro ts
  unfold asmD
  split
  · exact .map fun x _ => .single (h x)
  · exact .error

theorem asmSS_wellFormed {f : BitVec 8 → BitVec 16 → Word → Instr}
    (h : ∀ t n x, trackInRange p t = true → (f t n x).wellFormed p = true) : RowWellFormed p (asmSS p f) := by
  intro ts
  unfold asmSS
  split
  · exact .bind fun t ht => .bind fun n _ => .bind fun x _ => .single (h t n x (trackInRange_of_idxOperand ht))
  · exact .error

theorem asmSSPlayer_wellFormed {f : BitVec 16 → Word → Instr} (h : ∀ n x, (f n x).wellFormed p = true) :
    RowWellFormed p (asmSSPlayer f) := by
  intro ts
  unfold asmSSPlayer
  split
  · exact .bind fun n _ => .bind fun x _ => .single (h n x)
  · exact .error

theorem asmQ_wellFormed {f : BitVec 8 → Word → Instr}
    (h : ∀ sel x, selectorInRange sel = true → (f sel x).wellFormed p = true) : RowWellFormed p (asmQ f) := by
  intro ts
  unfold asmQ
  split
  · exact .bind fun sel hsel => .bind fun x _ => .single (h sel x (selectorInRange_of_selectorOperand hsel))
  · exact .error

theorem asmE_wellFormed {f : BitVec 8 → BitVec 16 → Word → Instr}
    (h : ∀ e n x, entryInRange p e = true → (f e n x).wellFormed p = true) : RowWellFormed p (asmE p f) := by
  intro ts
  unfold asmE
  split
  · exact .bind fun e he => .bind fun n _ => .bind fun x _ => .single (h e n x (entryInRange_of_idxOperand he))
  · exact .error

/-- Format R: the operand written before the number is the one its register is indexed by, or there is none. -/
theorem asmR_wellFormed {f : BitVec 8 → BitVec 16 → Instr}
    (h : ∀ idx n, regIndexInRange p idx n = true → (f idx n).wellFormed p = true) : RowWellFormed p (asmR p f) := by
  intro ts
  unfold asmR
  split
  next =>
    refine .bind fun n _ => ?_
    split
    next hindex => exact .single (h 0 n (by rw [regIndexInRange_eq, hindex]; rfl))
    next => exact .error
  next =>
    refine .bind fun n _ => ?_
    split
    next hindex =>
      exact .map fun t ht => .single (h t n (by rw [regIndexInRange_eq, hindex, trackInRange_of_idxOperand ht]))
    next => exact .error
  next =>
    refine .bind fun n _ => ?_
    split
    next hindex =>
      exact .map fun e he => .single (h e n (by rw [regIndexInRange_eq, hindex, entryInRange_of_idxOperand he]))
    next => exact .error
  next => exact .error

/-- NOTE_ON gives two commands (R101), the voice in range as `imm` of the one and as `idx` of the other. -/
theorem asmNoteOn_wellFormed : RowWellFormed p (asmNoteOn p) := by
  intro ts
  unfold asmNoteOn
  split
  · refine .bind fun t ht => .bind fun b hb => .bind fun k hk => .ok ?_
    have hbind : (Instr.voiceBind t b).wellFormed p = true :=
      Bool.and_eq_true_iff.mpr ⟨trackInRange_of_idxOperand ht, immVoiceInRange_of_immVoice hb⟩
    exact List.forall_mem_cons.mpr ⟨hbind, List.forall_mem_singleton.mpr (voiceInRange_of_idxOperand hk)⟩
  · exact .error

/-! The table (R92, R101): each row is of its format, and `wellFormed` asks of its command what the format grants. -/

theorem asmTiming_wellFormed : ∀ row ∈ asmTiming p, RowWellFormed p row.2 := by
  simp only [asmTiming, List.forall_mem_cons, List.not_mem_nil, IsEmpty.forall_iff, implies_true, and_true]
  exact ⟨asmZ_wellFormed rfl, asmZ_wellFormed rfl, asmZ_wellFormed rfl, asmTI_wellFormed fun _ _ ht => ht,
    asmT_wellFormed fun _ ht => ht, asmT_wellFormed fun _ ht => ht, asmD_wellFormed fun _ => rfl,
    asmD_wellFormed fun _ => rfl, asmT_wellFormed fun _ ht => ht, asmR_wellFormed fun _ _ hidx => hidx,
    asmD_wellFormed fun _ => rfl, asmZ_wellFormed rfl⟩

theorem asmSlideValue_wellFormed : ∀ row ∈ asmSlideValue p, RowWellFormed p row.2 := by
  simp only [asmSlideValue, List.forall_mem_cons, List.not_mem_nil, IsEmpty.forall_iff, implies_true, and_true]
  exact ⟨asmD_wellFormed fun _ => rfl, asmD_wellFormed fun _ => rfl, asmTD_wellFormed fun _ _ ht => ht,
    asmTD_wellFormed fun _ _ ht => ht, asmTD_wellFormed fun _ _ ht => ht, asmTD_wellFormed fun _ _ ht => ht,
    asmTD_wellFormed fun _ _ ht => ht, asmTD_wellFormed fun _ _ ht => ht, asmTD_wellFormed fun _ _ ht => ht⟩

theorem asmSlideStart_wellFormed : ∀ row ∈ asmSlideStart p, RowWellFormed p row.2 := by
  simp only [asmSlideStart, List.forall_mem_cons, List.not_mem_nil, IsEmpty.forall_iff, implies_true, and_true]
  exact ⟨asmSSPlayer_wellFormed fun _ _ => rfl, asmSSPlayer_wellFormed fun _ _ => rfl,
    asmSS_wellFormed fun _ _ _ ht => ht, asmSS_wellFormed fun _ _ _ ht => ht, asmSS_wellFormed fun _ _ _ ht => ht,
    asmSS_wellFormed fun _ _ _ ht => ht, asmSS_wellFormed fun _ _ _ ht => ht, asmSS_wellFormed fun _ _ _ ht => ht,
    asmSS_wellFormed fun _ _ _ ht => ht⟩

theorem asmVoice_wellFormed : ∀ row ∈ asmVoice p, RowWellFormed p row.2 := by
  simp only [asmVoice, List.forall_mem_cons, List.not_mem_nil, IsEmpty.forall_iff, implies_true, and_true]
  exact ⟨asmV_wellFormed fun _ hv => hv, asmV_wellFormed fun _ hv => hv, asmZ_wellFormed rfl, asmZ_wellFormed rfl,
    asmV_wellFormed fun _ hv => hv, asmV_wellFormed fun _ hv => hv, asmV_wellFormed fun _ hv => hv,
    asmV_wellFormed fun _ hv => hv, asmV_wellFormed fun _ hv => hv, asmV_wellFormed fun _ hv => hv,
    asmQ_wellFormed fun _ _ hsel => hsel, asmTV_wellFormed fun _ _ ht hv => Bool.and_eq_true_iff.mpr ⟨ht, hv⟩,
    asmT_wellFormed fun _ ht => ht, asmTV_wellFormed fun _ _ ht hv => Bool.and_eq_true_iff.mpr ⟨ht, hv⟩,
    asmTV_wellFormed fun _ _ ht hv => Bool.and_eq_true_iff.mpr ⟨ht, hv⟩, asmT_wellFormed fun _ ht => ht⟩

theorem asmShadow_wellFormed : ∀ row ∈ asmShadow p, RowWellFormed p row.2 := by
  simp only [asmShadow, List.forall_mem_cons, List.not_mem_nil, IsEmpty.forall_iff, implies_true, and_true]
  exact ⟨asmE_wellFormed fun _ _ _ he => he, asmTI_wellFormed fun _ _ ht => ht, asmTI_wellFormed fun _ _ ht => ht,
    asmTI_wellFormed fun _ _ ht => ht, asmTI_wellFormed fun _ _ ht => ht, asmTI_wellFormed fun _ _ ht => ht,
    asmTI_wellFormed fun _ _ ht => ht, asmTI_wellFormed fun _ _ ht => ht, asmTI_wellFormed fun _ _ ht => ht,
    asmTI_wellFormed fun _ _ ht => ht, asmTI_wellFormed fun _ _ ht => ht, asmTD_wellFormed fun _ _ ht => ht,
    asmTD_wellFormed fun _ _ ht => ht, asmTD_wellFormed fun _ _ ht => ht⟩

theorem asmPseudo_wellFormed : ∀ row ∈ asmPseudo p, RowWellFormed p row.2 := by
  simp only [asmPseudo, List.forall_mem_cons, List.not_mem_nil, IsEmpty.forall_iff, implies_true, and_true]
  exact ⟨asmD_wellFormed fun _ => rfl, asmSSPlayer_wellFormed fun _ _ => rfl, asmNoteOn_wellFormed,
    asmZ_wellFormed rfl, asmZ_wellFormed rfl, asmTI_wellFormed fun _ _ ht => ht, asmZ_wellFormed rfl⟩

theorem asmTable_wellFormed : ∀ row ∈ asmTable p, RowWellFormed p row.2 := by
  simp only [asmTable, List.forall_mem_append]
  exact ⟨⟨⟨⟨⟨asmTiming_wellFormed, asmSlideValue_wellFormed⟩, asmSlideStart_wellFormed⟩, asmVoice_wellFormed⟩,
    asmShadow_wellFormed⟩, asmPseudo_wellFormed⟩

theorem assembleSource_wellFormed (l : SourceLine) : AllWellFormed p (assembleSource p l) := by
  unfold assembleSource
  split
  next => exact .error
  next row hrow => exact asmTable_wellFormed row (List.mem_of_find?_eq_some hrow) l.operands

end

/-- Settles O60: a line is blank or is assembled by a row of the table. -/
theorem assembledCommandsAreWellFormed : Obligations.AssembledCommandsAreWellFormed := by
  intro p cs
  change AllWellFormed p (assembleLine p cs)
  unfold assembleLine
  split
  · exact .ok (List.forall_mem_nil _)
  · exact assembleSource_wellFormed _

end Sys2Proof.Machine
end

