-- ==== Sys2Proof/Proofs/Blocks.lean ====
section
/-! SUPPORT. BLOCK (41_timing.md R120, R121), one and many in a row (R130). -/

namespace Sys2Proof.Machine

/-! Runs of commands (00_scope.md R16). -/

theorem execAll_cons_of_next {i : Instr} {s t : State} (h : exec i s = .next t) (is : List Instr) :
    execAll (i :: is) s = execAll is t := by
  rw [execAll, h]

theorem blockTempos_succ_of_next {s t : State} (h : exec .block s = .next t) (m : Nat) :
    blockTempos (m + 1) s = s.tempo.value.toNat :: blockTempos m t := by
  rw [blockTempos, h]

/-! The tick integration. -/

/-- The multiples of `d` in a sum are those in the first part and those in the rest on what the first part leaves. -/
theorem add_div_eq_add_carry {d : Nat} (hd : 0 < d) (a b : Nat) : (a + b) / d = a / d + (a % d + b) / d := by
  have hsum : a + b = a % d + b + d * (a / d) := by
    have := Nat.mod_add_div a d
    omega
  rw [hsum, Nat.add_mul_div_left _ _ hd, Nat.add_comm]

/-- The multiples of 2^`f` that a sum passes are those up to the sum without those up to where it starts. -/
theorem crossings_eq_sub (f tc tempo : Nat) : crossings f tc tempo = (tc + tempo) / 2 ^ f - tc / 2 ^ f := by
  rw [crossings_eq, add_div_eq_add_carry (Nat.two_pow_pos f) tc, Nat.add_sub_cancel_left]

/-- Settles O23: a fraction below 2^16 and a tempo below 2^32 pass at most 2^16 multiples of 2^16. -/
theorem crossingsCountBoundaries : Obligations.CrossingsCountBoundaries := by
  refine ⟨fun f tc tempo => ⟨rfl, crossings_eq_sub f tc tempo⟩, fun tc tempo => ?bound⟩
  case bound =>
    have htempo : tempo.toNat < 2 ^ 32 := tempo.isLt
    rw [crossings_eq]
    omega

/-- `TICKS_PENDING` holds every number up to where it saturates. -/
theorem toNat_ofNat_of_le_most {p : Config.Params} {x : Nat} (h : x ≤ 2 ^ p.tpWidth.val - 1) :
    (BitVec.ofNat 32 x).toNat = x := by
  have hmost : 2 ^ p.tpWidth.val ≤ 2 ^ 32 := Nat.pow_le_pow_right (by decide) (Nat.lt_succ_iff.mp p.tpWidth.isLt)
  have hpos : 0 < 2 ^ p.tpWidth.val := Nat.two_pow_pos _
  rw [BitVec.toNat_ofNat, Nat.mod_eq_of_lt (by omega)]

theorem exec_block (s : State) : exec .block s = .next (stepTempo (addTicks 0x01
    ((s.timeCounter.toNat % 2 ^ s.params.fracBits.val + s.tempo.value.toNat) / 2 ^ s.params.fracBits.val)
    (advanceTime s))) := by
  rw [← crossings_eq]
  rfl

/-- Settles O24: the two cases of `addTicks`. -/
theorem blockIntegratesTempo : Obligations.BlockIntegratesTempo := by
  intro s f most n
  refine ⟨_, exec_block s, ?_⟩
  rcases addTicks_cases 0x01 n (advanceTime s) with ⟨hfits, e⟩ | ⟨hover, e⟩ <;> rw [e]
  · have hfits' : s.ticksPending.toNat + n ≤ most := hfits
    exact ⟨advanceTime_toNat s, rfl, fun _ => ⟨toNat_ofNat_of_le_most hfits, rfl, rfl⟩,
      fun h => absurd hfits' (Nat.not_le.mpr h), rfl⟩
  · have hover' : most < s.ticksPending.toNat + n := hover
    exact ⟨advanceTime_toNat s, rfl, fun h => absurd hover' (Nat.not_lt.mpr h),
      fun _ => ⟨toNat_ofNat_of_le_most le_rfl, rfl, rfl⟩, rfl⟩

/-- A BLOCK without saturation: the ticks of its sum become pending and the counter keeps the sum's fraction. -/
theorem exec_block_unsaturated {p : Config.Params} {s : State} (hp : s.params = p)
    (hf : p.fracBits.val ≤ p.tcWidth.val)
    (h : s.ticksPending.toNat + (s.timeCounter.toNat % 2 ^ p.fracBits.val + s.tempo.value.toNat) / 2 ^ p.fracBits.val
      ≤ 2 ^ p.tpWidth.val - 1) :
    ∃ t : State, exec .block s = .next t ∧ t.params = p ∧
      t.ticksPending.toNat = s.ticksPending.toNat +
        (s.timeCounter.toNat % 2 ^ p.fracBits.val + s.tempo.value.toNat) / 2 ^ p.fracBits.val ∧
      t.timeCounter.toNat % 2 ^ p.fracBits.val =
        (s.timeCounter.toNat % 2 ^ p.fracBits.val + s.tempo.value.toNat) % 2 ^ p.fracBits.val := by
  subst hp
  obtain ⟨t, ht, htime, -, hfits, -⟩ := blockIntegratesTempo s
  refine ⟨t, ht, (exec_effect ht).params_eq, (hfits h).1, ?_⟩
  rw [htime, Nat.mod_mod_of_dvd _ (Nat.pow_dvd_pow 2 hf), Nat.mod_add_mod]

/-- Consecutive BLOCKs: each hands the next the fraction that its own ticks leave (R130). -/
theorem execAll_blocks {p : Config.Params} (hf : p.fracBits.val ≤ p.tcWidth.val) (m : Nat) :
    ∀ s : State, s.params = p →
      s.ticksPending.toNat + (s.timeCounter.toNat % 2 ^ p.fracBits.val + (blockTempos m s).sum) / 2 ^ p.fracBits.val
        ≤ 2 ^ p.tpWidth.val - 1 →
      ∃ t : State, execAll (List.replicate m .block) s = .next t ∧
        t.ticksPending.toNat = s.ticksPending.toNat +
          (s.timeCounter.toNat % 2 ^ p.fracBits.val + (blockTempos m s).sum) / 2 ^ p.fracBits.val ∧
        t.timeCounter.toNat % 2 ^ p.fracBits.val =
          (s.timeCounter.toNat % 2 ^ p.fracBits.val + (blockTempos m s).sum) % 2 ^ p.fracBits.val := by
  have hpos : 0 < 2 ^ p.fracBits.val := Nat.two_pow_pos _
  induction m with
  | zero =>
    intro s _ _
    have hlt : s.timeCounter.toNat % 2 ^ p.fracBits.val < 2 ^ p.fracBits.val := Nat.mod_lt _ hpos
    exact ⟨s, rfl, by simp [blockTempos, Nat.div_eq_of_lt hlt], by simp [blockTempos]⟩
  | succ m ih =>
    intro s hp hmost
    obtain ⟨t, ht⟩ : ∃ t, exec .block s = .next t := ⟨_, exec_block s⟩
    rw [blockTempos_succ_of_next ht, List.sum_cons, ← Nat.add_assoc, add_div_eq_add_carry hpos, ← Nat.add_assoc]
      at hmost ⊢
    obtain ⟨t', ht', htp, hticks, hfrac⟩ := exec_block_unsaturated hp hf (Nat.le_of_add_right_le hmost)
    cases ht.symm.trans ht'
    rw [← hfrac, ← hticks] at hmost ⊢
    obtain ⟨u, hu, hpending, hrest⟩ := ih t htp hmost
    refine ⟨u, (execAll_cons_of_next ht _).trans hu, hpending, ?_⟩
    rw [hrest, hfrac, Nat.mod_add_mod]

/-- Settles O25. -/
theorem blocksLoseNoFraction : Obligations.BlocksLoseNoFraction :=
  fun m s hf hmost => execAll_blocks hf m s rfl hmost

/-- Settles O33. -/
theorem reverbTypeSetStoresValue : Obligations.ReverbTypeSetStoresValue := fun _ _ => rfl

end Sys2Proof.Machine
end

