-- ==== Sys2Proof/Proofs/Ticks.lean ====
section
/-! SUPPORT. What a TICK does to a track (41_timing.md R122), the commands that load or start its counter (R123, R124),
and the count of ticks until it wakes (R131). -/

namespace Sys2Proof.Machine

/-! Loading and starting (R123, R124). -/

theorem onTrack_of_names {p : Config.Params} {op idx : BitVec 8} {k : TrackIx} {s : State} (hp : s.params = p)
    (hk : NamesTrack p idx k) (f : Track → Track) : onTrack op idx f s = .next (modifyTrack k f s) := by
  subst hp
  rw [onTrack, withTrack, trackOperand_of_names hk]

theorem withTrack_of_ge {op idx : BitVec 8} {s : State} (h : s.params.numTracks.val ≤ idx.toNat)
    (act : TrackIx → StepResult) : withTrack op idx s act = .next (raised .indexRange op s) := by
  rw [withTrack, trackOperand_of_ge h, raise_eq]

/-- Settles O28: SET_DELTA writes one track. -/
theorem setDeltaLoadsCounter : Obligations.SetDeltaLoadsCounter := fun _ _ s =>
  ⟨fun k hk => ⟨_, onTrack_of_names rfl hk _, modifyTrack_onlyTrackChanges k _ s, modifyTrack_getElem_self k _ s⟩,
    fun h => withTrack_of_ge h _⟩

/-- Settles O29: TRACK_START writes one track. -/
theorem trackStartMakesTrackLive : Obligations.TrackStartMakesTrackLive := fun _ s =>
  ⟨fun k hk => ⟨_, onTrack_of_names rfl hk _, modifyTrack_onlyTrackChanges k _ s, modifyTrack_getElem_self k _ s⟩,
    fun h => withTrack_of_ge h _⟩

/-! Counting down (R122). -/

/-- `tr'` is `tr` after `n` ticks as far as activity, counter and `WAKE` go: the count stops at zero, and the track
wakes where that takes it from above zero to zero. -/
def CountsDown (n : Nat) (tr tr' : Track) : Prop :=
  tr'.active = tr.active ∧ tr'.delta.toNat = tr.delta.toNat - n ∧
  (tr'.wake = true ↔ tr.wake = true ∨ 0 < tr.delta.toNat ∧ tr.delta.toNat ≤ n)

/-- What `CountsDown` speaks of. -/
def waitOf (tr : Track) : Bool × BitVec 16 × Bool := (tr.active, tr.delta, tr.wake)

theorem CountsDown.zero {tr tr' : Track} (h : waitOf tr' = waitOf tr) : CountsDown 0 tr tr' := by
  simp only [waitOf, Prod.mk.injEq] at h
  obtain ⟨hactive, hdelta, hwake⟩ := h
  exact ⟨hactive, congrArg BitVec.toNat hdelta, by rw [hwake, or_iff_left (by omega)]⟩

theorem CountsDown.trans {m n : Nat} {a b c : Track} (hab : CountsDown m a b) (hbc : CountsDown n b c) :
    CountsDown (m + n) a c := by
  obtain ⟨hactive, hdelta, hwake⟩ := hab
  obtain ⟨hactive', hdelta', hwake'⟩ := hbc
  refine ⟨hactive'.trans hactive, by omega, ?_⟩
  rw [hwake', hwake, or_assoc]
  exact or_congr_right (by omega)

/-- `countDown` writes the counter and `WAKE` only. -/
theorem countDown_frame (tr : Track) :
    countDown tr = { tr with delta := (countDown tr).delta, wake := (countDown tr).wake } := by
  unfold countDown
  split <;> rfl

theorem countsDown_countDown (tr : Track) : CountsDown 1 tr (countDown tr) := by
  unfold countDown
  split
  · rename_i h
    exact ⟨rfl, by simp [h], by simp [h]⟩
  · rename_i h
    refine ⟨rfl, by bv_omega, ?_⟩
    simp only [Bool.or_eq_true, decide_eq_true_eq]
    exact or_congr_right (by bv_omega)

theorem countsDown_tickTrack (p : Config.Params) {tr : Track} (h : tr.active = true) :
    CountsDown 1 tr (tickTrack p tr) := by
  rw [tickTrack_of_active p h]
  exact countsDown_countDown tr

/-- The slides of an active track step, whether its counter moves or not. -/
theorem slideUnit_tickTrack {k : SlideKind} {u : TrackIx} {s t : State} (hk : slideIsPerTrack k = true)
    (h : t.tracks[u] = stepTrackSlides s.params (countDown s.tracks[u])) :
    slideUnit k u t = slideStep s.params k (slideUnit k u s) := by
  rw [countDown_frame] at h
  cases k with
  | tempo | reverbDepth => cases hk
  | volume | pan | pitchBend | vibratoDepth | tremoloDepth | panLfoDepth | overlayBalance =>
    rw [slideUnit, h]
    rfl

/-- The state that a TICK with a tick pending leaves. -/
def ticked (s : State) : State :=
  { s with
    ticksPending := s.ticksPending - 1
    tracks := mapTracks s.params.numTracks (tickTrack s.params) s.tracks
    reverbDepth := slideStep s.params .reverbDepth s.reverbDepth }

theorem exec_tick_of_pending {s : State} (h : s.ticksPending ≠ 0) : exec .tick s = .next (ticked s) := if_neg h

theorem exec_tick_of_none {s : State} (h : s.ticksPending = 0) : exec .tick s = .next (raised .noTick 0x02 s) :=
  (if_pos h).trans (raise_eq _ _ _)

theorem ticked_getElem {s : State} {u : TrackIx} (h : IsTrack s.params u) :
    (ticked s).tracks[u] = tickTrack s.params s.tracks[u] :=
  mapTracks_getElem_of_isTrack _ _ h

theorem ticked_getElem_of_inactive {s : State} {u : TrackIx}
    (h : s.tracks[u].active = false ∨ ¬ IsTrack s.params u) : (ticked s).tracks[u] = s.tracks[u] := by
  by_cases hu : IsTrack s.params u
  · rw [ticked_getElem hu, tickTrack_of_inactive _ (h.resolve_right (not_not_intro hu))]
  · exact mapTracks_getElem_of_not_isTrack _ _ hu

/-- Settles O26. -/
theorem tickAdvancesActiveTracks : Obligations.TickAdvancesActiveTracks := by
  refine ⟨fun s h => exec_tick_of_none h, fun s h => ⟨ticked s, exec_tick_of_pending h, ?pending, rfl,
    fun u hu => ticked_getElem_of_inactive hu, fun u hu hactive => ?active, rfl⟩⟩
  case pending =>
    change (s.ticksPending - 1).toNat = _
    bv_omega
  case active =>
    have hticked : (ticked s).tracks[u] = stepTrackSlides s.params (countDown s.tracks[u]) := by
      rw [ticked_getElem hu, tickTrack_of_active _ hactive]
    obtain ⟨hactive', hdelta, hwake⟩ := countsDown_tickTrack s.params hactive
    rw [← ticked_getElem hu] at hactive' hdelta hwake
    refine ⟨hdelta, hwake.trans (or_congr_right (by bv_omega)), fun k hk => slideUnit_tickTrack hk hticked, ?_,
      hactive'.trans hactive, ?_, ?_⟩ <;> rw [hticked, countDown_frame] <;> rfl

/-! The commands that leave the wait of a track alone (R131). -/

/-- Where `r` answers a next state, the activity, counter and `WAKE` of track `k` are in it as in `s`. -/
def KeepsWait (k : TrackIx) (s : State) (r : StepResult) : Prop :=
  ∀ t, r = .next t → waitOf t.tracks[k] = waitOf s.tracks[k]

section
variable {k : TrackIx} {s : State} {op idx : BitVec 8}

theorem next_keepsWait {t : State} (h : waitOf t.tracks[k] = waitOf s.tracks[k]) : KeepsWait k s (.next t) :=
  fun _ ht => by
    cases ht
    exact h

theorem raise_keepsWait (d : Diag) (op : BitVec 8) : KeepsWait k s (raise d op s) := next_keepsWait rfl

theorem ite_keepsWait {c : Prop} [Decidable c] {a b : StepResult} (ha : KeepsWait k s a) (hb : KeepsWait k s b) :
    KeepsWait k s (if c then a else b) := by
  split
  · exact ha
  · exact hb

theorem withTrack_keepsWait {act : TrackIx → StepResult}
    (h : ∀ j, NamesTrack s.params idx j → KeepsWait k s (act j)) : KeepsWait k s (withTrack op idx s act) := by
  rcases withTrack_cases op idx s act with ⟨j, hj, e⟩ | ⟨-, e⟩ <;> rw [e]
  · exact h j hj
  · exact next_keepsWait rfl

theorem withVoice_keepsWait {act : Voice → StepResult} (h : ∀ v, KeepsWait k s (act v)) :
    KeepsWait k s (withVoice op idx s act) := by
  rcases withVoice_cases op idx s act with ⟨-, e⟩ | ⟨-, e⟩ <;> rw [e]
  · exact h _
  · exact next_keepsWait rfl

theorem withTrackVoice_keepsWait {imm : BitVec 16} {act : TrackIx → Voice → StepResult}
    (h : ∀ j v, KeepsWait k s (act j v)) : KeepsWait k s (withTrackVoice op idx imm s act) := by
  rcases withTrackVoice_cases op idx imm s act with ⟨j, -, -, e⟩ | ⟨-, e⟩ <;> rw [e]
  · exact h _ _
  · exact next_keepsWait rfl

theorem modifyTrack_keepsWait (j : TrackIx) {f : Track → Track} (hf : ∀ tr, waitOf (f tr) = waitOf tr) :
    KeepsWait k s (.next (modifyTrack j f s)) := by
  by_cases h : k = j
  · subst h
    exact next_keepsWait (by rw [modifyTrack_getElem_self, hf])
  · exact next_keepsWait (by rw [modifyTrack_getElem_ne f s h])

theorem onTrack_keepsWait {f : Track → Track} (hf : ∀ tr, waitOf (f tr) = waitOf tr) :
    KeepsWait k s (onTrack op idx f s) :=
  withTrack_keepsWait fun j _ => modifyTrack_keepsWait j hf

/-- An operand that names another number than `k`'s names another track. -/
theorem ne_of_namesTrack {p : Config.Params} {j : TrackIx} (hj : NamesTrack p idx j) (h : idx.toNat ≠ k.val) :
    k ≠ j := by
  rintro rfl
  exact h hj.1.symm

/-- A command on another track that writes its wait. -/
theorem onTrack_keepsWait_of_ne {f : Track → Track} (h : idx.toNat ≠ k.val) : KeepsWait k s (onTrack op idx f s) :=
  withTrack_keepsWait fun j hj => next_keepsWait (by
    rw [modifyTrack_getElem_ne f s (ne_of_namesTrack hj h)])

theorem finish_keepsWait {g : State → State} (h : idx.toNat ≠ k.val) (hg : (g s).tracks = s.tracks) :
    KeepsWait k s (withTrack op idx s fun j => .next (finish j (g s))) :=
  withTrack_keepsWait fun j hj => next_keepsWait (by
    rw [finish_getElem_ne (g s) (ne_of_namesTrack hj h), hg])

theorem modifySlide_keepsWait (c : SlideKind) (j : TrackIx) (f : Slide → Slide) :
    KeepsWait k s (.next (modifySlide c j f s)) := by
  cases c with
  | tempo | reverbDepth => exact next_keepsWait rfl
  | volume | pan | pitchBend | vibratoDepth | tremoloDepth | panLfoDepth | overlayBalance =>
    simp only [modifySlide]
    exact modifyTrack_keepsWait j fun _ => rfl

theorem onSlide_keepsWait {c : SlideKind} {f : Slide → Slide} : KeepsWait k s (onSlide c op idx f s) := by
  rcases onSlide_cases c op idx f s with ⟨-, e⟩ | ⟨-, j, -, e⟩ | ⟨-, -, e⟩ <;> rw [e]
  · exact modifySlide_keepsWait c 0 f
  · exact modifySlide_keepsWait c j f
  · exact next_keepsWait rfl

theorem slideValueInstr_keepsWait (c : SlideKind) (idx : BitVec 8) (v : Word) :
    KeepsWait k s (exec (slideValueInstr c idx v) s) :=
  exec_slideValueInstr c idx v s ▸ onSlide_keepsWait

theorem slideStartInstr_keepsWait (c : SlideKind) (idx : BitVec 8) (n : BitVec 16) (v : Word) :
    KeepsWait k s (exec (slideStartInstr c idx n v) s) :=
  exec_slideStartInstr c idx n v s ▸ onSlide_keepsWait

theorem execResolve_keepsWait : KeepsWait k s (execResolve s) := by
  have hemitted (tr : Track) : waitOf (emittedTrack tr) = waitOf tr := by
    unfold emittedTrack
    split <;> rfl
  refine next_keepsWait ?_
  simp only [resolveKeys_tracks, resolveFeatures_tracks, resolveTracks_tracks, mapTracks_getElem]
  split
  · exact hemitted _
  · rfl

/-- The two reads write `RESULT` and the record of a raise only. -/
theorem read_keepsWait {i : Instr} (h : (∃ v, ReadAnswers i s v) ∨ ∃ d, ReadRefuses i s d) :
    KeepsWait k s (exec i s) := by
  rcases h with ⟨v, hv⟩ | ⟨d, hd⟩
  · have e : exec i s = .next (latch v s) := hv s.result s.link s.input
    rw [e]
    exact next_keepsWait rfl
  · rw [hd s rfl]
    exact next_keepsWait rfl

theorem execInstrWrite_keepsWait (f : BitVec 16) (v : Word) : KeepsWait k s (execInstrWrite idx f v s) := by
  unfold execInstrWrite
  refine ite_keepsWait (raise_keepsWait _ _) ?_
  split
  · exact raise_keepsWait _ _
  · exact next_keepsWait rfl

theorem execLoadInstr_keepsWait (imm : BitVec 16) : KeepsWait k s (execLoadInstr idx imm s) :=
  withTrack_keepsWait fun j _ => by
    split
    · exact raise_keepsWait _ _
    · exact ite_keepsWait (modifyTrack_keepsWait j fun _ => rfl) (raise_keepsWait _ _)

/-- Of the commands that are not said to write the wait of track `k`, only TICK changes it. -/
theorem exec_keepsWait {i : Instr} (hi : i ≠ .tick) (h : writesWait k i = false) : KeepsWait k s (exec i s) := by
  cases i with
  | tick => exact absurd rfl hi
  | songInit => cases h
  | setDelta idx n => exact onTrack_keepsWait_of_ne (of_decide_eq_false h)
  | trackStart idx => exact onTrack_keepsWait_of_ne (of_decide_eq_false h)
  | trackFinish idx => exact finish_keepsWait (g := id) (of_decide_eq_false h) rfl
  | deviceFault idx => exact finish_keepsWait (g := note .deviceFault _) (of_decide_eq_false h) rfl
  | nop | timeSet | reverbTypeSet | statusClear | saveActive => exact next_keepsWait rfl
  | block => exact next_keepsWait (by simp)
  | regRead idx n => exact read_keepsWait (regRead_cases idx n s)
  | voicesQuery sel m => exact read_keepsWait (voicesQuery_cases sel m s)
  | slideValueTempo v => exact slideValueInstr_keepsWait .tempo 0 v
  | slideValueReverbDepth v => exact slideValueInstr_keepsWait .reverbDepth 0 v
  | slideValueVolume idx v => exact slideValueInstr_keepsWait .volume idx v
  | slideValuePan idx v => exact slideValueInstr_keepsWait .pan idx v
  | slideValuePitchBend idx v => exact slideValueInstr_keepsWait .pitchBend idx v
  | slideValueVibratoDepth idx v => exact slideValueInstr_keepsWait .vibratoDepth idx v
  | slideValueTremoloDepth idx v => exact slideValueInstr_keepsWait .tremoloDepth idx v
  | slideValuePanLfoDepth idx v => exact slideValueInstr_keepsWait .panLfoDepth idx v
  | slideValueOverlayBalance idx v => exact slideValueInstr_keepsWait .overlayBalance idx v
  | slideStartTempo n v => exact slideStartInstr_keepsWait .tempo 0 n v
  | slideStartReverbDepth n v => exact slideStartInstr_keepsWait .reverbDepth 0 n v
  | slideStartVolume idx n v => exact slideStartInstr_keepsWait .volume idx n v
  | slideStartPan idx n v => exact slideStartInstr_keepsWait .pan idx n v
  | slideStartPitchBend idx n v => exact slideStartInstr_keepsWait .pitchBend idx n v
  | slideStartVibratoDepth idx n v => exact slideStartInstr_keepsWait .vibratoDepth idx n v
  | slideStartTremoloDepth idx n v => exact slideStartInstr_keepsWait .tremoloDepth idx n v
  | slideStartPanLfoDepth idx n v => exact slideStartInstr_keepsWait .panLfoDepth idx n v
  | slideStartOverlayBalance idx n v => exact slideStartInstr_keepsWait .overlayBalance idx n v
  | keyOn | keyOff =>
    exact withVoice_keepsWait fun v => ite_keepsWait (next_keepsWait (by simp)) (next_keepsWait (by simp))
  | resolve => exact execResolve_keepsWait
  | noiseOn | noiseOff | reverbOn | reverbOff | plfoOn | plfoOff =>
    exact withVoice_keepsWait fun _ => next_keepsWait rfl
  | voiceBind =>
    exact withTrackVoice_keepsWait fun j _ => ite_keepsWait (raise_keepsWait _ _) (modifyTrack_keepsWait j fun _ => rfl)
  | overlayOn | alternateOn => exact withTrackVoice_keepsWait fun j _ => modifyTrack_keepsWait j fun _ => rfl
  | instrWrite e f v => exact execInstrWrite_keepsWait f v
  | loadInstr idx imm => exact execLoadInstr_keepsWait imm
  | voiceUnbind | secondaryOff | setAttackRate | setDecayRate | setSustainRate | setReleaseRate | setSustainLevel
  | setAttackMode | setDecayMode | setReleaseMode | setPitch | setVolume | setAddr | setLoopAddr =>
    exact onTrack_keepsWait fun _ => rfl

end

/-! Waking (R131). -/

/-- How many ticks a command executes in `s`: a TICK with a tick pending is one. -/
def ticksOf (i : Instr) (s : State) : Nat := if i = .tick ∧ s.ticksPending ≠ 0 then 1 else 0

theorem executedTicks_cons_of_next {i : Instr} {s t : State} (h : exec i s = .next t) (is : List Instr) :
    executedTicks (i :: is) s = ticksOf i s + executedTicks is t := by
  rw [executedTicks, h, ticksOf]

/-- An active track counts down the ticks of a command that does not write its wait. -/
theorem exec_countsDown {k : TrackIx} {i : Instr} {s t : State} (hk : IsTrack s.params k)
    (hactive : s.tracks[k].active = true) (hi : writesWait k i = false) (h : exec i s = .next t) :
    CountsDown (ticksOf i s) s.tracks[k] t.tracks[k] := by
  by_cases htick : i = .tick
  · subst htick
    by_cases hpending : s.ticksPending = 0
    · rw [exec_tick_of_none hpending] at h
      cases h
      rw [ticksOf, if_neg (fun hn => hn.2 hpending)]
      exact .zero rfl
    · rw [exec_tick_of_pending hpending] at h
      cases h
      rw [ticksOf, if_pos ⟨rfl, hpending⟩, ticked_getElem hk]
      exact countsDown_tickTrack _ hactive
  · rw [ticksOf, if_neg (fun hn => htick hn.1)]
    exact .zero (exec_keepsWait htick hi t h)

/-- An active track counts down the executed TICKs of a run that does not write its wait. -/
theorem execAll_countsDown {k : TrackIx} (is : List Instr) :
    ∀ s : State, IsTrack s.params k → s.tracks[k].active = true → (∀ i ∈ is, writesWait k i = false) →
      ∃ u, execAll is s = .next u ∧ CountsDown (executedTicks is s) s.tracks[k] u.tracks[k] := by
  induction is with
  | nil => exact fun s _ _ _ => ⟨s, rfl, .zero rfl⟩
  | cons i is ih =>
    intro s hk hactive hw
    obtain ⟨t, ht⟩ := (exec_ignoresPorts i s).answers
    have hfirst := exec_countsDown hk hactive (hw i List.mem_cons_self) ht
    have hparams : t.params = s.params := (exec_effect ht).params_eq
    obtain ⟨u, hu, hrest⟩ := ih t (hparams ▸ hk) (hfirst.1.trans hactive) fun j hj =>
      hw j (List.mem_cons_of_mem i hj)
    refine ⟨u, (execAll_cons_of_next ht is).trans hu, ?_⟩
    rw [executedTicks_cons_of_next ht]
    exact hfirst.trans hrest

theorem namesTrack_ofNat {p : Config.Params} {k : TrackIx} (hk : IsTrack p k) :
    NamesTrack p (BitVec.ofNat 8 k.val) k := by
  have hlt : k.val < 64 := k.isLt
  exact ⟨by rw [BitVec.toNat_ofNat, Nat.mod_eq_of_lt (by omega)], hk⟩

/-- Settles O27: SET_DELTA puts the track `d` ticks from waking, and the run counts them. -/
theorem trackWakesOnItsDeltaTick : Obligations.TrackWakesOnItsDeltaTick := by
  intro k d s is hk hactive hd hfits hw
  obtain ⟨s1, hload, -, hloaded⟩ := (setDeltaLoadsCounter (BitVec.ofNat 8 k.val) d s).1 k (namesTrack_ofNat hk)
  rw [narrow_of_fits hfits, decide_eq_false hd] at hloaded
  have hparams : s1.params = s.params := (exec_effect hload).params_eq
  obtain ⟨u, hu, -, hdelta, hwake⟩ := execAll_countsDown is s1 (hparams ▸ hk)
    ((congrArg Track.active hloaded).trans hactive) hw
  rw [hloaded] at hdelta hwake
  refine ⟨s1, u, hload, hu, ?_, hdelta⟩
  have hpos : 0 < d.toNat := by bv_omega
  rw [Bool.eq_iff_iff, hwake]
  simp [hpos]

end Sys2Proof.Machine
end

