-- ==== Sys2Proof/Proofs/TrackFinish.lean ====
section
/-! SUPPORT. The end of a track (41_timing.md R125): TRACK_FINISH (R126) and DEVICE_FAULT (R127). -/

namespace Sys2Proof.Machine

section
variable (o : Option Voice) (s : State) (v : Voice)

/-! The three key bits of a voice after a bound voice, if there is one, is released (43_voice.md R190). -/

theorem hasVoice_releaseBound_keyOff : hasVoice (releaseBound o s).keyOffVoices v =
    (hasVoice s.keyOffVoices v ||
      (decide (o = some v) && hasVoice s.keyedVoices v && decide (v.toNat < s.params.bitsetWidth.val))) := by
  cases o with
  | none => simp [releaseBound]
  | some w =>
    rw [releaseBound, release_keyOffVoices]
    by_cases hw : v = w
    · subst hw
      by_cases hbit : v.toNat < s.params.bitsetWidth.val
      · cases hkeyed : hasVoice s.keyedVoices v <;> simp [hasVoice_setVoice_self _ hbit, hbit]
      · simp [setVoice_of_ge _ (Nat.not_lt.mp hbit), hbit]
    · rw [apply_ite (hasVoice · v), hasVoice_setVoice_ne _ hw]
      simp [Ne.symm hw]

theorem hasVoice_releaseBound_keyOn : hasVoice (releaseBound o s).keyOnVoices v =
    (hasVoice s.keyOnVoices v && !decide (o = some v)) := by
  cases o with
  | none => simp [releaseBound]
  | some w =>
    rw [releaseBound, release_keyOnVoices]
    by_cases hw : v = w
    · subst hw
      simp
    · rw [hasVoice_clearVoice_ne _ hw]
      simp [Ne.symm hw]

theorem hasVoice_releaseBound_active : hasVoice (releaseBound o s).activeVoices v =
    (hasVoice s.activeVoices v && (!decide (o = some v) || hasVoice s.keyedVoices v)) := by
  cases o with
  | none => simp [releaseBound]
  | some w =>
    rw [releaseBound, release_activeVoices]
    by_cases hw : v = w
    · subst hw
      cases hkeyed : hasVoice s.keyedVoices v <;> simp
    · rw [apply_ite (hasVoice · v), hasVoice_clearVoice_ne _ hw]
      simp [Ne.symm hw]

/-- Releasing writes three key bitsets and emits nothing. -/
theorem releaseBound_frame : releaseBound o s = { s with
    keyOffVoices := (releaseBound o s).keyOffVoices
    keyOnVoices := (releaseBound o s).keyOnVoices
    activeVoices := (releaseBound o s).activeVoices } := by
  cases o with
  | none => rfl
  | some w =>
    rw [releaseBound, release]
    split <;> rfl

end

section
variable (k : TrackIx) (s : State) (v : Voice)

/-! The key bits after `finish`: both bound voices are released, and no voice that the track does not hold. -/

theorem hasVoice_finish_keyOff : hasVoice (finish k s).keyOffVoices v =
    (hasVoice s.keyOffVoices v || (boundTo s.tracks[k] v && hasVoice s.keyedVoices v &&
      decide (v.toNat < s.params.bitsetWidth.val))) := by
  rw [finish, modifyTrack_keyOffVoices, hasVoice_releaseBound_keyOff, hasVoice_releaseBound_keyOff,
    releaseBound_keyedVoices, releaseBound_params, Bool.or_assoc, boundTo, Bool.and_assoc, Bool.and_assoc,
    ← Bool.and_or_distrib_right, Bool.and_assoc]

theorem hasVoice_finish_keyOn : hasVoice (finish k s).keyOnVoices v =
    (hasVoice s.keyOnVoices v && !boundTo s.tracks[k] v) := by
  rw [finish, modifyTrack_keyOnVoices, hasVoice_releaseBound_keyOn, hasVoice_releaseBound_keyOn, Bool.and_assoc,
    boundTo, Bool.not_or]

theorem hasVoice_finish_active : hasVoice (finish k s).activeVoices v =
    (hasVoice s.activeVoices v && (!boundTo s.tracks[k] v || hasVoice s.keyedVoices v)) := by
  rw [finish, modifyTrack_activeVoices, hasVoice_releaseBound_active, hasVoice_releaseBound_active,
    releaseBound_keyedVoices, Bool.and_assoc, boundTo, Bool.not_or, Bool.or_and_distrib_right]

/-- `finish` writes three key bitsets and the tracks, and emits nothing. -/
theorem finish_frame : finish k s = { s with
    keyOffVoices := (finish k s).keyOffVoices
    keyOnVoices := (finish k s).keyOnVoices
    activeVoices := (finish k s).activeVoices
    tracks := (finish k s).tracks } := by
  have hfirst := releaseBound_frame s.tracks[k].primary s
  have hsecond := releaseBound_frame (s.tracks[k].secondary.map Secondary.voice) (releaseBound s.tracks[k].primary s)
  calc finish k s
      = { releaseBound (s.tracks[k].secondary.map Secondary.voice) (releaseBound s.tracks[k].primary s) with
          tracks := (finish k s).tracks } := rfl
    _ = { releaseBound s.tracks[k].primary s with
          keyOffVoices := (finish k s).keyOffVoices
          keyOnVoices := (finish k s).keyOnVoices
          activeVoices := (finish k s).activeVoices
          tracks := (finish k s).tracks } :=
      congrArg (fun x : State => { x with tracks := (finish k s).tracks }) hsecond
    _ = _ := congrArg (fun x : State => { x with
          keyOffVoices := (finish k s).keyOffVoices
          keyOnVoices := (finish k s).keyOnVoices
          activeVoices := (finish k s).activeVoices
          tracks := (finish k s).tracks }) hfirst

end

theorem exec_trackFinish_of_names {p : Config.Params} {idx : BitVec 8} {k : TrackIx} {s : State} (hp : s.params = p)
    (hk : NamesTrack p idx k) : exec (.trackFinish idx) s = .next (finish k s) := by
  subst hp
  rw [exec, execTrackFinish, withTrack, trackOperand_of_names hk]

theorem exec_deviceFault_of_names {idx : BitVec 8} {k : TrackIx} {s : State} (hk : NamesTrack s.params idx k) :
    exec (.deviceFault idx) s = .next (finish k (raised .deviceFault 0x08 s)) := by
  rw [exec, execDeviceFault, withTrack, trackOperand_of_names hk, note_eq_raised]
  rfl

/-- Settles O30. -/
theorem trackFinishReleasesAndIdles : Obligations.TrackFinishReleasesAndIdles := fun _ s =>
  ⟨fun k hk => ⟨finish k s, exec_trackFinish_of_names rfl hk,
    fun v => ⟨hasVoice_finish_keyOff k s v, hasVoice_finish_keyOn k s v, hasVoice_finish_active k s v⟩,
    finish_getElem_self k s, fun _ hu => finish_getElem_ne s hu, finish_frame k s⟩,
    fun h => withTrack_of_ge h _⟩

/-- Settles O31: the note writes no operand of `finish`, and `finish` neither `OUT` nor `ERROR`. -/
theorem deviceFaultNotesAndFinishes : Obligations.DeviceFaultNotesAndFinishes := by
  refine fun idx s => ⟨fun h => ?finish, fun h => withTrack_of_ge h _⟩
  case finish =>
    obtain ⟨k, hk⟩ := names_of_lt h
    refine ⟨_, exec_deviceFault_of_names hk, exec_trackFinish_of_names rfl hk, finish_out k _, ?_⟩
    have hbit : (1#10 <<< diagCode .deviceFault).getLsbD 6 = true := getLsbD_diagMask .deviceFault .deviceFault
    rw [finish_error, raised_error, BitVec.getLsbD_or, hbit, Bool.or_true]

end Sys2Proof.Machine
end

