-- ==== Sys2Proof/Proofs/TimeSet.lean ====
section
/-! SUPPORT. What the time counter influences (41_timing.md R128): two states that differ in it and in `RESULT` run
alike, as long as the counters agree in the bits that make ticks. -/

namespace Sys2Proof.Machine

/-- `s` with `c` in the time counter and `x` in `RESULT`. -/
def atTime (c x : Word) (s : State) : State := { s with timeCounter := c, result := x }

/-- The answer `r` with `c` in the time counter and `x` in `RESULT` of its next state. -/
def answerAtTime (c x : Word) (r : StepResult) : StepResult :=
  match r with
  | .next t => .next (atTime c x t)
  | .fault e => .fault e
  | .refused e => .refused e

section
variable {c x : Word} {s : State} {op idx : BitVec 8}

/-! The commands that neither read nor write the two: one rule per shape. -/

theorem ite_atTime {p : Prop} [Decidable p] {a a' b b' : StepResult} (ha : a' = answerAtTime c x a)
    (hb : b' = answerAtTime c x b) : (if p then a' else b') = answerAtTime c x (if p then a else b) := by
  rw [ha, hb, apply_ite (answerAtTime c x)]

theorem withTrack_atTime {act act' : TrackIx → StepResult} (h : ∀ k, act' k = answerAtTime c x (act k)) :
    withTrack op idx (atTime c x s) act' = answerAtTime c x (withTrack op idx s act) := by
  have hp : (atTime c x s).params = s.params := rfl
  rw [withTrack, withTrack, hp]
  cases trackOperand s.params idx with
  | none => rfl
  | some k => exact h k

theorem withVoice_atTime {act act' : Voice → StepResult} (h : ∀ v, act' v = answerAtTime c x (act v)) :
    withVoice op idx (atTime c x s) act' = answerAtTime c x (withVoice op idx s act) := by
  have hp : (atTime c x s).params = s.params := rfl
  rw [withVoice, withVoice, hp]
  cases voiceOperand s.params idx with
  | none => rfl
  | some v => exact h v

theorem withTrackVoice_atTime {imm : BitVec 16} {act act' : TrackIx → Voice → StepResult}
    (h : ∀ k v, act' k v = answerAtTime c x (act k v)) :
    withTrackVoice op idx imm (atTime c x s) act' = answerAtTime c x (withTrackVoice op idx imm s act) := by
  have hp : (atTime c x s).params = s.params := rfl
  rw [withTrackVoice, withTrackVoice, hp]
  cases trackOperand s.params idx with
  | none => rfl
  | some k =>
    cases immVoiceOperand s.params imm with
    | none => rfl
    | some v => exact h k v

theorem modifySlide_atTime (k : SlideKind) (t : TrackIx) (f : Slide → Slide) :
    modifySlide k t f (atTime c x s) = atTime c x (modifySlide k t f s) := by
  cases k <;> rfl

theorem onSlide_atTime (k : SlideKind) (f : Slide → Slide) :
    onSlide k op idx f (atTime c x s) = answerAtTime c x (onSlide k op idx f s) := by
  have hnext (t : TrackIx) : (.next (modifySlide k t f (atTime c x s)) : StepResult) =
      answerAtTime c x (.next (modifySlide k t f s)) := congrArg _ (modifySlide_atTime k t f)
  exact ite_atTime (withTrack_atTime hnext) (hnext 0)

theorem slideValueInstr_atTime (k : SlideKind) (idx : BitVec 8) (v : Word) :
    exec (slideValueInstr k idx v) (atTime c x s) = answerAtTime c x (exec (slideValueInstr k idx v) s) := by
  rw [exec_slideValueInstr, exec_slideValueInstr]
  exact onSlide_atTime k _

theorem slideStartInstr_atTime (k : SlideKind) (idx : BitVec 8) (n : BitVec 16) (v : Word) :
    exec (slideStartInstr k idx n v) (atTime c x s) = answerAtTime c x (exec (slideStartInstr k idx n v) s) := by
  rw [exec_slideStartInstr, exec_slideStartInstr]
  exact onSlide_atTime k _

theorem release_atTime (v : Voice) : release v (atTime c x s) = atTime c x (release v s) := by
  by_cases h : hasVoice s.keyedVoices v <;> simp [release, atTime, h]

theorem releaseBound_atTime (o : Option Voice) : releaseBound o (atTime c x s) = atTime c x (releaseBound o s) := by
  cases o with
  | none => rfl
  | some v => exact release_atTime v

theorem finish_atTime (k : TrackIx) : finish k (atTime c x s) = atTime c x (finish k s) := by
  have htracks : (atTime c x s).tracks = s.tracks := rfl
  rw [finish, htracks, releaseBound_atTime, releaseBound_atTime]
  rfl

theorem addTicks_atTime (n : Nat) : addTicks op n (atTime c x s) = atTime c x (addTicks op n s) := by
  by_cases h : 2 ^ s.params.tpWidth.val - 1 < s.ticksPending.toNat + n <;> simp [addTicks, atTime, note, emit, h]

theorem execInstrWrite_atTime (f : BitVec 16) (v : Word) :
    execInstrWrite idx f v (atTime c x s) = answerAtTime c x (execInstrWrite idx f v s) := by
  have hp : (atTime c x s).params = s.params := rfl
  rw [execInstrWrite, execInstrWrite, hp]
  refine ite_atTime rfl ?_
  cases entryOperand s.params idx with
  | none => rfl
  | some e => rfl

theorem execLoadInstr_atTime (imm : BitVec 16) :
    execLoadInstr idx imm (atTime c x s) = answerAtTime c x (execLoadInstr idx imm s) :=
  withTrack_atTime fun k => by
    have hp : (atTime c x s).params = s.params := rfl
    rw [hp]
    cases instrOperand s.params imm with
    | none => rfl
    | some e => exact ite_atTime rfl rfl

/-- A command that neither reads the time counter nor writes it or `RESULT`. -/
theorem exec_atTime {i : Instr} (hb : i ≠ .block) (ht : ∀ v, i ≠ .timeSet v) (hs : i ≠ .songInit)
    (hr : ∀ k n, i ≠ .regRead k n) (hq : ∀ k m, i ≠ .voicesQuery k m) :
    exec i (atTime c x s) = answerAtTime c x (exec i s) := by
  cases i with
  | block => exact absurd rfl hb
  | timeSet v => exact absurd rfl (ht v)
  | songInit => exact absurd rfl hs
  | regRead k n => exact absurd rfl (hr k n)
  | voicesQuery k m => exact absurd rfl (hq k m)
  | nop | reverbTypeSet | statusClear | resolve | saveActive => rfl
  | tick => exact ite_atTime rfl rfl
  | trackFinish => exact withTrack_atTime fun k => congrArg _ (finish_atTime k)
  | deviceFault => exact withTrack_atTime fun k => congrArg _ (finish_atTime (s := note .deviceFault _ s) k)
  | slideValueTempo v => exact slideValueInstr_atTime .tempo 0 v
  | slideValueReverbDepth v => exact slideValueInstr_atTime .reverbDepth 0 v
  | slideValueVolume idx v => exact slideValueInstr_atTime .volume idx v
  | slideValuePan idx v => exact slideValueInstr_atTime .pan idx v
  | slideValuePitchBend idx v => exact slideValueInstr_atTime .pitchBend idx v
  | slideValueVibratoDepth idx v => exact slideValueInstr_atTime .vibratoDepth idx v
  | slideValueTremoloDepth idx v => exact slideValueInstr_atTime .tremoloDepth idx v
  | slideValuePanLfoDepth idx v => exact slideValueInstr_atTime .panLfoDepth idx v
  | slideValueOverlayBalance idx v => exact slideValueInstr_atTime .overlayBalance idx v
  | slideStartTempo n v => exact slideStartInstr_atTime .tempo 0 n v
  | slideStartReverbDepth n v => exact slideStartInstr_atTime .reverbDepth 0 n v
  | slideStartVolume idx n v => exact slideStartInstr_atTime .volume idx n v
  | slideStartPan idx n v => exact slideStartInstr_atTime .pan idx n v
  | slideStartPitchBend idx n v => exact slideStartInstr_atTime .pitchBend idx n v
  | slideStartVibratoDepth idx n v => exact slideStartInstr_atTime .vibratoDepth idx n v
  | slideStartTremoloDepth idx n v => exact slideStartInstr_atTime .tremoloDepth idx n v
  | slideStartPanLfoDepth idx n v => exact slideStartInstr_atTime .panLfoDepth idx n v
  | slideStartOverlayBalance idx n v => exact slideStartInstr_atTime .overlayBalance idx n v
  | keyOn => exact withVoice_atTime fun _ => ite_atTime rfl rfl
  | keyOff =>
    exact withVoice_atTime fun v => ite_atTime (congrArg _ (release_atTime (s := note .keyoffNotKeyed _ s) v))
      (congrArg _ (release_atTime v))
  | noiseOn | noiseOff | reverbOn | reverbOff | plfoOn | plfoOff => exact withVoice_atTime fun _ => rfl
  | voiceBind => exact withTrackVoice_atTime fun _ _ => ite_atTime rfl rfl
  | overlayOn | alternateOn => exact withTrackVoice_atTime fun _ _ => rfl
  | instrWrite e f v => exact execInstrWrite_atTime f v
  | loadInstr idx imm => exact execLoadInstr_atTime imm
  | setDelta | trackStart | voiceUnbind | secondaryOff | setAttackRate | setDecayRate | setSustainRate
  | setReleaseRate | setSustainLevel | setAttackMode | setDecayMode | setReleaseMode | setPitch | setVolume
  | setAddr | setLoopAddr => exact withTrack_atTime fun _ => rfl

end

/-! What a counter keeps of two values that agree in their low bits. -/

/-- What `w` bits keep of two values agrees in the low `f` bits where the values do, also where `w` is below `f`. -/
theorem narrow_mod_congr {a b : Word} {f : Nat} (w : Nat) (h : a.toNat % 2 ^ f = b.toNat % 2 ^ f) :
    (narrow w a).toNat % 2 ^ f = (narrow w b).toNat % 2 ^ f := by
  rw [narrow_toNat, narrow_toNat]
  rcases Nat.le_total f w with hle | hle
  · rw [Nat.mod_mod_of_dvd _ (Nat.pow_dvd_pow 2 hle), Nat.mod_mod_of_dvd _ (Nat.pow_dvd_pow 2 hle), h]
  · have hw (n : Nat) : n % 2 ^ w = n % 2 ^ f % 2 ^ w := (Nat.mod_mod_of_dvd n (Nat.pow_dvd_pow 2 hle)).symm
    rw [hw a.toNat, hw b.toNat, h]

theorem add_mod_congr {a b : Word} {f : Nat} (hf : f ≤ 32) (tempo : Word)
    (h : a.toNat % 2 ^ f = b.toNat % 2 ^ f) : (a + tempo).toNat % 2 ^ f = (b + tempo).toNat % 2 ^ f := by
  have hsum (y : Word) : (y + tempo).toNat % 2 ^ f = (y.toNat % 2 ^ f + tempo.toNat) % 2 ^ f := by
    rw [BitVec.toNat_add, Nat.mod_mod_of_dvd _ (Nat.pow_dvd_pow 2 hf), Nat.mod_add_mod]
  rw [hsum, hsum, h]

/-! States alike but for the time. -/

/-- `t` is `s` but for `RESULT` and for the time counter, whose bits below `FRAC_BITS`, those that make ticks (R120),
are as in `s`. -/
def AlikeButTime (s t : State) : Prop :=
  ∃ c x, t = atTime c x s ∧ c.toNat % 2 ^ s.params.fracBits.val = s.timeCounter.toNat % 2 ^ s.params.fracBits.val

/-- `i` takes `s` and `s'` to states alike but for the time, and to the same `RESULT` from the same unless it reads the
time counter. -/
def StepsAlike (i : Instr) (s s' : State) : Prop :=
  ∃ t t', exec i s = .next t ∧ exec i s' = .next t' ∧ AlikeButTime t t' ∧
    ((∀ idx, i ≠ .regRead idx 0x003) → s'.result = s.result → t'.result = t.result)

section
variable {s s' : State}

theorem block_stepsAlike (h : AlikeButTime s s') : StepsAlike .block s s' := by
  obtain ⟨c, x, rfl, hc⟩ := h
  have hblock : exec .block (atTime c x s) = .next (atTime (narrow s.params.tcWidth (c + s.tempo.value)) x
      (stepTempo (addTicks 0x01 ((s.timeCounter.toNat % 2 ^ s.params.fracBits.val + s.tempo.value.toNat) /
        2 ^ s.params.fracBits.val) (advanceTime s)))) := by
    rw [exec_block, ← hc]
    exact congrArg (fun t => Host.Outcome.next (stepTempo t)) (addTicks_atTime (s := advanceTime s) _)
  refine ⟨_, _, exec_block s, hblock, ⟨_, _, rfl, ?_⟩, fun _ hx => ?_⟩
  · simpa using narrow_mod_congr s.params.tcWidth.val
      (add_mod_congr (Nat.lt_succ_iff.mp s.params.fracBits.isLt) s.tempo.value hc)
  · exact Eq.trans hx (by simp)

theorem timeSet_stepsAlike (v : Word) (h : AlikeButTime s s') : StepsAlike (.timeSet v) s s' := by
  obtain ⟨c, x, rfl, -⟩ := h
  exact ⟨_, _, rfl, rfl, ⟨narrow s.params.tcWidth v, x, rfl, rfl⟩, fun _ hx => hx⟩

theorem songInit_stepsAlike (h : AlikeButTime s s') : StepsAlike .songInit s s' := by
  obtain ⟨c, x, rfl, -⟩ := h
  exact ⟨_, _, rfl, rfl, ⟨0, x, rfl, rfl⟩, fun _ hx => hx⟩

theorem regOfNumber_eq_timeCounter {n : Nat} (h : regOfNumber n = some .timeCounter) : n = 0x003 := by
  unfold regOfNumber at h
  split_ifs at h
  · unfold slideReg at h
    split at h <;> cases h
  · cases h
  · unfold plainReg at h
    split at h <;> simp_all

/-- No register but the time counter is a view of it or of `RESULT` (10_state.md R23). -/
theorem readReg_atTime {r : Reg} (hr : r ≠ .timeCounter) (k : TrackIx) (e : Nat) (c x : Word) (s : State) :
    readReg r k e (atTime c x s) = readReg r k e s := by
  cases r with
  | timeCounter => exact absurd rfl hr
  | _ => rfl

/-- REG_READ in the states with the parameters of `s`: it latches one and the same register in each, or raises in
each. -/
theorem regRead_latches_or_refuses (idx : BitVec 8) (n : BitVec 16) (s : State) :
    (∃ r k e, regOfNumber n.toNat = some r ∧
      ∀ t : State, t.params = s.params → exec (.regRead idx n) t = .next (latch (readReg r k e t) t)) ∨
    ∃ d, ReadRefuses (.regRead idx n) s d := by
  cases hr : regOfNumber n.toNat with
  | none => exact .inr ⟨.badReg, fun t _ => exec_regRead_unmapped hr⟩
  | some r =>
    cases hi : regIndex r with
    | none => exact .inl ⟨r, 0, 0, rfl, fun t _ => exec_regRead_player hr hi⟩
    | track =>
      by_cases h : idx.toNat < s.params.numTracks.val
      · obtain ⟨k, hk⟩ := names_of_lt h
        exact .inl ⟨r, k, 0, rfl, fun t ht => exec_regRead_track hr hi (ht ▸ hk)⟩
      · exact .inr ⟨.indexRange, fun t ht => exec_regRead_no_track hr hi (ht ▸ Nat.not_lt.mp h)⟩
    | entry =>
      by_cases h : idx.toNat < s.params.numInstr.val
      · exact .inl ⟨r, 0, idx.toNat, rfl, fun t ht => exec_regRead_entry hr hi (ht ▸ h)⟩
      · exact .inr ⟨.indexRange, fun t ht => exec_regRead_no_entry hr hi (ht ▸ Nat.not_lt.mp h)⟩

/-- A command that raises for its operands and the parameters alone. -/
theorem refused_stepsAlike {i : Instr} {d : Diag} (hd : ReadRefuses i s d) (h : AlikeButTime s s') :
    StepsAlike i s s' := by
  obtain ⟨c, x, rfl, hc⟩ := h
  exact ⟨_, _, hd s rfl, hd (atTime c x s) rfl, ⟨c, 0, rfl, hc⟩, fun _ _ => rfl⟩

theorem regRead_stepsAlike (idx : BitVec 8) (n : BitVec 16) (h : AlikeButTime s s') :
    StepsAlike (.regRead idx n) s s' := by
  rcases regRead_latches_or_refuses idx n s with ⟨r, k, e, hr, hread⟩ | ⟨d, hd⟩
  · obtain ⟨c, x, rfl, hc⟩ := h
    refine ⟨_, _, hread s rfl, hread (atTime c x s) rfl, ⟨c, readReg r k e (atTime c x s), rfl, hc⟩, fun hn _ => ?_⟩
    refine readReg_atTime (fun htime => ?_) k e c x s
    have hn3 : n = 0x003 := BitVec.eq_of_toNat_eq (regOfNumber_eq_timeCounter (htime ▸ hr))
    exact hn idx (by rw [hn3])
  · exact refused_stepsAlike hd h

theorem voicesQuery_stepsAlike (sel : BitVec 8) (m : Word) (h : AlikeButTime s s') :
    StepsAlike (.voicesQuery sel m) s s' := by
  obtain ⟨c, x, rfl, hc⟩ := h
  have hb : selectBitset (atTime c x s) sel = selectBitset s sel := rfl
  simp only [StepsAlike, exec, execVoicesQuery, hb]
  cases selectBitset s sel with
  | none => exact ⟨_, _, rfl, rfl, ⟨c, 0, rfl, hc⟩, fun _ _ => rfl⟩
  | some b => exact ⟨_, _, rfl, rfl, ⟨c, b &&& m, rfl, hc⟩, fun _ _ => rfl⟩

/-- The commands of `exec_atTime` keep the time counter and `RESULT`, in whichever state they run. -/
theorem stepsAlike_of_atTime {i : Instr} (hb : i ≠ .block) (ht : ∀ v, i ≠ .timeSet v) (hs : i ≠ .songInit)
    (hr : ∀ k n, i ≠ .regRead k n) (hq : ∀ k m, i ≠ .voicesQuery k m) (h : AlikeButTime s s') :
    StepsAlike i s s' := by
  obtain ⟨c, x, rfl, hc⟩ := h
  obtain ⟨t, hexec⟩ := (exec_ignoresPorts i s).answers
  have he := exec_effect hexec
  have hexec' : exec i (atTime c x s) = .next (atTime c x t) := by
    rw [exec_atTime hb ht hs hr hq, hexec]
    rfl
  refine ⟨t, _, hexec, hexec', ⟨c, x, rfl, ?_⟩, fun _ hx => ?_⟩
  · rw [he.params_eq, he.timeCounter_eq hb ht hs, hc]
  · exact Eq.trans hx (he.result_eq hr hq).symm

theorem exec_stepsAlike (i : Instr) (h : AlikeButTime s s') : StepsAlike i s s' := by
  cases i with
  | block => exact block_stepsAlike h
  | timeSet v => exact timeSet_stepsAlike v h
  | songInit => exact songInit_stepsAlike h
  | regRead idx n => exact regRead_stepsAlike idx n h
  | voicesQuery sel m => exact voicesQuery_stepsAlike sel m h
  | _ => exact stepsAlike_of_atTime nofun nofun nofun nofun nofun h

end

/-- Runs from states alike but for the time end in such states (R128). -/
theorem execAll_alikeButTime (is : List Instr) : ∀ {s s' : State}, AlikeButTime s s' →
    ∃ t t', execAll is s = .next t ∧ execAll is s' = .next t' ∧ AlikeButTime t t' ∧
      ((∀ idx, Instr.regRead idx 0x003 ∉ is) → s'.result = s.result → t'.result = t.result) := by
  induction is with
  | nil => exact fun {s s'} h => ⟨s, s', rfl, rfl, h, fun _ hx => hx⟩
  | cons i is ih =>
    intro s s' h
    obtain ⟨t, t', ht, ht', halike, hresult⟩ := exec_stepsAlike i h
    obtain ⟨u, u', hu, hu', halike', hresult'⟩ := ih halike
    refine ⟨u, u', (execAll_cons_of_next ht is).trans hu, (execAll_cons_of_next ht' is).trans hu', halike',
      fun hno hx => hresult' (fun idx hmem => hno idx (List.mem_cons_of_mem i hmem)) (hresult (fun idx hi => ?_) hx)⟩
    exact hno idx (hi ▸ List.mem_cons_self)

/-- No run writes the parameters. -/
theorem execAll_params_eq {is : List Instr} {s t : State} (h : execAll is s = .next t) : t.params = s.params := by
  induction is generalizing s with
  | nil =>
    cases h
    rfl
  | cons i is ih =>
    obtain ⟨u, hu⟩ := (exec_ignoresPorts i s).answers
    rw [execAll_cons_of_next hu] at h
    exact (ih h).trans (exec_effect hu).params_eq

theorem exec_timeSet (v : Word) (s : State) :
    exec (.timeSet v) s = .next { s with timeCounter := narrow s.params.tcWidth v } := rfl

/-- Settles O32: after TIME_SET of either value the states are alike but for the time. -/
theorem timeSetWritesCounter : Obligations.TimeSetWritesCounter := by
  refine ⟨fun v s => ?write, fun v v' s is hfrac => ?runs⟩
  case write =>
    have hnarrow : narrow s.params.tcWidth v = BitVec.ofNat 32 (v.toNat % 2 ^ s.params.tcWidth.val) :=
      BitVec.eq_of_toNat_eq (by simp [narrow])
    rw [exec_timeSet, hnarrow]
  case runs =>
    have halike : AlikeButTime { s with timeCounter := narrow s.params.tcWidth v }
        { s with timeCounter := narrow s.params.tcWidth v' } :=
      ⟨_, s.result, rfl, narrow_mod_congr _ hfrac.symm⟩
    obtain ⟨t, t', ht, ht', ⟨c, x, rfl, hc⟩, hresult⟩ := execAll_alikeButTime is halike
    have hrun : execAll (.timeSet v :: is) s = .next t := (execAll_cons_of_next (exec_timeSet v s) is).trans ht
    have hrun' : execAll (.timeSet v' :: is) s = .next (atTime c x t) :=
      (execAll_cons_of_next (exec_timeSet v' s) is).trans ht'
    exact ⟨t, _, hrun, hrun', rfl, execAll_params_eq hrun ▸ hc, fun hno => hresult hno rfl⟩

end Sys2Proof.Machine
end

