-- ==== Sys2Proof/Proofs/SlideSteps.lean ====
section
/-! SUPPORT. The number a slide unit's `value` register holds, and how it moves over one step and over many
(42_slide.md R150, R152, R153). -/

namespace Sys2Proof.Machine

/-! Numbers and the register patterns that hold them. -/

theorem slideNum_eq_ite (p : Config.Params) (k : SlideKind) (v : Word) :
    slideNum p k v = if k = .tempo then (v.toNat : Int) else (v.setWidth p.slideValueWidth.val).toInt := by
  cases k <;> rfl

theorem slideData_eq_ite (k : SlideKind) (x : Word) :
    slideData k x = if k = .tempo then (x.toNat : Int) else x.toInt := by
  cases k <;> rfl

/-- The low bits of an integer's pattern are its pattern in that width. -/
theorem setWidth_ofInt_of_le {n w : Nat} (h : w ≤ n) (x : Int) :
    (BitVec.ofInt n x).setWidth w = BitVec.ofInt w x := by
  have hn : (0 : Int) < 2 ^ n := by positivity
  have hdvd : (2 : Int) ^ w ∣ 2 ^ n := pow_dvd_pow 2 h
  refine BitVec.eq_of_toInt_eq ?_
  rw [BitVec.toInt_setWidth, BitVec.toInt_ofInt, BitVec.toNat_ofInt]
  push_cast
  rw [Int.toNat_of_nonneg (Int.emod_nonneg x hn.ne'), ← Int.emod_bmod (x % 2 ^ n)]
  push_cast
  rw [Int.emod_emod_of_dvd x hdvd]
  exact_mod_cast Int.emod_bmod x (2 ^ w)

theorem slideBits_eq_setWidth (p : Config.Params) (x : Int) :
    slideBits p x = (BitVec.ofInt p.slideValueWidth.val x).setWidth 32 :=
  congrArg (BitVec.setWidth 32) (setWidth_ofInt_of_le (Nat.lt_succ_iff.mp p.slideValueWidth.isLt) x)

/-- A number that the `value` register can hold is read back from its pattern. -/
theorem slideNum_slideBits {p : Config.Params} {k : SlideKind} {x : Int} (hl : (valueRange p k).lo ≤ x)
    (hh : x ≤ (valueRange p k).hi) : slideNum p k (slideBits p x) = x := by
  have hw : p.slideValueWidth.val ≤ 32 := Nat.lt_succ_iff.mp p.slideValueWidth.isLt
  rw [slideBits_eq_setWidth]
  cases k with
  | tempo =>
    change 0 ≤ x at hl
    change x ≤ 2 ^ p.slideValueWidth.val - 1 at hh
    obtain ⟨m, rfl⟩ := Int.eq_ofNat_of_zero_le hl
    have hm : m < 2 ^ p.slideValueWidth.val := by exact_mod_cast (show (m : Int) < 2 ^ p.slideValueWidth.val by omega)
    rw [slideNum, BitVec.toNat_setWidth_of_le hw, BitVec.ofInt_natCast, BitVec.toNat_ofNat, Nat.mod_eq_of_lt hm]
  | reverbDepth | volume | pan | pitchBend | vibratoDepth | tremoloDepth | panLfoDepth | overlayBalance =>
    change -(2 ^ p.slideValueWidth.val / 2) ≤ x at hl
    change x ≤ 2 ^ p.slideValueWidth.val / 2 - 1 at hh
    rw [slideNum, BitVec.setWidth_setWidth_of_le _ hw, BitVec.setWidth_eq, BitVec.toInt_ofInt]
    refine Int.bmod_eq_of_le ?_ ?_ <;> push_cast <;> omega

/-- The pattern of the number that a register reads as is what the register holds. -/
theorem slideBits_slideNum (p : Config.Params) (k : SlideKind) (v : Word) :
    slideBits p (slideNum p k v) = narrow p.slideValueWidth v := by
  cases k with
  | tempo => rw [slideNum, slideBits, BitVec.ofInt_natCast, BitVec.ofNat_toNat, BitVec.setWidth_eq]
  | reverbDepth | volume | pan | pitchBend | vibratoDepth | tremoloDepth | panLfoDepth | overlayBalance =>
    rw [slideNum, slideBits_eq_setWidth, BitVec.ofInt_toInt]
    rfl

/-- What a `slope` register keeps of an operand is read as the operand's low bits. -/
theorem slopeNum_narrow (p : Config.Params) (slope : Word) :
    slopeNum p (narrow p.slideSlopeWidth slope) = (slope.setWidth p.slideSlopeWidth.val).toInt := by
  refine congrArg BitVec.toInt (BitVec.eq_of_toNat_eq ?_)
  rw [BitVec.toNat_setWidth, narrow_toNat, Nat.mod_mod, BitVec.toNat_setWidth]

theorem slopeNum_zero (p : Config.Params) : slopeNum p 0 = 0 := by simp [slopeNum]

/-! The default ranges (00_scope.md R7). -/

theorem slideRange_default (k : SlideKind) : slideRange Config.defaultParams k =
    ⟨if k = .tempo then 0 else -2 ^ 31, if k = .tempo then 2 ^ 32 - 1 else 2 ^ 31 - 1⟩ := by
  cases k <;> rfl

/-- With R7's widths and ranges a kind's range is all that its register can hold. -/
theorem valueRange_default (k : SlideKind) : valueRange Config.defaultParams k = slideRange Config.defaultParams k := by
  cases k <;> rfl

theorem slideRange_default_ordered (k : SlideKind) :
    (slideRange Config.defaultParams k).lo ≤ (slideRange Config.defaultParams k).hi := by
  cases k <;> decide

theorem slideNum_default_mem (k : SlideKind) (v : Word) :
    (slideRange Config.defaultParams k).lo ≤ slideNum Config.defaultParams k v ∧
      slideNum Config.defaultParams k v ≤ (slideRange Config.defaultParams k).hi := by
  have hnat : v.toNat < 2 ^ 32 := v.isLt
  have hlo : -2 ^ 31 ≤ v.toInt := BitVec.le_toInt v
  have hhi : v.toInt < 2 ^ 31 := BitVec.toInt_lt
  have hwidth : (v.setWidth Config.defaultParams.slideValueWidth.val).toInt = v.toInt :=
    congrArg BitVec.toInt (BitVec.setWidth_eq v)
  rw [slideNum_eq_ite, slideRange_default, hwidth]
  split <;> constructor <;> simp only <;> omega

/-! One step (R150). -/

theorem clampTo_eq_max_min {r : Config.SlideRange} (x : Int) (h : r.lo ≤ r.hi) :
    clampTo r x = max r.lo (min r.hi x) := by
  unfold clampTo
  split
  · omega
  · split <;> omega

/-- What a register that can hold the kind's range reads as after a clamped number is written to it. -/
theorem slideNum_slideBits_clampTo {p : Config.Params} {k : SlideKind}
    (hlo : (valueRange p k).lo ≤ (slideRange p k).lo) (hhi : (slideRange p k).hi ≤ (valueRange p k).hi)
    (h : (slideRange p k).lo ≤ (slideRange p k).hi) (x : Int) :
    slideNum p k (slideBits p (clampTo (slideRange p k) x)) = clampTo (slideRange p k) x := by
  obtain ⟨hl, hh⟩ := clampTo_mem x h
  exact slideNum_slideBits (hlo.trans hl) (hh.trans hhi)

/-- Settles O34: with R7's ranges the register holds whatever the clamp gives. -/
theorem slideStepAddsAndClamps : Obligations.SlideStepAddsAndClamps := by
  refine ⟨slideStep_remaining_zero, fun p k u h => ?moving, fun k u h => ?saturates⟩
  case moving =>
    rw [slideStep_of_remaining_ne p k u h, slideNum_eq_ite]
    rfl
  case saturates =>
    have hslope : slopeNum Config.defaultParams u.slope = u.slope.toInt := congrArg BitVec.toInt (BitVec.setWidth_eq _)
    have hheld := valueRange_default k
    rw [slideStep_of_remaining_ne _ k u h, slideNum_slideBits_clampTo (hheld ▸ le_refl _) (hheld ▸ le_refl _)
      (slideRange_default_ordered k), clampTo_eq_max_min _ (slideRange_default_ordered k), hslope, slideRange_default]

/-! Many steps. -/

theorem slideSteps_of_remaining_zero (p : Config.Params) (k : SlideKind) {u : Slide} (h : u.remaining = 0) (n : Nat) :
    slideSteps p k n u = u := by
  induction n with
  | zero => rfl
  | succ n ih => rw [slideSteps, slideStep_remaining_zero p k u h, ih]

/-- The law of R152 for a unit that has `remaining` steps to go. -/
theorem slideSteps_reaches {p : Config.Params} {k : SlideKind} (hlo : (valueRange p k).lo ≤ (slideRange p k).lo)
    (hhi : (slideRange p k).hi ≤ (valueRange p k).hi) (n : Nat) : ∀ u : Slide, u.remaining.toNat ≤ n →
    (∀ i : Nat, i ≤ u.remaining.toNat → (slideRange p k).lo ≤ slideNum p k u.value + i * slopeNum p u.slope ∧
      slideNum p k u.value + i * slopeNum p u.slope ≤ (slideRange p k).hi) →
    slideNum p k (slideSteps p k n u).value = slideNum p k u.value + u.remaining.toNat * slopeNum p u.slope ∧
      (slideSteps p k n u).remaining = 0 := by
  induction n with
  | zero =>
    intro u hn _
    have h0 : u.remaining = 0 := BitVec.eq_of_toNat_eq (Nat.le_zero.mp hn)
    simp [slideSteps, h0]
  | succ n ih =>
    intro u hn hin
    by_cases h0 : u.remaining = 0
    · simp [slideSteps_of_remaining_zero p k h0, h0]
    · obtain ⟨r, hr⟩ : ∃ r, u.remaining.toNat = r + 1 := Nat.exists_eq_add_one.mpr (by bv_omega)
      have hpred : (u.remaining - 1).toNat = r := by bv_omega
      obtain ⟨hl, hh⟩ := hin 1 (by omega)
      rw [Nat.cast_one, one_mul] at hl hh
      have hnum : slideNum p k (slideBits p (clampTo (slideRange p k) (slideNum p k u.value + slopeNum p u.slope))) =
          slideNum p k u.value + slopeNum p u.slope := by
        rw [clampTo_of_mem hl hh, slideNum_slideBits (hlo.trans hl) (hh.trans hhi)]
      have hmove (i : Nat) : slideNum p k u.value + slopeNum p u.slope + i * slopeNum p u.slope =
          slideNum p k u.value + (i + 1 : Nat) * slopeNum p u.slope := by
        push_cast
        ring
      have hrest := ih (slideStep p k u)
      rw [slideStep_of_remaining_ne p k u h0] at hrest
      simp only [hpred, hnum, hmove] at hrest
      rw [slideSteps, slideStep_of_remaining_ne p k u h0, hr]
      exact hrest (by omega) fun i hi => hin (i + 1) (by omega)

/-- Settles O35: the clamp keeps V, so the unit starts at it, and the law of the moving unit applies. -/
theorem slideReachesTargetExactly : Obligations.SlideReachesTargetExactly := by
  intro p k u v slope len n S N hlo hhi hin hn
  obtain ⟨hl, hh⟩ := hin 0 (Nat.zero_le _)
  rw [Nat.cast_zero, zero_mul, add_zero] at hl hh
  have hvalue : slideNum p k (slideSetValue p k v u).value = slideData k v := by
    rw [slideSetValue, clampTo_of_mem hl hh, slideNum_slideBits (hlo.trans hl) (hh.trans hhi)]
  have hslope : slopeNum p (narrow p.slideSlopeWidth slope) = S := slopeNum_narrow p slope
  have hlen : (narrow p.slideLenWidth.val len).toNat = N := narrow_toNat _ len
  have hreach := slideSteps_reaches hlo hhi n (slideSetSlope p len slope (slideSetValue p k v u))
  simp only [slideSetSlope, hvalue, hslope, hlen] at hreach
  exact hreach hn hin

/-- A slope of 0 moves no value that the register can hold and the range admits. -/
theorem slideStep_value_of_slope_zero {p : Config.Params} {k : SlideKind} {u : Slide} (hs : u.slope = 0)
    (hfits : Fits p.slideValueWidth.val u.value) (hl : (slideRange p k).lo ≤ slideNum p k u.value)
    (hh : slideNum p k u.value ≤ (slideRange p k).hi) : (slideStep p k u).value = u.value := by
  by_cases h0 : u.remaining = 0
  · rw [slideStep_remaining_zero p k u h0]
  · rw [slideStep_of_remaining_ne p k u h0, hs, slopeNum_zero, add_zero, clampTo_of_mem hl hh, slideBits_slideNum,
      narrow_of_fits hfits]

@[simp] theorem slideStep_slope (p : Config.Params) (k : SlideKind) (u : Slide) :
    (slideStep p k u).slope = u.slope := by
  unfold slideStep
  split <;> rfl

theorem slideSteps_value_of_slope_zero {p : Config.Params} {k : SlideKind} (n : Nat) : ∀ u : Slide, u.slope = 0 →
    Fits p.slideValueWidth.val u.value → (slideRange p k).lo ≤ slideNum p k u.value →
    slideNum p k u.value ≤ (slideRange p k).hi → (slideSteps p k n u).value = u.value := by
  induction n with
  | zero => exact fun _ _ _ _ _ => rfl
  | succ n ih =>
    intro u hs hfits hl hh
    have hstep := slideStep_value_of_slope_zero hs hfits hl hh
    have hrest := ih (slideStep p k u) ((slideStep_slope p k u).trans hs)
    rw [hstep] at hrest
    exact hrest hfits hl hh

/-- Settles O36: with R7's widths and ranges every register value is within both. -/
theorem restingSlideKeepsValue : Obligations.RestingSlideKeepsValue := by
  refine ⟨fun p k u n h => ?rests, fun k u n hs => ?default⟩
  case rests =>
    rcases h with h0 | ⟨hs, hfits, hl, hh⟩
    · rw [slideSteps_of_remaining_zero p k h0]
    · exact slideSteps_value_of_slope_zero n u hs hfits hl hh
  case default =>
    obtain ⟨hl, hh⟩ := slideNum_default_mem k u.value
    exact slideSteps_value_of_slope_zero n u hs u.value.isLt hl hh

end Sys2Proof.Machine
end

