-- ==== Sys2Proof/Proofs/SlideCommands.lean ====
section
/-! SUPPORT. What SLIDE_VALUE.k and SLIDE_START.k change and what they leave (42_slide.md R154, R155, R174). -/

namespace Sys2Proof.Machine

theorem opcodeOf_slideValueInstr (k : SlideKind) (idx : BitVec 8) (x : Word) :
    opcodeOf (slideValueInstr k idx x) = BitVec.ofNat 8 (0x10 + slideNumber k) := by
  cases k <;> rfl

theorem opcodeOf_slideStartInstr (k : SlideKind) (idx : BitVec 8) (len : BitVec 16) (slope : Word) :
    opcodeOf (slideStartInstr k idx len slope) = BitVec.ofNat 8 (0x20 + slideNumber k) := by
  cases k <;> rfl

/-- The player's kinds have one unit, whatever the track. -/
theorem modifySlide_of_player {k : SlideKind} (h : slideIsPerTrack k = false) (t u : TrackIx) (f : Slide → Slide)
    (s : State) : modifySlide k t f s = modifySlide k u f s := by
  cases k with
  | tempo | reverbDepth => rfl
  | volume | pan | pitchBend | vibratoDepth | tremoloDepth | panLfoDepth | overlayBalance => cases h

/-- A change of a track's slides alone changes slides alone. -/
theorem modifyTrack_onlySlidesChange {f : Track → Track} (t : TrackIx) (s : State)
    (hf : ∀ tr : Track, f tr = { tr with
      volume := (f tr).volume
      pan := (f tr).pan
      pitchBend := (f tr).pitchBend
      vibratoDepth := (f tr).vibratoDepth
      tremoloDepth := (f tr).tremoloDepth
      panLfoDepth := (f tr).panLfoDepth
      overlayBalance := (f tr).overlayBalance }) : OnlySlidesChange s (modifyTrack t f s) := by
  refine ⟨rfl, fun u => ?_⟩
  by_cases h : u = t
  · subst h
    rw [modifyTrack_getElem_self]
    exact hf _
  · rw [modifyTrack_getElem_ne f s h]

theorem modifySlide_onlySlidesChange (k : SlideKind) (t : TrackIx) (f : Slide → Slide) (s : State) :
    OnlySlidesChange s (modifySlide k t f s) := by
  cases k with
  | tempo | reverbDepth => exact ⟨rfl, fun _ => rfl⟩
  | volume | pan | pitchBend | vibratoDepth | tremoloDepth | panLfoDepth | overlayBalance =>
    simp only [modifySlide]
    exact modifyTrack_onlySlidesChange t s fun _ => rfl

theorem onSlide_of_names {k : SlideKind} {op idx : BitVec 8} {u : TrackIx} {s : State}
    (h : slideIsPerTrack k = true → NamesTrack s.params idx u) (f : Slide → Slide) :
    onSlide k op idx f s = .next (modifySlide k u f s) := by
  cases hk : slideIsPerTrack k with
  | false =>
    rw [modifySlide_of_player hk u 0]
    simp [onSlide, hk]
  | true => simp [onSlide, hk, withTrack, trackOperand_of_names (h hk)]

theorem onSlide_of_ge {k : SlideKind} {op idx : BitVec 8} {s : State} (hk : slideIsPerTrack k = true)
    (h : s.params.numTracks.val ≤ idx.toNat) (f : Slide → Slide) :
    onSlide k op idx f s = .next (raised .indexRange op s) :=
  (if_pos hk).trans (withTrack_of_ge h _)

/-- What a slide command changes and what it leaves (R174). -/
theorem modifySlide_changes_one_unit (k : SlideKind) (u : TrackIx) (f : Slide → Slide) (s : State) :
    slideUnit k u (modifySlide k u f s) = f (slideUnit k u s) ∧
    (∀ (k' : SlideKind) (u' : TrackIx), k' ≠ k ∨ (slideIsPerTrack k = true ∧ u' ≠ u) →
      slideUnit k' u' (modifySlide k u f s) = slideUnit k' u' s) ∧
    OnlySlidesChange s (modifySlide k u f s) := by
  refine ⟨slideUnit_modifySlide_self k u f s, fun k' u' h => ?others, modifySlide_onlySlidesChange k u f s⟩
  case others =>
    by_cases hk : k' = k
    · subst hk
      obtain ⟨htrack, hne⟩ := h.resolve_left (not_not_intro rfl)
      exact slideUnit_modifySlide_track_ne f s htrack hne
    · exact slideUnit_modifySlide_kind_ne u u' f s hk

/-- Settles O37. -/
theorem slideValueSetsUnit : Obligations.SlideValueSetsUnit := by
  intro k idx x s
  rw [exec_slideValueInstr, opcodeOf_slideValueInstr]
  refine ⟨fun u hu => ⟨_, onSlide_of_names hu _, ?unit⟩, fun hk h => onSlide_of_ge hk h _⟩
  case unit =>
    rw [← slideData_eq_ite]
    exact modifySlide_changes_one_unit k u (slideSetValue s.params k x) s

/-- Settles O38. -/
theorem slideStartSetsSlopeAndLength : Obligations.SlideStartSetsSlopeAndLength := by
  intro k idx len slope s
  rw [exec_slideStartInstr, opcodeOf_slideStartInstr]
  exact ⟨fun u hu => ⟨_, onSlide_of_names hu _,
      modifySlide_changes_one_unit k u (slideSetSlope s.params len slope) s⟩,
    fun hk h => onSlide_of_ge hk h _⟩

end Sys2Proof.Machine
end

