-- ==== Sys2Proof/Proofs/KeyCommands.lean ====
section
/-! SUPPORT. The commands that name one voice (43_voice.md R190 to R192, R196 to R201), and the two that copy a bitset:
SAVE_ACTIVE (R195) and VOICES_QUERY (R202). -/

namespace Sys2Proof.Machine

/-! The bit of a voice operand, as the bitsets hold it (00_scope.md R9, 30_encoding.md R98). -/

section
variable {p : Config.Params} {idx : BitVec 8} (b : Word)

/-- A voice operand in `idx` below `NUM_VOICES` is the number of its voice. -/
theorem idxVoice_toNat_of_lt (h : idx.toNat < p.numVoices.val) : (idx.setWidth 5 : Voice).toNat = idx.toNat := by
  have hn : p.numVoices.val < 33 := p.numVoices.isLt
  rw [BitVec.toNat_setWidth, Nat.mod_eq_of_lt]
  omega

theorem hasVoice_idxVoice (h : idx.toNat < p.numVoices.val) :
    hasVoice b (idx.setWidth 5) = b.getLsbD idx.toNat := by
  rw [hasVoice, idxVoice_toNat_of_lt h]

theorem setVoice_idxVoice (h : idx.toNat < p.numVoices.val) :
    setVoice p.bitsetWidth b (idx.setWidth 5) = b ||| bitOf p idx.toNat := by
  rw [setVoice, voiceBit, idxVoice_toNat_of_lt h]
  rfl

theorem clearVoice_idxVoice (h : idx.toNat < p.numVoices.val) :
    clearVoice b (idx.setWidth 5) = b &&& ~~~(1#32 <<< idx.toNat) := by
  rw [clearVoice, idxVoice_toNat_of_lt h]
  rfl

end

section
variable {op idx : BitVec 8} {s : State}

theorem withVoice_of_lt (h : idx.toNat < s.params.numVoices.val) (act : Voice → StepResult) :
    withVoice op idx s act = act (idx.setWidth 5) := by
  rw [withVoice, voiceOperand_of_lt h]

theorem withVoice_of_ge (h : s.params.numVoices.val ≤ idx.toNat) (act : Voice → StepResult) :
    withVoice op idx s act = .next (raised .indexRange op s) := by
  rw [withVoice, voiceOperand_of_ge h, raise_eq]

/-! The key requests (R191, R192). -/

/-- KEY_ON on a voice in range: the note where the voice is keyed and not key-off-pending, then the request. -/
theorem exec_keyOn_of_lt (h : idx.toNat < s.params.numVoices.val) :
    exec (.keyOn idx) s = .next (requestKeyOn (idx.setWidth 5)
      (if s.keyedVoices.getLsbD idx.toNat = true ∧ s.keyOffVoices.getLsbD idx.toNat = false
        then raised .keyonKeyed 0x30 s else s)) := by
  rw [exec, execKeyOn, withVoice_of_lt h, hasVoice_idxVoice _ h, hasVoice_idxVoice _ h, note_eq_raised]
  simp only [Bool.and_eq_true, Bool.not_eq_true']
  split <;> rfl

/-- KEY_OFF on a voice in range: the note where the voice is neither keyed nor key-on-pending, then the release. -/
theorem exec_keyOff_of_lt (h : idx.toNat < s.params.numVoices.val) :
    exec (.keyOff idx) s = .next (release (idx.setWidth 5)
      (if s.keyedVoices.getLsbD idx.toNat = false ∧ s.keyOnVoices.getLsbD idx.toNat = false
        then raised .keyoffNotKeyed 0x31 s else s)) := by
  rw [exec, execKeyOff, withVoice_of_lt h, hasVoice_idxVoice _ h, hasVoice_idxVoice _ h, note_eq_raised]
  simp only [Bool.and_eq_true, Bool.not_eq_true']
  split <;> rfl

end

/-- The request on a voice operand, by bits. -/
theorem requestKeyOn_idxVoice {idx : BitVec 8} {s : State} (h : idx.toNat < s.params.numVoices.val) :
    requestKeyOn (idx.setWidth 5) s = { s with
      activeVoices := s.activeVoices ||| bitOf s.params idx.toNat
      keyOnVoices := s.keyOnVoices ||| bitOf s.params idx.toNat
      keyOffVoices := s.keyOffVoices &&& ~~~(1#32 <<< idx.toNat) } := by
  rw [requestKeyOn, setVoice_idxVoice _ h, setVoice_idxVoice _ h, clearVoice_idxVoice _ h]

/-- The release of a voice operand, by bits (R190). -/
theorem release_idxVoice {idx : BitVec 8} {s : State} (h : idx.toNat < s.params.numVoices.val) :
    release (idx.setWidth 5) s = if s.keyedVoices.getLsbD idx.toNat = true
      then { s with keyOffVoices := s.keyOffVoices ||| bitOf s.params idx.toNat
                    keyOnVoices := s.keyOnVoices &&& ~~~(1#32 <<< idx.toNat) }
      else { s with keyOnVoices := s.keyOnVoices &&& ~~~(1#32 <<< idx.toNat)
                    activeVoices := s.activeVoices &&& ~~~(1#32 <<< idx.toNat) } := by
  rw [release, hasVoice_idxVoice _ h, setVoice_idxVoice _ h, clearVoice_idxVoice _ h, clearVoice_idxVoice _ h]

/-- Settles O39: the note changes neither the parameters nor a bitset, so the request is the same after it. -/
theorem keyOnRequestsKeyOn : Obligations.KeyOnRequestsKeyOn := by
  refine fun idx s => ⟨fun h => ?request, fun h => withVoice_of_ge h _⟩
  case request =>
    rw [exec_keyOn_of_lt h]
    split
    · exact congrArg _ (requestKeyOn_idxVoice (s := raised .keyonKeyed 0x30 s) h)
    · exact congrArg _ (requestKeyOn_idxVoice h)

/-- Settles O40: the note changes neither the parameters nor a bitset, so the release is the same after it. -/
theorem keyOffReleasesVoice : Obligations.KeyOffReleasesVoice := by
  refine fun idx s => ⟨fun h => ?release, fun h => withVoice_of_ge h _⟩
  case release =>
    rw [exec_keyOff_of_lt h]
    split
    · exact congrArg _ (release_idxVoice (s := raised .keyoffNotKeyed 0x31 s) h)
    · exact congrArg _ (release_idxVoice h)

/-- Settles O44: each command is `withVoice` around one bitset update. -/
theorem featureCommandsToggleBit : Obligations.FeatureCommandsToggleBit := by
  refine fun idx s => ⟨fun h => ?toggle, fun h => ⟨withVoice_of_ge h _, withVoice_of_ge h _, withVoice_of_ge h _,
    withVoice_of_ge h _, withVoice_of_ge h _, withVoice_of_ge h _⟩⟩
  case toggle =>
    simp only [← setVoice_idxVoice _ h, ← clearVoice_idxVoice _ h]
    exact ⟨withVoice_of_lt h _, withVoice_of_lt h _, withVoice_of_lt h _, withVoice_of_lt h _, withVoice_of_lt h _,
      withVoice_of_lt h _⟩

/-- Settles O45. -/
theorem saveActiveTakesSnapshot : Obligations.SaveActiveTakesSnapshot := fun _ => rfl

/-- Selector `n` names the register with number 0x010 + `n` (30_encoding.md R99). -/
theorem selectBitset_eq_register {sel : BitVec 8} (h : sel.toNat < 8) (s : State) :
    ∃ r, regOfNumber (0x010 + sel.toNat) = some r ∧ selectBitset s sel = some (readReg r 0 0 s) := by
  unfold selectBitset
  match sel.toNat, h with
  | 0, _ => exact ⟨.activeVoices, rfl, rfl⟩
  | 1, _ => exact ⟨.keyOnVoices, rfl, rfl⟩
  | 2, _ => exact ⟨.keyedVoices, rfl, rfl⟩
  | 3, _ => exact ⟨.keyOffVoices, rfl, rfl⟩
  | 4, _ => exact ⟨.savedActiveVoices, rfl, rfl⟩
  | 5, _ => exact ⟨.noiseVoices, rfl, rfl⟩
  | 6, _ => exact ⟨.reverbVoices, rfl, rfl⟩
  | 7, _ => exact ⟨.pitchLfoVoices, rfl, rfl⟩

/-- Settles O19. -/
theorem voicesQueryMasksBitset : Obligations.VoicesQueryMasksBitset := by
  refine fun sel mask s => ⟨fun h => ?answer, fun h => ?refuse⟩
  case answer =>
    obtain ⟨r, hr, hselect⟩ := selectBitset_eq_register h s
    exact ⟨r, hr, by rw [exec, execVoicesQuery, hselect]⟩
  case refuse =>
    rw [exec, execVoicesQuery, (selectBitset_eq_none_iff s sel).mpr h]
    exact raise_eq _ _ _

end Sys2Proof.Machine
end

