-- ==== Sys2Proof/Proofs/Resolve.lean ====
section
/-! SUPPORT. RESOLVE (43_voice.md R193, R194): what a track emits, what the whole command emits and commits. -/

namespace Sys2Proof.Machine

/-! Emission of one track (R194). -/

/-- The dirty groups of a track, the numbers of the set bits of `UPDATE` (10_state.md R43). -/
def dirtyGroups (tr : Track) : List Nat := (List.range 5).filter fun i => tr.update.getLsbD i

theorem groupEvents_eq_map (tr : Track) (v : Voice) (l r : BitVec 16) :
    groupEvents tr v (l, r) = (dirtyGroups tr).map (groupEvent tr v l r) := by
  have hrange : List.range 5 = [0] ++ [1] ++ [2] ++ [3] ++ [4] := rfl
  simp only [dirtyGroups, hrange, List.filter_append, List.map_append, List.filter_singleton, Bool.cond_eq_ite,
    groupEvents, apply_ite (List.map (groupEvent tr v l r)), List.map_singleton, List.map_nil, groupEvent]

/-- Emission clears the flags of a bound track only. -/
theorem emittedTrack_eq (tr : Track) :
    emittedTrack tr = if tr.primary = none ∧ tr.secondary = none then tr else { tr with update := 0 } := by
  by_cases h : tr.primary = none ∧ tr.secondary = none
  · simp [emittedTrack, trackBound, h]
  · have hbound : trackBound tr = true := (trackBound_iff tr).mpr (not_and_or.mp h)
    rw [emittedTrack, if_pos hbound, if_neg h]

/-- Settles O43: the groups of the primary, then those of the secondary with its own volume pair. -/
theorem trackEmitsDirtyGroups : Obligations.TrackEmitsDirtyGroups := by
  refine fun p tr => ⟨congrArg₂ (· ++ ·) ?primary ?secondary, emittedTrack_eq tr⟩
  case primary =>
    cases tr.primary with
    | none => rfl
    | some v => exact groupEvents_eq_map tr v _ _
  case secondary =>
    cases tr.secondary with
    | none => rfl
    | some b => exact groupEvents_eq_map tr b.voice _ _

/-! The whole command (R193). -/

theorem exec_resolve (s : State) : exec .resolve s = .next (resolveKeys (resolveFeatures (resolveTracks s))) := rfl

/-- Settles O42: the three steps of the command in order. -/
theorem resolveEmitsAndCommits : Obligations.ResolveEmitsAndCommits := by
  refine fun s => ⟨_, exec_resolve s, ?events,
    fun u hu => (mapTracks_getElem_of_isTrack _ _ hu).trans (emittedTrack_eq s.tracks[u]),
    fun u hu => mapTracks_getElem_of_not_isTrack _ _ hu, rfl⟩
  case events =>
    have hn : s.params.numVoices.val ≤ 32 := Nat.lt_succ_iff.mp s.params.numVoices.isLt
    rw [resolve_out, resolveEvents, featureEvents, ascending_eq_voicesOf hn, ascending_eq_voicesOf hn]
    simp only [List.append_assoc, liveTracks]

/-! The key events of RESOLVE. -/

/-- The events that key a voice on or off (10_state.md R60). -/
def isKeyEvent : Event → Bool
  | .keyOff _ | .keyOn _ => true
  | .setAddr _ _ | .setLoopAddr _ _ | .setAdsr _ _ | .setPitch _ _ | .setVolume _ _ _ | .noiseWord _ | .reverbWord _
  | .pitchLfoWord _ | .diag _ _ => false

theorem groupEvent_not_key (tr : Track) (v : Voice) (l r : BitVec 16) (i : Nat) :
    isKeyEvent (groupEvent tr v l r i) = false := by
  unfold groupEvent
  split <;> rfl

theorem groupEvents_not_key (tr : Track) (v : Voice) (vol : BitVec 16 × BitVec 16) :
    ∀ e ∈ groupEvents tr v vol, isKeyEvent e = false := by
  intro e he
  rw [groupEvents_eq_map] at he
  obtain ⟨i, -, rfl⟩ := List.mem_map.mp he
  exact groupEvent_not_key tr v _ _ i

theorem trackEvents_not_key (p : Config.Params) (tr : Track) : ∀ e ∈ trackEvents p tr, isKeyEvent e = false := by
  intro e he
  unfold trackEvents at he
  rcases List.mem_append.mp he with he | he <;> split at he
  · cases he
  · exact groupEvents_not_key _ _ _ e he
  · cases he
  · exact groupEvents_not_key _ _ _ e he

theorem featureEvents_not_key (s : State) : ∀ e ∈ featureEvents s, isKeyEvent e = false := by
  simp [featureEvents, or_imp, forall_and, isKeyEvent]

/-- The key events of RESOLVE are those of its third step. -/
theorem mem_resolveEvents_of_key {e : Event} (he : isKeyEvent e = true) (s : State) : e ∈ resolveEvents s ↔
    e ∈ (voicesOf s.params.numVoices s.keyOffVoices).map Event.keyOff ∨
      e ∈ (voicesOf s.params.numVoices s.keyOnVoices).map Event.keyOn := by
  have htracks : e ∉ (liveTracks s).flatMap (trackEvents s.params) := by
    intro h
    obtain ⟨tr, -, htr⟩ := List.mem_flatMap.mp h
    simp [trackEvents_not_key _ _ e htr] at he
  have hfeatures : e ∉ featureEvents s := fun h => by simp [featureEvents_not_key s e h] at he
  rw [resolveEvents, List.mem_append, List.mem_append, List.mem_append]
  exact or_iff_right (not_or.mpr ⟨htracks, hfeatures⟩)

section
variable {s : State} {v : Voice}

theorem keyOn_mem_resolveEvents (h : v.toNat < s.params.numVoices.val) :
    Event.keyOn v ∈ resolveEvents s ↔ hasVoice s.keyOnVoices v = true := by
  rw [mem_resolveEvents_of_key rfl]
  simp [mem_voicesOf (Nat.lt_succ_iff.mp s.params.numVoices.isLt), h]

theorem keyOff_mem_resolveEvents (h : v.toNat < s.params.numVoices.val) :
    Event.keyOff v ∈ resolveEvents s ↔ hasVoice s.keyOffVoices v = true := by
  rw [mem_resolveEvents_of_key rfl]
  simp [mem_voicesOf (Nat.lt_succ_iff.mp s.params.numVoices.isLt), h]

end

end Sys2Proof.Machine
end

