-- ==== Sys2Proof/Proofs/VoiceStates.lean ====
section
/-! SUPPORT. The per-voice state machine (10_state.md R32): the table of its transitions (43_voice.md R209). -/

namespace Sys2Proof.Machine

/-- The four bits of a voice that spell its state (R32). -/
structure KeyBits where
  active : Bool
  keyOn : Bool
  keyed : Bool
  keyOff : Bool

/-- The bits of voice `v` in `s`. -/
def keyBits (s : State) (v : Voice) : KeyBits :=
  ⟨hasVoice s.activeVoices v, hasVoice s.keyOnVoices v, hasVoice s.keyedVoices v, hasVoice s.keyOffVoices v⟩

/-- The bits that spell a voice state, row by row of R32. -/
def stateBits : VoiceState → KeyBits
  | .idle => ⟨false, false, false, false⟩
  | .keyOnPending => ⟨true, true, false, false⟩
  | .keyed => ⟨true, false, true, false⟩
  | .rekeyPending => ⟨true, true, true, false⟩
  | .keyOffPending => ⟨true, false, true, true⟩

theorem voiceState_eq_some_iff (s : State) (v : Voice) (x : VoiceState) :
    voiceState s v = some x ↔ keyBits s v = stateBits x := by
  unfold voiceState keyBits
  cases x <;> split <;> simp_all [stateBits]

section
variable {s : State} {v : Voice} {x : VoiceState}

/-- The bits of a voice whose state is known, one by one. -/
theorem hasVoice_of_voiceState (hx : voiceState s v = some x) :
    hasVoice s.activeVoices v = (stateBits x).active ∧ hasVoice s.keyOnVoices v = (stateBits x).keyOn ∧
    hasVoice s.keyedVoices v = (stateBits x).keyed ∧ hasVoice s.keyOffVoices v = (stateBits x).keyOff := by
  rw [voiceState_eq_some_iff] at hx
  rw [← hx]
  exact ⟨rfl, rfl, rfl, rfl⟩

/-! One transition of the table for each operation that writes key bits. -/

theorem voiceState_requestKeyOn (hbit : v.toNat < s.params.bitsetWidth.val) (hx : voiceState s v = some x) :
    voiceState (requestKeyOn v s) v = some (afterKeyOn x) := by
  obtain ⟨-, -, hkeyed, -⟩ := hasVoice_of_voiceState hx
  rw [voiceState_eq_some_iff]
  have hbits : keyBits (requestKeyOn v s) v = ⟨true, true, (stateBits x).keyed, false⟩ := by
    simp [keyBits, hasVoice_setVoice_self _ hbit, hkeyed]
  rw [hbits]
  cases x <;> rfl

theorem voiceState_release (hbit : v.toNat < s.params.bitsetWidth.val) (hx : voiceState s v = some x) :
    voiceState (release v s) v = some (afterKeyOff x) := by
  obtain ⟨hactive, -, hkeyed, hoff⟩ := hasVoice_of_voiceState hx
  rw [voiceState_eq_some_iff]
  have hbits : keyBits (release v s) v = ⟨(stateBits x).active && (stateBits x).keyed, false, (stateBits x).keyed,
      (stateBits x).keyOff || (stateBits x).keyed⟩ := by
    cases hk : (stateBits x).keyed <;> simp [keyBits, hactive, hkeyed, hoff, hk, hasVoice_setVoice_self _ hbit]
  rw [hbits]
  cases x <;> rfl

theorem voiceState_resolve (hx : voiceState s v = some x) :
    voiceState (resolveKeys (resolveFeatures (resolveTracks s))) v = some (afterResolve x) := by
  obtain ⟨hactive, hon, hkeyed, hoff⟩ := hasVoice_of_voiceState hx
  rw [voiceState_eq_some_iff]
  have hbits : keyBits (resolveKeys (resolveFeatures (resolveTracks s))) v =
      ⟨(stateBits x).active && !(stateBits x).keyOff, false,
        (stateBits x).keyed && !(stateBits x).keyOff || (stateBits x).keyOn, false⟩ := by
    simp [keyBits, hactive, hon, hkeyed, hoff]
  rw [hbits]
  cases x <;> rfl

/-! The notes of KEY_ON and KEY_OFF, and the key events of RESOLVE, by the state of the voice. -/

theorem keyOn_noted_iff (hx : voiceState s v = some x) :
    hasVoice s.keyedVoices v = true ∧ hasVoice s.keyOffVoices v = false ↔ x = .keyed ∨ x = .rekeyPending := by
  obtain ⟨-, -, hkeyed, hoff⟩ := hasVoice_of_voiceState hx
  rw [hkeyed, hoff]
  cases x <;> simp [stateBits]

theorem keyOff_noted_iff (hx : voiceState s v = some x) :
    hasVoice s.keyedVoices v = false ∧ hasVoice s.keyOnVoices v = false ↔ x = .idle := by
  obtain ⟨-, hon, hkeyed, -⟩ := hasVoice_of_voiceState hx
  rw [hkeyed, hon]
  cases x <;> simp [stateBits]

theorem keyOn_pending_iff (hx : voiceState s v = some x) :
    hasVoice s.keyOnVoices v = true ↔ x = .keyOnPending ∨ x = .rekeyPending := by
  obtain ⟨-, hon, -⟩ := hasVoice_of_voiceState hx
  rw [hon]
  cases x <;> simp [stateBits]

theorem keyOff_pending_iff (hx : voiceState s v = some x) :
    hasVoice s.keyOffVoices v = true ↔ x = .keyOffPending := by
  obtain ⟨-, -, -, hoff⟩ := hasVoice_of_voiceState hx
  rw [hoff]
  cases x <;> simp [stateBits]

end

/-! A state with a note taken or not. -/

section
variable (c : Prop) [Decidable c] (d : Diag) (op : BitVec 8) (s : State)

theorem voiceState_ite_raised (v : Voice) : voiceState (if c then raised d op s else s) v = voiceState s v := by
  split <;> rfl

theorem params_ite_raised : (if c then raised d op s else s).params = s.params := by
  split <;> rfl

theorem out_ite_raised : (if c then raised d op s else s).out = s.out ++ if c then [.diag d op] else [] := by
  split
  · rfl
  · exact (List.append_nil _).symm

end

/-! A voice as the operand that names it. -/

theorem voiceOperand_toNat (v : Voice) : (v.setWidth 8).toNat = v.toNat := by
  have hv : v.toNat < 32 := v.isLt
  rw [BitVec.toNat_setWidth, Nat.mod_eq_of_lt (by omega)]

theorem voiceOperand_voice (v : Voice) : (v.setWidth 8).setWidth 5 = v :=
  BitVec.setWidth_setWidth_of_le v (by decide)

section
variable {s : State} {v : Voice} {x : VoiceState}

theorem exec_keyOn_transition (hv : v.toNat < s.params.numVoices.val) (hbit : v.toNat < s.params.bitsetWidth.val)
    (hx : voiceState s v = some x) :
    ∃ t : State, exec (.keyOn (v.setWidth 8)) s = .next t ∧ voiceState t v = some (afterKeyOn x) ∧
      t.out = s.out ++ (if x = .keyed ∨ x = .rekeyPending then [.diag .keyonKeyed 0x30] else []) := by
  have hexec := exec_keyOn_of_lt (idx := v.setWidth 8) (s := s) (by rwa [voiceOperand_toNat])
  rw [voiceOperand_voice, voiceOperand_toNat] at hexec
  refine ⟨_, hexec, voiceState_requestKeyOn ?bit ?state, ?out⟩
  case bit => rwa [params_ite_raised]
  case state => rwa [voiceState_ite_raised]
  case out =>
    rw [requestKeyOn_out, out_ite_raised]
    exact congrArg _ (if_congr (keyOn_noted_iff hx) rfl rfl)

theorem exec_keyOff_transition (hv : v.toNat < s.params.numVoices.val) (hbit : v.toNat < s.params.bitsetWidth.val)
    (hx : voiceState s v = some x) :
    ∃ t : State, exec (.keyOff (v.setWidth 8)) s = .next t ∧ voiceState t v = some (afterKeyOff x) ∧
      t.out = s.out ++ (if x = .idle then [.diag .keyoffNotKeyed 0x31] else []) := by
  have hexec := exec_keyOff_of_lt (idx := v.setWidth 8) (s := s) (by rwa [voiceOperand_toNat])
  rw [voiceOperand_voice, voiceOperand_toNat] at hexec
  refine ⟨_, hexec, voiceState_release ?bit ?state, ?out⟩
  case bit => rwa [params_ite_raised]
  case state => rwa [voiceState_ite_raised]
  case out =>
    rw [release_out, out_ite_raised]
    exact congrArg _ (if_congr (keyOff_noted_iff hx) rfl rfl)

end

/-- Settles O41: each column of the table by its own lemma. -/
theorem voiceTransitionTable : Obligations.VoiceTransitionTable := fun s v _ hv hbit hx =>
  ⟨exec_keyOn_transition hv hbit hx, exec_keyOff_transition hv hbit hx, voiceState_release hbit hx, release_out v s,
    _, resolveEvents s, exec_resolve s, voiceState_resolve hx, resolve_out s,
    (keyOn_mem_resolveEvents hv).trans (keyOn_pending_iff hx),
    (keyOff_mem_resolveEvents hv).trans (keyOff_pending_iff hx)⟩

end Sys2Proof.Machine
end

