-- ==== Sys2Proof/Proofs/Bindings.lean ====
section
/-! SUPPORT. The binding commands (43_voice.md R203 to R207): what each writes of its track. -/

namespace Sys2Proof.Machine

section
variable {op idx : BitVec 8} {imm : BitVec 16} {k : TrackIx} {s : State}

theorem withTrackVoice_of_names (hk : NamesTrack s.params idx k) (himm : imm.toNat < s.params.numVoices.val)
    (act : TrackIx → Voice → StepResult) :
    withTrackVoice op idx imm s act = act k (BitVec.ofNat 5 imm.toNat) := by
  rw [withTrackVoice, trackOperand_of_names hk, immVoiceOperand_of_lt himm, BitVec.ofNat_toNat]

theorem withTrackVoice_of_ge (h : s.params.numTracks.val ≤ idx.toNat ∨ s.params.numVoices.val ≤ imm.toNat)
    (act : TrackIx → Voice → StepResult) :
    withTrackVoice op idx imm s act = .next (raised .indexRange op s) := by
  rcases withTrackVoice_cases op idx imm s act with ⟨t, ⟨hidx, ht⟩, himm, -⟩ | ⟨-, e⟩
  · have hlt : idx.toNat < s.params.numTracks.val := hidx ▸ ht
    omega
  · exact e

/-- What `modifyTrack` leaves, as the statements about one track ask for it. -/
theorem exists_modifyTrack {r : StepResult} {f : Track → Track} (h : r = .next (modifyTrack k f s)) :
    ∃ t : State, r = .next t ∧ OnlyTrackChanges k s t ∧ t.tracks[k] = f s.tracks[k] :=
  ⟨_, h, modifyTrack_onlyTrackChanges k f s, modifyTrack_getElem_self k f s⟩

end

theorem exec_voiceBind_of_names {idx : BitVec 8} {imm : BitVec 16} {k : TrackIx} {s : State}
    (hk : NamesTrack s.params idx k) (himm : imm.toNat < s.params.numVoices.val) :
    exec (.voiceBind idx imm) s = if heldByOther k (BitVec.ofNat 5 imm.toNat) s
      then .next (raised .bindConflict 0x3B s)
      else .next (modifyTrack k
        (fun tr => { tr with primary := some (BitVec.ofNat 5 imm.toNat), update := updAll }) s) := by
  rw [exec, execVoiceBind, withTrackVoice_of_names hk himm, raise_eq]
  rfl

/-- Settles O46: `heldByOther` decides between the bind and the refusal. -/
theorem voiceBindBindsPrimary : Obligations.VoiceBindBindsPrimary := by
  refine fun idx imm s => ⟨fun k hk himm => ⟨fun hfree => ?bind, fun hheld => ?refuse⟩,
    fun h => withTrackVoice_of_ge h _⟩
  case bind =>
    have hno : heldByOther k (BitVec.ofNat 5 imm.toNat) s ≠ true := by
      rw [ne_eq, heldByOther_iff]
      rintro ⟨u, hu, hne, hp⟩
      exact hfree u hu hne hp
    exact exists_modifyTrack ((exec_voiceBind_of_names hk himm).trans (if_neg hno))
  case refuse => exact (exec_voiceBind_of_names hk himm).trans (if_pos (heldByOther_iff.mpr hheld))

/-- Settles O47. -/
theorem unbindCommandsReleaseBinding : Obligations.UnbindCommandsReleaseBinding := fun _ _ =>
  ⟨fun _ hk => ⟨exists_modifyTrack (onTrack_of_names rfl hk _), exists_modifyTrack (onTrack_of_names rfl hk _)⟩,
    fun h => ⟨withTrack_of_ge h _, withTrack_of_ge h _⟩⟩

/-- Settles O48: a secondary bind is `bindSecondary` of its track, whatever voices the other tracks hold. -/
theorem secondaryCommandsBindSecondary : Obligations.SecondaryCommandsBindSecondary := fun _ _ _ =>
  ⟨fun _ hk himm => ⟨exists_modifyTrack (f := bindSecondary _ .overlay) (withTrackVoice_of_names hk himm _),
      exists_modifyTrack (f := bindSecondary _ .alternate) (withTrackVoice_of_names hk himm _)⟩,
    fun h => ⟨withTrackVoice_of_ge h _, withTrackVoice_of_ge h _⟩⟩

end Sys2Proof.Machine
end

