-- ==== Sys2Proof/Proofs/VoiceInvariants.lean ====
section
/-! SUPPORT. What every command and every step keep of the voices: INV1 to INV4 (10_state.md R33) and the uniqueness of
the primary bindings (R42), as 43_voice.md R208 says. -/

namespace Sys2Proof.Machine

section
variable {s t : State} {i : Instr}

/-! INV1 to INV4, through the operations that write key bits. -/

theorem VoiceInv.requestKeyOn (h : VoiceInv s) (v : Voice) : VoiceInv (requestKeyOn v s) := by
  rw [voiceInv_iff] at h ⊢
  intro w
  obtain ⟨hkeyed, hon, hoff, hactive⟩ := h w
  simp only [requestKeyOn_keyedVoices, requestKeyOn_activeVoices, requestKeyOn_keyOnVoices, requestKeyOn_keyOffVoices]
  by_cases hw : w = v
  · subst hw
    by_cases hbit : w.toNat < s.params.bitsetWidth.val
    · simp [hasVoice_setVoice_self _ hbit]
    · rw [setVoice_of_ge _ (Nat.not_lt.mp hbit), setVoice_of_ge _ (Nat.not_lt.mp hbit)]
      simpa using ⟨hkeyed, hactive⟩
  · rw [hasVoice_setVoice_ne _ hw, hasVoice_setVoice_ne _ hw, hasVoice_clearVoice_ne _ hw]
    exact ⟨hkeyed, hon, hoff, hactive⟩

/-- A release clears `KEY_ON`, gives `KEY_OFF` to a keyed voice only, and takes `ACTIVE` from an unkeyed one only
(43_voice.md R190). -/
theorem VoiceInv.releaseBound (h : VoiceInv s) (o : Option Voice) : VoiceInv (releaseBound o s) := by
  rw [voiceInv_iff] at h ⊢
  intro w
  obtain ⟨hkeyed, hon, hoff, hactive⟩ := h w
  rw [releaseBound_keyedVoices, hasVoice_releaseBound_active, hasVoice_releaseBound_keyOn,
    hasVoice_releaseBound_keyOff]
  by_cases ho : o = some w
  · simp only [ho, decide_true, Bool.not_true, Bool.and_false, Bool.false_or, Bool.true_and, Bool.and_eq_true,
      Bool.or_eq_true]
    exact ⟨fun hk => ⟨hkeyed hk, hk⟩, nofun, fun hx => hx.elim hoff And.left, nofun⟩
  · simpa [ho] using ⟨hkeyed, hon, hoff, hactive⟩

theorem VoiceInv.finish (h : VoiceInv s) (k : TrackIx) : VoiceInv (finish k s) :=
  (h.releaseBound s.tracks[k].primary).releaseBound (s.tracks[k].secondary.map Secondary.voice)

/-- The commit keys the key-on-pending voices, which INV2 and INV4 keep active (43_voice.md R193). -/
theorem VoiceInv.resolve (h : VoiceInv s) : VoiceInv (resolveKeys (resolveFeatures (resolveTracks s))) := by
  rw [voiceInv_iff] at h ⊢
  intro w
  obtain ⟨hkeyed, hon, -, hactive⟩ := h w
  refine ⟨?keyed, fun hx => absurd hx (by simp), fun hx => absurd hx (by simp), fun hx => absurd hx (by simp)⟩
  case keyed =>
    simp only [resolveKeys_keyedVoices, resolveKeys_activeVoices, resolveFeatures_keyedVoices,
      resolveFeatures_activeVoices, resolveFeatures_keyOnVoices, resolveFeatures_keyOffVoices,
      resolveTracks_keyedVoices, resolveTracks_activeVoices, resolveTracks_keyOnVoices, resolveTracks_keyOffVoices,
      hasVoice_or, hasVoice_and, hasVoice_not, Bool.or_eq_true, Bool.and_eq_true, Bool.not_eq_true']
    rintro (⟨hk, hx⟩ | hx)
    · exact ⟨hkeyed hk, hx⟩
    · exact ⟨hactive hx, hon hx⟩

theorem CommandEffect.voiceInv (h : CommandEffect s i t) (hs : VoiceInv s) : VoiceInv t := by
  cases h with
  | keyOn idx v => exact hs.requestKeyOn v
  | keyOnKeyed idx v => exact VoiceInv.requestKeyOn (s := raised _ _ s) hs v
  | keyOff idx v => exact hs.releaseBound (some v)
  | keyOffNotKeyed idx v => exact VoiceInv.releaseBound (s := raised _ _ s) hs (some v)
  | trackFinish idx k => exact hs.finish k
  | deviceFault idx k => exact VoiceInv.finish (s := raised _ _ s) hs k
  | resolve => exact hs.resolve
  | songInit => exact invariantsHoldAtReset.1
  | _ => simpa [VoiceInv] using hs

end

/-! The commands that bind no primary: all but VOICE_BIND. -/

/-- Where `r` answers a next state, every primary binding in it stands in `s` too. -/
def BindsNone (s : State) (r : StepResult) : Prop :=
  ∀ t, r = .next t → ∀ (u : TrackIx) (v : Voice), t.tracks[u].primary = some v → s.tracks[u].primary = some v

section
variable {s : State} {op idx : BitVec 8}

theorem next_bindsNone {t : State}
    (h : ∀ (u : TrackIx) (v : Voice), t.tracks[u].primary = some v → s.tracks[u].primary = some v) :
    BindsNone s (.next t) := fun _ ht => by
  cases ht
  exact h

theorem next_bindsNone_of_tracks_eq {t : State} (h : t.tracks = s.tracks) : BindsNone s (.next t) :=
  next_bindsNone fun _ _ hv => h ▸ hv

theorem raise_bindsNone (d : Diag) (op : BitVec 8) : BindsNone s (raise d op s) := next_bindsNone_of_tracks_eq rfl

theorem ite_bindsNone {c : Prop} [Decidable c] {a b : StepResult} (ha : BindsNone s a) (hb : BindsNone s b) :
    BindsNone s (if c then a else b) := by
  split
  · exact ha
  · exact hb

theorem withTrack_bindsNone {act : TrackIx → StepResult} (h : ∀ k, BindsNone s (act k)) :
    BindsNone s (withTrack op idx s act) := by
  rcases withTrack_cases op idx s act with ⟨k, -, e⟩ | ⟨-, e⟩ <;> rw [e]
  · exact h k
  · exact next_bindsNone_of_tracks_eq rfl

theorem withVoice_bindsNone {act : Voice → StepResult} (h : ∀ v, BindsNone s (act v)) :
    BindsNone s (withVoice op idx s act) := by
  rcases withVoice_cases op idx s act with ⟨-, e⟩ | ⟨-, e⟩ <;> rw [e]
  · exact h _
  · exact next_bindsNone_of_tracks_eq rfl

theorem withTrackVoice_bindsNone {imm : BitVec 16} {act : TrackIx → Voice → StepResult}
    (h : ∀ k v, BindsNone s (act k v)) : BindsNone s (withTrackVoice op idx imm s act) := by
  rcases withTrackVoice_cases op idx imm s act with ⟨k, -, -, e⟩ | ⟨-, e⟩ <;> rw [e]
  · exact h _ _
  · exact next_bindsNone_of_tracks_eq rfl

theorem modifyTrack_bindsNone (k : TrackIx) {f : Track → Track}
    (hf : ∀ tr v, (f tr).primary = some v → tr.primary = some v) : BindsNone s (.next (modifyTrack k f s)) :=
  next_bindsNone fun u v hv => by
    by_cases hu : u = k
    · subst hu
      rw [modifyTrack_getElem_self] at hv
      exact hf _ v hv
    · rwa [modifyTrack_getElem_ne f s hu] at hv

theorem onTrack_bindsNone {f : Track → Track} (hf : ∀ tr v, (f tr).primary = some v → tr.primary = some v) :
    BindsNone s (onTrack op idx f s) :=
  withTrack_bindsNone fun k => modifyTrack_bindsNone k hf

theorem modifySlide_bindsNone (c : SlideKind) (k : TrackIx) (f : Slide → Slide) :
    BindsNone s (.next (modifySlide c k f s)) :=
  next_bindsNone fun u v hv => by
    rw [(modifySlide_onlySlidesChange c k f s).2 u] at hv
    exact hv

theorem onSlide_bindsNone {c : SlideKind} {f : Slide → Slide} : BindsNone s (onSlide c op idx f s) := by
  rcases onSlide_cases c op idx f s with ⟨-, e⟩ | ⟨-, k, -, e⟩ | ⟨-, -, e⟩ <;> rw [e]
  · exact modifySlide_bindsNone c 0 f
  · exact modifySlide_bindsNone c k f
  · exact next_bindsNone_of_tracks_eq rfl

theorem slideValueInstr_bindsNone (c : SlideKind) (idx : BitVec 8) (v : Word) :
    BindsNone s (exec (slideValueInstr c idx v) s) :=
  exec_slideValueInstr c idx v s ▸ onSlide_bindsNone

theorem slideStartInstr_bindsNone (c : SlideKind) (idx : BitVec 8) (n : BitVec 16) (v : Word) :
    BindsNone s (exec (slideStartInstr c idx n v) s) :=
  exec_slideStartInstr c idx n v s ▸ onSlide_bindsNone

theorem finish_bindsNone (k : TrackIx) {s' : State} (h : s'.tracks = s.tracks) : BindsNone s (.next (finish k s')) :=
  next_bindsNone fun u v hv => by
    by_cases hu : u = k
    · subst hu
      rw [finish_getElem_self] at hv
      cases hv
    · rwa [finish_getElem_ne s' hu, h] at hv

theorem mapTracks_bindsNone {t : State} {n : Nat} {f : Track → Track} (ht : t.tracks = mapTracks n f s.tracks)
    (hf : ∀ tr, (f tr).primary = tr.primary) : BindsNone s (.next t) :=
  next_bindsNone fun u v hv => by
    rw [ht, mapTracks_getElem, apply_ite Track.primary, hf, ite_self] at hv
    exact hv

theorem tickTrack_primary (p : Config.Params) (tr : Track) : (tickTrack p tr).primary = tr.primary := by
  unfold tickTrack
  split
  · rw [countDown_frame]
    rfl
  · rfl

theorem emittedTrack_primary (tr : Track) : (emittedTrack tr).primary = tr.primary := by
  unfold emittedTrack
  split <;> rfl

theorem songInit_bindsNone : BindsNone s (execSongInit s) :=
  next_bindsNone fun u v hv => by
    have hnone : State.reset.tracks[u].primary = none := congrArg Track.primary (resetInput_getElem State.reset u)
    rw [reinitialise_tracks, hnone] at hv
    cases hv

theorem read_bindsNone {i : Instr} (h : (∃ v, ReadAnswers i s v) ∨ ∃ d, ReadRefuses i s d) :
    BindsNone s (exec i s) := by
  rcases h with ⟨v, hv⟩ | ⟨d, hd⟩
  · have e : exec i s = .next (latch v s) := hv s.result s.link s.input
    rw [e]
    exact next_bindsNone_of_tracks_eq rfl
  · rw [hd s rfl]
    exact next_bindsNone_of_tracks_eq rfl

theorem execInstrWrite_bindsNone (f : BitVec 16) (v : Word) : BindsNone s (execInstrWrite idx f v s) := by
  unfold execInstrWrite
  refine ite_bindsNone (raise_bindsNone _ _) ?_
  split
  · exact raise_bindsNone _ _
  · exact next_bindsNone_of_tracks_eq rfl

theorem execLoadInstr_bindsNone (imm : BitVec 16) : BindsNone s (execLoadInstr idx imm s) :=
  withTrack_bindsNone fun k => by
    split
    · exact raise_bindsNone _ _
    · exact ite_bindsNone (modifyTrack_bindsNone k fun _ _ => id) (raise_bindsNone _ _)

/-- Only VOICE_BIND binds a primary voice (43_voice.md R203). -/
theorem exec_bindsNone {i : Instr} (hi : ∀ idx imm, i ≠ .voiceBind idx imm) : BindsNone s (exec i s) := by
  cases i with
  | voiceBind idx imm => exact absurd rfl (hi idx imm)
  | nop | timeSet | reverbTypeSet | statusClear | saveActive => exact next_bindsNone_of_tracks_eq rfl
  | block => exact next_bindsNone_of_tracks_eq (by simp)
  | tick => exact ite_bindsNone (raise_bindsNone _ _) (mapTracks_bindsNone rfl (tickTrack_primary _))
  | songInit => exact songInit_bindsNone
  | regRead idx n => exact read_bindsNone (regRead_cases idx n s)
  | voicesQuery sel m => exact read_bindsNone (voicesQuery_cases sel m s)
  | trackFinish => exact withTrack_bindsNone fun k => finish_bindsNone k rfl
  | deviceFault => exact withTrack_bindsNone fun k => finish_bindsNone k (note_tracks _ _ _)
  | slideValueTempo v => exact slideValueInstr_bindsNone .tempo 0 v
  | slideValueReverbDepth v => exact slideValueInstr_bindsNone .reverbDepth 0 v
  | slideValueVolume idx v => exact slideValueInstr_bindsNone .volume idx v
  | slideValuePan idx v => exact slideValueInstr_bindsNone .pan idx v
  | slideValuePitchBend idx v => exact slideValueInstr_bindsNone .pitchBend idx v
  | slideValueVibratoDepth idx v => exact slideValueInstr_bindsNone .vibratoDepth idx v
  | slideValueTremoloDepth idx v => exact slideValueInstr_bindsNone .tremoloDepth idx v
  | slideValuePanLfoDepth idx v => exact slideValueInstr_bindsNone .panLfoDepth idx v
  | slideValueOverlayBalance idx v => exact slideValueInstr_bindsNone .overlayBalance idx v
  | slideStartTempo n v => exact slideStartInstr_bindsNone .tempo 0 n v
  | slideStartReverbDepth n v => exact slideStartInstr_bindsNone .reverbDepth 0 n v
  | slideStartVolume idx n v => exact slideStartInstr_bindsNone .volume idx n v
  | slideStartPan idx n v => exact slideStartInstr_bindsNone .pan idx n v
  | slideStartPitchBend idx n v => exact slideStartInstr_bindsNone .pitchBend idx n v
  | slideStartVibratoDepth idx n v => exact slideStartInstr_bindsNone .vibratoDepth idx n v
  | slideStartTremoloDepth idx n v => exact slideStartInstr_bindsNone .tremoloDepth idx n v
  | slideStartPanLfoDepth idx n v => exact slideStartInstr_bindsNone .panLfoDepth idx n v
  | slideStartOverlayBalance idx n v => exact slideStartInstr_bindsNone .overlayBalance idx n v
  | keyOn | keyOff =>
    exact withVoice_bindsNone fun v =>
      ite_bindsNone (next_bindsNone_of_tracks_eq (by simp)) (next_bindsNone_of_tracks_eq (by simp))
  | resolve => exact mapTracks_bindsNone rfl emittedTrack_primary
  | noiseOn | noiseOff | reverbOn | reverbOff | plfoOn | plfoOff =>
    exact withVoice_bindsNone fun _ => next_bindsNone_of_tracks_eq rfl
  | overlayOn | alternateOn => exact withTrackVoice_bindsNone fun k _ => modifyTrack_bindsNone k fun _ _ => id
  | instrWrite e f v => exact execInstrWrite_bindsNone f v
  | loadInstr idx imm => exact execLoadInstr_bindsNone imm
  | voiceUnbind => exact onTrack_bindsNone fun _ _ hv => nomatch hv
  | setDelta | trackStart | secondaryOff | setAttackRate | setDecayRate | setSustainRate | setReleaseRate
  | setSustainLevel | setAttackMode | setDecayMode | setReleaseMode | setPitch | setVolume | setAddr | setLoopAddr =>
    exact onTrack_bindsNone fun _ _ => id

end

/-! Uniqueness of the primary bindings (10_state.md R42). -/

section
variable {s t : State}

theorem PrimariesDistinct.of_bindsNone {r : StepResult} (hs : PrimariesDistinct s) (hr : BindsNone s r)
    (ht : r = .next t) (hp : t.params = s.params) : PrimariesDistinct t := by
  intro k u v hk hu hkv huv
  rw [hp] at hk hu
  exact hs k u v hk hu (hr t ht k v hkv) (hr t ht u v huv)

/-- Binding a voice that no other track holds. -/
theorem PrimariesDistinct.bind {k : TrackIx} {v : Voice} (hs : PrimariesDistinct s) (hchange : OnlyTrackChanges k s t)
    (hbound : t.tracks[k].primary = some v)
    (hfree : ∀ u, IsTrack s.params u → u ≠ k → s.tracks[u].primary ≠ some v) : PrimariesDistinct t := by
  obtain ⟨hframe, hothers⟩ := hchange
  have hp : t.params = s.params := by rw [hframe]
  -- A track that holds the voice of track `k` after the bind is track `k`.
  have hunique (u : TrackIx) (hu : IsTrack s.params u) (huv : t.tracks[u].primary = t.tracks[k].primary) : u = k := by
    by_contra hne
    rw [hothers u hne, hbound] at huv
    exact hfree u hu hne huv
  intro a b w ha hb haw hbw
  rw [hp] at ha hb
  by_cases hak : a = k
  · subst hak
    exact (hunique b hb (hbw.trans haw.symm)).symm
  · by_cases hbk : b = k
    · subst hbk
      exact hunique a ha (haw.trans hbw.symm)
    · rw [hothers a hak] at haw
      rw [hothers b hbk] at hbw
      exact hs a b w ha hb haw hbw

/-- VOICE_BIND binds a voice that no other track holds, or raises. -/
theorem PrimariesDistinct.voiceBind {idx : BitVec 8} {imm : BitVec 16} (hs : PrimariesDistinct s)
    (h : exec (.voiceBind idx imm) s = .next t) : PrimariesDistinct t := by
  obtain ⟨hnamed, hrange⟩ := voiceBindBindsPrimary idx imm s
  by_cases hin : idx.toNat < s.params.numTracks.val ∧ imm.toNat < s.params.numVoices.val
  · obtain ⟨k, hk⟩ := names_of_lt hin.1
    obtain ⟨hbind, hrefuse⟩ := hnamed k hk hin.2
    by_cases hheld : ∃ u : TrackIx, IsTrack s.params u ∧ u ≠ k ∧
        s.tracks[u].primary = some (BitVec.ofNat 5 imm.toNat)
    · cases h.symm.trans (hrefuse hheld)
      exact hs
    · have hfree : ∀ u : TrackIx, IsTrack s.params u → u ≠ k →
          s.tracks[u].primary ≠ some (BitVec.ofNat 5 imm.toNat) := fun u hu hne hp => hheld ⟨u, hu, hne, hp⟩
      obtain ⟨t', ht', hchange, htrack⟩ := hbind hfree
      cases h.symm.trans ht'
      exact hs.bind hchange (congrArg Track.primary htrack) hfree
  · cases h.symm.trans (hrange (by omega))
    exact hs

theorem exec_primariesDistinct {i : Instr} (hs : PrimariesDistinct s) (h : exec i s = .next t) :
    PrimariesDistinct t := by
  by_cases hi : ∃ idx imm, i = .voiceBind idx imm
  · obtain ⟨idx, imm, rfl⟩ := hi
    exact hs.voiceBind h
  · exact hs.of_bindsNone (exec_bindsNone fun idx imm e => hi ⟨idx, imm, e⟩) h (exec_effect h).params_eq

end

/-! From commands to steps. -/

/-- A predicate that every command keeps, and every raise, that does not speak of the ports and that holds at reset is
kept by every step. -/
theorem step_keeps {P : State → Prop} (hports : ∀ l ps s, P s → P (onPorts l ps s))
    (hraised : ∀ d op s, P s → P (raised d op s)) (hreset : ∀ s, P (resetInput s))
    (hexec : ∀ i s t, P s → exec i s = .next t → P t) {s t : State} (hs : P s) (h : step s = .next t) : P t := by
  have hword (w : CmdWord) (s' : State) (hs' : P s') (hw : execWord w s' = .next t) : P t := by
    rcases decode_cases w with ⟨i, hi, -⟩ | ⟨-, hreserved⟩
    · exact hexec i s' t hs' (execWord_of_decode_command hi s' ▸ hw)
    · cases (execWord_of_decode_reserved hreserved s').symm.trans hw
      exact hraised _ _ s' hs'
  rcases hin : s.input with _ | ⟨p, rest⟩
  · cases (step_of_input_nil hin).symm.trans h
    exact hs
  · rw [step_of_input_cons hin] at h
    cases p with
    | command w => exact hword w _ (hports s.link rest s hs) h
    | byte b =>
      change receiveByte b (onPorts s.link rest s) = .next t at h
      unfold receiveByte at h
      split at h
      · cases h
        exact hports _ rest s hs
      · exact hword _ _ (hports _ rest s hs) h
    | reset =>
      cases h
      exact hreset _

theorem primariesDistinct_resetInput (s : State) : PrimariesDistinct (resetInput s) := by
  intro k u v _ _ hk _
  rw [resetInput_getElem] at hk
  cases hk

/-- Settles O10: the commands keep both by `CommandEffect.voiceInv` and `exec_primariesDistinct`, and so do the steps. -/
theorem stepKeepsVoiceInvariants : Obligations.StepKeepsVoiceInvariants := by
  obtain ⟨hinv, hdistinct, -⟩ := invariantsHoldAtReset
  have hexec (i : Instr) (s t : State) (hs : VoiceInv s ∧ PrimariesDistinct s) (h : exec i s = .next t) :
      VoiceInv t ∧ PrimariesDistinct t := ⟨(exec_effect h).voiceInv hs.1, exec_primariesDistinct hs.2 h⟩
  refine ⟨⟨hinv, hdistinct⟩, fun i s t hs hd => hexec i s t ⟨hs, hd⟩, fun s t hs hd => ?steps⟩
  case steps =>
    exact step_keeps (P := fun s => VoiceInv s ∧ PrimariesDistinct s) (fun _ _ _ => id) (fun _ _ _ => id)
      (fun s => ⟨hinv, primariesDistinct_resetInput s⟩) hexec ⟨hs, hd⟩

end Sys2Proof.Machine
end

