-- ==== Sys2Proof/Proofs/InstrTable.lean ====
section
/-! SUPPORT. INSTR_WRITE and LOAD_INSTR (44_adsr.md R230, R231): what each stores, loads and refuses. -/

namespace Sys2Proof.Machine

/-! INSTR_WRITE (R230). -/

section
variable {e : BitVec 8} {f : BitVec 16} {x : Word} {s : State}

theorem exec_instrWrite_of_field (hf : f.toNat ≤ 11) (he : e.toNat < s.params.numInstr.val) :
    exec (.instrWrite e f x) s =
      .next { s with instrTable := memWrite s.params s.instrTable e.toNat f.toNat x } := by
  rw [exec, execInstrWrite, if_neg (Nat.not_lt.mpr hf), entryOperand_of_lt he]

theorem exec_instrWrite_no_entry (hf : f.toNat ≤ 11) (he : s.params.numInstr.val ≤ e.toNat) :
    exec (.instrWrite e f x) s = .next (raised .indexRange 0x40 s) := by
  rw [exec, execInstrWrite, if_neg (Nat.not_lt.mpr hf), entryOperand_of_ge he, raise_eq]
  rfl

theorem exec_instrWrite_no_field (hf : 11 < f.toNat) :
    exec (.instrWrite e f x) s = .next (raised .badReg 0x40 s) := by
  rw [exec, execInstrWrite, if_pos hf, raise_eq]
  rfl

end

/-- Settles O49: the next table is `memWrite` of the field, by the rules for a read after a write. -/
theorem instrWriteStoresField : Obligations.InstrWriteStoresField := by
  refine fun e f x s => ⟨fun hf he hm => ⟨_, exec_instrWrite_of_field hf he, ?stored,
    fun e' f' hf' hne => ?others, rfl⟩, exec_instrWrite_no_entry, exec_instrWrite_no_field⟩
  case stored => rw [memRead_memWrite_self _ _ _ hm, narrow_toNat]
  case others => exact memRead_memWrite_ne _ _ _ (by omega) (by omega) hne

/-! LOAD_INSTR (R231). -/

section
variable {idx : BitVec 8} {id : BitVec 16} {k : TrackIx} {s : State}

/-- An entry of the table that is marked valid (20_memory.md R72). -/
abbrev ValidEntry (s : State) (id : BitVec 16) : Prop :=
  id.toNat < s.params.numInstr.val ∧ memRead s.instrTable id.toNat 11 ≠ 0

theorem exec_loadInstr_of_valid (hk : NamesTrack s.params idx k) (hv : ValidEntry s id) :
    exec (.loadInstr idx id) s =
      .next (modifyTrack k (loadEntry s.params s.instrTable id.toNat id) s) := by
  obtain ⟨hid, hvalid⟩ := hv
  have hentry : entryValid s.instrTable id.toNat = true := decide_eq_true hvalid
  rw [exec, execLoadInstr, withTrack, trackOperand_of_names hk]
  simp only [instrOperand, if_pos hid, if_pos hentry]

theorem exec_loadInstr_of_invalid (hk : NamesTrack s.params idx k) (hv : ¬ ValidEntry s id) :
    exec (.loadInstr idx id) s = .next (raised .instrInvalid 0x41 s) := by
  rw [← raise_eq, exec, execLoadInstr, withTrack, trackOperand_of_names hk]
  by_cases hid : id.toNat < s.params.numInstr.val
  · have hvalid : entryValid s.instrTable id.toNat ≠ true := fun h => hv ⟨hid, of_decide_eq_true h⟩
    simp only [instrOperand, if_pos hid, if_neg hvalid]
    rfl
  · simp only [instrOperand, if_neg hid]
    rfl

end

/-- A field of a canonical table is read in full by a register as wide as the field. -/
theorem memRead_setWidth_toNat {p : Config.Params} {m : Memory} {f w : Nat} (hm : Memory.wf p m = true) (e : Nat)
    (hf : f < 16) (hw : fieldWidth p f ≤ w) : ((memRead m e f).setWidth w).toNat = (memRead m e f).toNat := by
  rw [BitVec.toNat_setWidth, Nat.mod_eq_of_lt]
  exact Nat.lt_of_lt_of_le (memRead_lt hm hf) (Nat.pow_le_pow_right (by decide) hw)

/-- What a load leaves in the pitch and the ADSR registers of the fields 2 to 10 of the entry (20_memory.md R71). -/
theorem loadEntry_fields {p : Config.Params} {m : Memory} (hm : Memory.wf p m = true) (e : Nat) (id : BitVec 16)
    (tr : Track) :
    let t := loadEntry p m e id tr
    t.pitch.toNat = (memRead m e 2).toNat ∧
    t.adsr.attackMode.toNat = (memRead m e 3).toNat ∧ t.adsr.decayMode.toNat = (memRead m e 4).toNat ∧
    t.adsr.releaseMode.toNat = (memRead m e 5).toNat ∧ t.adsr.attackRate.toNat = (memRead m e 6).toNat ∧
    t.adsr.decayRate.toNat = (memRead m e 7).toNat ∧ t.adsr.sustainRate.toNat = (memRead m e 8).toNat ∧
    t.adsr.releaseRate.toNat = (memRead m e 9).toNat ∧ t.adsr.sustainLevel.toNat = (memRead m e 10).toNat := by
  have field {f w : Nat} (hf : f < 16) (hw : fieldWidth p f ≤ w) := memRead_setWidth_toNat hm e hf hw
  have hmode : p.modeW.val ≤ 2 := Nat.le_of_lt_succ p.modeW.isLt
  exact ⟨field (by decide) (Nat.le_of_lt_succ p.pitchW.isLt), field (by decide) hmode, field (by decide) hmode,
    field (by decide) hmode, field (by decide) (Nat.le_of_lt_succ p.arW.isLt),
    field (by decide) (Nat.le_of_lt_succ p.drW.isLt), field (by decide) (Nat.le_of_lt_succ p.srW.isLt),
    field (by decide) (Nat.le_of_lt_succ p.rrW.isLt), field (by decide) (Nat.le_of_lt_succ p.slW.isLt)⟩

/-- Settles O50: a valid entry is loaded by `loadEntry`, every other id is refused. -/
theorem loadInstrCopiesEntry : Obligations.LoadInstrCopiesEntry := by
  refine fun idx id s hm => ⟨fun k hk => ⟨fun hid hvalid => ?valid, fun h => ?invalid⟩, fun h => withTrack_of_ge h _⟩
  case valid =>
    obtain ⟨t, ht, hchange, htrack⟩ := exists_modifyTrack (exec_loadInstr_of_valid hk ⟨hid, hvalid⟩)
    obtain ⟨hpitch, ham, hdm, hrm, har, hdr, hsr, hrr, hsl⟩ :=
      loadEntry_fields hm id.toNat id s.tracks[k]
    rw [← htrack] at hpitch ham hdm hrm har hdr hsr hrr hsl
    refine ⟨t, ht, hchange, ?_, ?_, hpitch, ham, hdm, hrm, har, hdr, hsr, hrr, hsl, ?_⟩ <;> rw [htrack] <;> rfl
  case invalid =>
    refine exec_loadInstr_of_invalid hk fun ⟨hid, hvalid⟩ => ?_
    rcases h with hge | hzero
    · exact absurd hid (Nat.not_lt.mpr hge)
    · exact hvalid hzero

end Sys2Proof.Machine
end

