-- ==== Sys2Proof/Proofs/ShadowWrites.lean ====
section
/-! SUPPORT. The ADSR commands and the four shadow writes (44_adsr.md R232 to R243): the field each writes. -/

namespace Sys2Proof.Machine

/-- What `w` bits keep, as a number. -/
theorem narrow_eq_ofNat {n : Nat} (w : Nat) (x : BitVec n) : narrow w x = BitVec.ofNat n (x.toNat % 2 ^ w) :=
  BitVec.eq_of_toNat_eq (by
    rw [narrow_toNat, BitVec.toNat_ofNat, Nat.mod_eq_of_lt (Nat.lt_of_le_of_lt (Nat.mod_le _ _) x.isLt)])

/-- An operand taken into a type with room for the field, then masked to the field (R232 to R235, R237 to R239). -/
theorem narrow_setWidth {n w m : Nat} (x : BitVec n) (h : w < m + 1) :
    narrow w (x.setWidth m) = BitVec.ofNat m (x.toNat % 2 ^ w) := by
  rw [narrow_eq_ofNat, BitVec.toNat_setWidth, Nat.mod_mod_of_dvd _ (Nat.pow_dvd_pow 2 (Nat.le_of_lt_succ h))]

/-- The sustain level operand as a number (R236). -/
theorem sustainOperand_eq_ofNat (p : Config.Params) (x : BitVec 16) :
    sustainOperand p x = BitVec.ofNat 16 (x.toNat / 2 ^ p.slShift % 2 ^ p.slW.val) := by
  have hx : x.toNat / 2 ^ p.slShift < 2 ^ 16 := Nat.lt_of_le_of_lt (Nat.div_le_self _ _) x.isLt
  rw [sustainOperand, narrow_eq_ofNat, BitVec.toNat_ofNat, Nat.shiftRight_eq_div_pow, Nat.mod_eq_of_lt hx]

/-- Settles O51: each command is `onTrack` of one ADSR field's write, the operand kept to the field's width. -/
theorem adsrCommandsWriteField : Obligations.AdsrCommandsWriteField := by
  refine fun idx x s => ⟨fun k hk => ?writes, fun h => ?refused⟩
  case writes =>
    rw [← narrow_setWidth x s.params.arW.isLt, ← narrow_setWidth x s.params.drW.isLt,
      ← narrow_setWidth x s.params.srW.isLt, ← narrow_setWidth x s.params.rrW.isLt,
      ← narrow_setWidth x s.params.modeW.isLt, ← sustainOperand_eq_ofNat]
    exact ⟨exists_modifyTrack (onTrack_of_names rfl hk _), exists_modifyTrack (onTrack_of_names rfl hk _),
      exists_modifyTrack (onTrack_of_names rfl hk _), exists_modifyTrack (onTrack_of_names rfl hk _),
      exists_modifyTrack (onTrack_of_names rfl hk _), exists_modifyTrack (onTrack_of_names rfl hk _),
      exists_modifyTrack (onTrack_of_names rfl hk _), exists_modifyTrack (onTrack_of_names rfl hk _)⟩
  case refused =>
    exact ⟨withTrack_of_ge h _, withTrack_of_ge h _, withTrack_of_ge h _, withTrack_of_ge h _,
      withTrack_of_ge h _, withTrack_of_ge h _, withTrack_of_ge h _, withTrack_of_ge h _⟩

theorem volR_append_volL (y : Word) : volR y ++ volL y = y :=
  (BitVec.extractLsb'_append_extractLsb'_eq_extractLsb' (x := y) rfl).trans BitVec.extractLsb'_eq_self

/-- Settles O52: each command is `onTrack` of one field's write; a field as wide as its operand keeps all of it. -/
theorem shadowCommandsWriteField : Obligations.ShadowCommandsWriteField := by
  refine fun idx x y s => ⟨fun k hk => ?writes, fun ⟨hp, hv, ha⟩ => ?keeps, fun h => ?refused⟩
  case writes =>
    exact ⟨exists_modifyTrack (onTrack_of_names rfl hk _), exists_modifyTrack (onTrack_of_names rfl hk _),
      exists_modifyTrack (onTrack_of_names rfl hk _), exists_modifyTrack (onTrack_of_names rfl hk _)⟩
  case keeps =>
    rw [hp, hv, ha]
    have hvol := volR_append_volL y
    exact ⟨narrow_self x, by rwa [← narrow_self (volR y), ← narrow_self (volL y)] at hvol, narrow_self y⟩
  case refused =>
    exact ⟨withTrack_of_ge h _, withTrack_of_ge h _, withTrack_of_ge h _, withTrack_of_ge h _⟩

end Sys2Proof.Machine
end

