-- ==== Sys2Proof/Proofs/ShadowPurity.lean ====
section
/-! SUPPORT. What the shadow commands depend on and write (44_adsr.md R244). `IsShadowCommand` says of a command that
it is one edit of the shadow of its track, or a refusal; the claims of R244 are read off it. -/

namespace Sys2Proof.Machine

/-! Edits of one track. -/

/-- `f` reads and writes nothing of a track but its shadow, and a second time it changes nothing. -/
structure ShadowEdit (f : Track → Track) : Prop where
  reads : ∀ a b : Track, shadowOf a = shadowOf b → shadowOf (f a) = shadowOf (f b)
  writes : ∀ tr : Track, f tr = { tr with
    instrId := (f tr).instrId
    addr := (f tr).addr
    loopAddr := (f tr).loopAddr
    pitch := (f tr).pitch
    volumeLr := (f tr).volumeLr
    adsr := (f tr).adsr
    update := (f tr).update }
  idem : ∀ tr : Track, f (f tr) = f tr

theorem shadowEdit_loadEntry (p : Config.Params) (m : Memory) (e : Nat) (id : BitVec 16) :
    ShadowEdit (loadEntry p m e id) where
  reads _ _ h := by simp_all [shadowOf, loadEntry]
  writes _ := rfl
  idem _ := by simp [loadEntry, BitVec.or_assoc]

/-- A load reads the fields of its entry and nothing else of the table. -/
theorem loadEntry_congr {m m' : Memory} {e : Nat} (h : ∀ f, f ≤ 11 → memRead m e f = memRead m' e f)
    (p : Config.Params) (id : BitVec 16) : loadEntry p m e id = loadEntry p m' e id := by
  have hadsr : entryAdsr m e = entryAdsr m' e := by simp [entryAdsr, h]
  funext tr
  simp [loadEntry, hadsr, h]

theorem modifyTrack_idem {f : Track → Track} (hf : ∀ tr, f (f tr) = f tr) (k : TrackIx) (s : State) :
    modifyTrack k f (modifyTrack k f s) = modifyTrack k f s := by
  have htrack : f (modifyTrack k f s).tracks[k] = f s.tracks[k] := by rw [modifyTrack_getElem_self, hf]
  rw [modifyTrack, htrack]
  simp [modifyTrack]

/-! The commands. -/

/-- The states agree on the entry that `i` names, if it names one. -/
def SameEntry (i : Instr) (idx : BitVec 8) (s s' : State) : Prop :=
  ∀ id : BitVec 16, i = .loadInstr idx id → ∀ f : Nat, f ≤ 11 →
    memRead s.instrTable id.toNat f = memRead s'.instrTable id.toNat f

/-- `i` makes the edit `edit s` of the track that `idx` names, or raises INSTR_INVALID where there is none; the edit is
one of the shadow, and the parameters and the entry that `i` names fix it. -/
structure IsShadowCommand (i : Instr) (idx : BitVec 8) (edit : State → Option (Track → Track)) : Prop where
  some_of_names : ∀ (s : State) (k : TrackIx) (f : Track → Track), NamesTrack s.params idx k → edit s = some f →
    exec i s = .next (modifyTrack k f s)
  none_of_names : ∀ (s : State) (k : TrackIx), NamesTrack s.params idx k → edit s = none →
    exec i s = .next (raised .instrInvalid (opcodeOf i) s)
  no_track : ∀ s : State, s.params.numTracks.val ≤ idx.toNat → exec i s = .next (raised .indexRange (opcodeOf i) s)
  edit_congr : ∀ s s' : State, s.params = s'.params → SameEntry i idx s s' → edit s = edit s'
  shadowEdit : ∀ (s : State) (f : Track → Track), edit s = some f → ShadowEdit f

theorem onTrack_isShadowCommand {i : Instr} {idx : BitVec 8} {f : State → Track → Track}
    (hexec : ∀ s, exec i s = onTrack (opcodeOf i) idx (f s) s)
    (hparams : ∀ s s', s.params = s'.params → f s = f s') (hf : ∀ s, ShadowEdit (f s)) :
    IsShadowCommand i idx fun s => some (f s) where
  some_of_names s k g hk hg := by
    cases hg
    exact (hexec s).trans (onTrack_of_names rfl hk _)
  none_of_names _ _ _ hnone := nomatch hnone
  no_track s h := (hexec s).trans (withTrack_of_ge h _)
  edit_congr s s' hp _ := congrArg some (hparams s s' hp)
  shadowEdit s g hg := by
    cases hg
    exact hf s

theorem loadInstr_isShadowCommand (idx : BitVec 8) (id : BitVec 16) :
    IsShadowCommand (.loadInstr idx id) idx fun s =>
      if ValidEntry s id then some (loadEntry s.params s.instrTable id.toNat id) else none where
  some_of_names s k f hk hf := by
    obtain ⟨hv, hload⟩ := Option.ite_none_right_eq_some.mp hf
    cases hload
    exact exec_loadInstr_of_valid hk hv
  none_of_names s k hk hnone := exec_loadInstr_of_invalid hk fun hv =>
    Option.some_ne_none _ ((if_pos hv).symm.trans hnone)
  no_track s h := withTrack_of_ge h _
  edit_congr s s' hp hm := by
    have hentry := hm id rfl
    simp only [ValidEntry, hp, hentry 11 le_rfl, loadEntry_congr hentry]
  shadowEdit s f hf := by
    obtain ⟨-, hload⟩ := Option.ite_none_right_eq_some.mp hf
    cases hload
    exact shadowEdit_loadEntry _ _ _ _

/-- The commands of R231 to R243. -/
theorem isShadowCommand_of_shadowTrack {i : Instr} {idx : BitVec 8} (h : shadowTrack i = some idx) :
    ∃ edit, IsShadowCommand i idx edit := by
  cases i with
  | loadInstr =>
    cases h
    exact ⟨_, loadInstr_isShadowCommand _ _⟩
  | setAttackRate | setDecayRate | setSustainRate | setReleaseRate | setSustainLevel | setAttackMode | setDecayMode
  | setReleaseMode | setPitch | setVolume | setAddr | setLoopAddr =>
    cases h
    exact ⟨_, onTrack_isShadowCommand (fun _ => rfl) (fun _ _ hp => by rw [hp]) fun _ =>
      { reads := fun _ _ hs => by simp_all [shadowOf]
        writes := fun _ => rfl
        idem := fun _ => by simp [BitVec.or_assoc] }⟩
  | _ => cases h

/-! R244, read off an edit. -/

section
variable {i : Instr} {idx : BitVec 8} {edit : State → Option (Track → Track)} {k : TrackIx}

/-- What a shadow command on a track can do. -/
theorem IsShadowCommand.answers (h : IsShadowCommand i idx edit) {s : State} (hk : NamesTrack s.params idx k) :
    (∃ f, edit s = some f ∧ ShadowEdit f ∧ exec i s = .next (modifyTrack k f s)) ∨
    (edit s = none ∧ exec i s = .next (raised .instrInvalid (opcodeOf i) s)) := by
  cases he : edit s with
  | none => exact .inr ⟨rfl, h.none_of_names s k hk he⟩
  | some f => exact .inl ⟨f, rfl, h.shadowEdit s f he, h.some_of_names s k f hk he⟩

theorem IsShadowCommand.shadowOf_eq (h : IsShadowCommand i idx edit) {s s' t t' : State}
    (hk : NamesTrack s.params idx k) (hp : s.params = s'.params) (hm : SameEntry i idx s s')
    (hs : shadowOf s.tracks[k] = shadowOf s'.tracks[k]) (ht : exec i s = .next t) (ht' : exec i s' = .next t') :
    shadowOf t.tracks[k] = shadowOf t'.tracks[k] := by
  have hedit : edit s = edit s' := h.edit_congr s s' hp hm
  rcases h.answers hk with ⟨f, he, hf, e⟩ | ⟨he, e⟩
  · cases ht.symm.trans e
    cases ht'.symm.trans (h.some_of_names s' k f (hp ▸ hk) (hedit ▸ he))
    rw [modifyTrack_getElem_self, modifyTrack_getElem_self]
    exact hf.reads _ _ hs
  · cases ht.symm.trans e
    cases ht'.symm.trans (h.none_of_names s' k (hp ▸ hk) (hedit ▸ he))
    exact hs

/-- An edit made again, with the same parameters and the same table, changes nothing. -/
theorem IsShadowCommand.exec_edited (h : IsShadowCommand i idx edit) {s : State} {f : Track → Track}
    (hk : NamesTrack s.params idx k) (he : edit s = some f) :
    exec i (modifyTrack k f s) = .next (modifyTrack k f s) := by
  have hagain : edit (modifyTrack k f s) = some f :=
    (h.edit_congr (modifyTrack k f s) s rfl fun _ _ _ _ => rfl).trans he
  rw [h.some_of_names (modifyTrack k f s) k f hk hagain, modifyTrack_idem (h.shadowEdit s f he).idem]

theorem IsShadowCommand.exec_raised (h : IsShadowCommand i idx edit) {s : State} (hk : NamesTrack s.params idx k)
    (he : edit s = none) (d : Diag) (op : BitVec 8) :
    exec i (raised d op s) = .next (raised .instrInvalid (opcodeOf i) (raised d op s)) :=
  h.none_of_names (raised d op s) k hk ((h.edit_congr (raised d op s) s rfl fun _ _ _ _ => rfl).trans he)

end

/-- Settles O53: every command of `shadowTrack` is an `IsShadowCommand`, which either edits its track's shadow or
raises. -/
theorem shadowCommandsArePure : Obligations.ShadowCommandsArePure := by
  refine ⟨fun i idx k hi => ?pure, fun i idx s hi hge => ?no_track⟩
  case no_track =>
    obtain ⟨_, h⟩ := isShadowCommand_of_shadowTrack hi
    exact h.no_track s hge
  case pure =>
    obtain ⟨edit, h⟩ := isShadowCommand_of_shadowTrack hi
    refine ⟨fun s1 s2 t1 t2 hk hp hm hs ht1 ht2 => h.shadowOf_eq hk hp hm hs ht1 ht2, fun s hk => ?writes⟩
    rcases h.answers hk with ⟨f, he, hf, e⟩ | ⟨he, e⟩
    · refine ⟨_, _, e, h.exec_edited hk he, .inl rfl, fun u hu => modifyTrack_getElem_ne f s hu, ?_, rfl, fun _ => rfl⟩
      rw [modifyTrack_getElem_self]
      exact hf.writes s.tracks[k]
    · refine ⟨_, _, e, h.exec_raised hk he _ _, .inr rfl, fun _ _ => rfl, rfl, raised_raised _ _ s, fun hout => ?_⟩
      simp [raised] at hout

end Sys2Proof.Machine
end

