-- ==== Sys2Proof/Proofs/SystemCommands.lean ====
section
/-! SUPPORT. NOP, STATUS_CLEAR and SONG_INIT (45_system.md R260, R262, R263): the whole next state of each. -/

namespace Sys2Proof.Machine

/-! NOP (R260). -/

theorem exec_nop (s : State) : exec .nop s = .next s := rfl

/-- Settles O20: the command answers the state it is given. -/
theorem nopChangesNothing : Obligations.NopChangesNothing := exec_nop

/-! STATUS_CLEAR (R262). -/

theorem exec_statusClear (mask : Word) (s : State) :
    exec (.statusClear mask) s = .next { s with error := clearError s.error mask } := rfl

/-- A bit of `ERROR` stays set unless the mask has it; the mask's bits from 10 on meet no bit of `ERROR`. -/
theorem clearError_getLsbD (error : BitVec 10) (mask : Word) {n : Nat} (hn : n < 10) :
    (clearError error mask).getLsbD n = (error.getLsbD n && !mask.getLsbD n) := by
  have hmask : (mask.extractLsb' 0 10).getLsbD n = mask.getLsbD n := by simp [hn]
  simp only [clearError, BitVec.getLsbD_and, BitVec.getLsbD_not, hmask, hn, decide_true, Bool.true_and]

/-- Settles O21: the next state differs in `ERROR` alone, whose bits are those of `clearError`. -/
theorem statusClearClearsMaskedBits : Obligations.StatusClearClearsMaskedBits :=
  fun mask s => ⟨_, exec_statusClear mask s, rfl, fun _ hn => clearError_getLsbD s.error mask hn⟩

/-! SONG_INIT (R263). -/

theorem exec_songInit (s : State) : exec .songInit s =
    .next (reinitialise (emit ((voicesOf s.params.numVoices s.keyedVoices).map Event.keyOff) s)) := rfl

/-- Events emitted before the re-initialisation show in `OUT` and nowhere else. -/
theorem reinitialise_emit (es : List Event) (s : State) :
    reinitialise (emit es s) = { reinitialise s with out := s.out ++ es } := rfl

/-- Settles O22: the keyed voices listed ascending are those that the command keys off, as there are at most 32, and the
fields that `reinitialise` keeps are those the statement names. -/
theorem songInitReinitialises : Obligations.SongInitReinitialises := by
  intro s
  have hn : s.params.numVoices.val ≤ 32 := Nat.lt_succ_iff.mp s.params.numVoices.isLt
  rw [exec_songInit, reinitialise_emit, ascending_eq_voicesOf hn, reinitialise]

end Sys2Proof.Machine
end

