-- ==== Sys2Proof/Proofs/Exceptions.lean ====
section
/-! SUPPORT. The exception rules of every command (60_exceptions.md R280, R283, R287): it has a next state, and its
diagnostic is the first of the events it appends to `OUT`. -/

namespace Sys2Proof.Machine

/-- Each command has a next state, whatever the ports hold. -/
theorem exec_answers (i : Instr) (s : State) : ∃ t, exec i s = .next t := (exec_ignoresPorts i s).answers

/-- Settles O54: the commands by `exec_answers`; a step runs a command, raises ILLEGAL_OP, or answers directly. -/
theorem noCommandStopsTheBlock : Obligations.NoCommandStopsTheBlock := ⟨exec_answers, step_answers⟩

/-- What a command does to `OUT` and `ERROR` splits its events into a diagnostic, if any, and the other events. -/
theorem OutErrorEffect.diag_then_events {s t : State} {i : Instr} (h : OutErrorEffect s t i) :
    ∃ ds es : List Event, t.out = s.out ++ ds ++ es ∧ ds.length ≤ 1 ∧
      (∀ e ∈ ds, ∃ d : Diag, e = .diag d (opcodeOf i)) ∧ ∀ e ∈ es, isDiag e = false := by
  cases h with
  | quiet es hes hout _ =>
    exact ⟨[], es, by rw [hout, List.append_nil], Nat.zero_le 1, nofun, hes⟩
  | diag d hout _ =>
    exact ⟨[.diag d (opcodeOf i)], [], by rw [hout, List.append_nil], Nat.le_refl 1,
      fun _ he => ⟨d, List.mem_singleton.mp he⟩, nofun⟩
  | cleared m _ hout =>
    exact ⟨[], [], by rw [hout, List.append_nil, List.append_nil], Nat.zero_le 1, nofun, nofun⟩

/-- Settles O55: no command has a diagnostic together with another event, so the split is that of `OutErrorEffect`. -/
theorem atMostOneDiagnosticPerCommand : Obligations.AtMostOneDiagnosticPerCommand :=
  fun _ _ _ h => (exec_effect h).outError.diag_then_events

end Sys2Proof.Machine
end
